-- ==== Sys2Proof/Word.lean ====
section
/-!
DEFINITION. The word types of the machine. Widths are fixed by the spec: a host transaction and a
command word have 32 bits (spec/00_scope.md R7 `BUS_W`, spec/30_encoding.md R101), a frequency is a
signed 32-bit FQ value (R10), a byte has 8 bits (spec/20_memory.md R70).
-/

namespace Sys2Proof

/-- A 32-bit register, host word or FQ value. -/
abbrev Word := BitVec 32

/-- One byte of a memory space (spec/20_memory.md R70). -/
abbrev Byte := BitVec 8

end Sys2Proof
end

