-- ==== Sys2Proof/Syntax.lean ====
section
/-!
DEFINITION. The syntax of the command set (spec/30_encoding.md R100, R102): one constructor per row
of spec/opcode_table.json. A command has no operand fields (R101, R104): its operands are the
operand registers of the instance whose `CMD` register is written.
-/

namespace Sys2Proof

/-- The twelve commands of spec/30_encoding.md R102. -/
inductive Instr
  /-- DECODE (spec/40_decode.md). -/
  | decode
  /-- TRANSFORM (spec/41_transform.md). -/
  | transform
  /-- SELECT (spec/42_select.md). -/
  | select
  /-- EMIT (spec/43_smoother.md). -/
  | emit
  /-- NOTE.E: the instance's estimate (spec/44_note.md). -/
  | noteE
  /-- NOTE.F: the frequency of `FREQ_ARG` (spec/44_note.md). -/
  | noteF
  /-- SYNTH.E: the instance's estimate (spec/45_synth.md). -/
  | synthE
  /-- SYNTH.F: the frequency of `FREQ_ARG` (spec/45_synth.md). -/
  | synthF
  /-- SETBAND.MIN: a conflict clamps the minimum (spec/46_config.md). -/
  | setbandMin
  /-- SETBAND.MAX: a conflict clamps the maximum (spec/46_config.md). -/
  | setbandMax
  /-- TICK (spec/47_tick.md). -/
  | tick
  /-- INIT (spec/46_config.md R184). -/
  | init
  deriving DecidableEq, Repr

/-- A command word cut into the fields of format `C` (spec/30_encoding.md R101): any 32-bit word is
one of these, well-formed or not. -/
structure CommandWord where
  /-- bits [3:0], the operation code. -/
  opc : BitVec 4
  /-- bits [7:4], must be 0. -/
  z0 : BitVec 4
  /-- bit [8], the modifier. -/
  m : Bool
  /-- bits [31:9], must be 0. -/
  z1 : BitVec 23
  deriving DecidableEq, Repr

end Sys2Proof
end

