-- ==== Sys2Proof/WellFormed.lean ====
section
/-!
DEFINITION. Well-formedness of a command word: the four checks of spec/30_encoding.md R105, in the
order in which that rule names them. `Instr` itself has no operand, so every `Instr` is
well-formed.
-/

namespace Sys2Proof

/-- An operation code R102 assigns: 0x1 to 0x9. -/
def CommandWord.opcodeAssigned (c : CommandWord) : Bool :=
  1 ≤ c.opc.toNat && c.opc.toNat ≤ 9

/-- `Z0` must be 0. -/
def CommandWord.z0Zero (c : CommandWord) : Bool := c.z0 == 0

/-- `Z1` must be 0. -/
def CommandWord.z1Zero (c : CommandWord) : Bool := c.z1 == 0

/-- `M = 1` only for operation codes 5, 6, 7 (R103). -/
def CommandWord.modifierAllowed (c : CommandWord) : Bool :=
  !c.m || c.opc == 5 || c.opc == 6 || c.opc == 7

/-- A legal command word (R102, R105). -/
def CommandWord.wellFormed (c : CommandWord) : Bool :=
  c.opcodeAssigned && c.z0Zero && c.z1Zero && c.modifierAllowed

/-- An instruction has no operand that could be out of range (R101, R104). -/
def Instr.wellFormed (_ : Instr) : Bool := true

end Sys2Proof
end

