-- ==== Sys2Proof/Decode.lean ====
section
/-!
DEFINITION. The command decoder (spec/30_encoding.md R101, R102, R105, R109), total on any 32-bit
word and on any bytes, rejecting by name; and after it the encoder.
-/

namespace Sys2Proof

/-- Why a command word is illegal (spec/30_encoding.md R105). -/
inductive IllegalWord
  /-- `w[3:0]` is 0x0 or 0xA to 0xF. -/
  | opcodeUnassigned
  /-- `w[7:4]` is not 0. -/
  | z0NotZero
  /-- `w[31:9]` is not 0. -/
  | z1NotZero
  /-- `w[8]` is 1 and `w[3:0]` is not 5, 6 or 7. -/
  | modifierNotAllowed
  /-- Not a 32-bit word: there is one length (R101, R106). -/
  | notOneWord
  deriving DecidableEq, Repr

/-- The fields of format `C` (R101). -/
def commandFields (w : Word) : CommandWord :=
  { opc := w.extractLsb' 0 4, z0 := w.extractLsb' 4 4, m := w.getLsbD 8, z1 := w.extractLsb' 9 23 }

/-- The instruction of a well-formed command word's `OPC` and `M` (the opcode map of R102). -/
def instrOf (opc : BitVec 4) (m : Bool) : Option Instr :=
  match opc.toNat, m with
  | 1, false => some .decode
  | 2, false => some .transform
  | 3, false => some .select
  | 4, false => some .emit
  | 5, false => some .noteE
  | 5, true => some .noteF
  | 6, false => some .synthE
  | 6, true => some .synthF
  | 7, false => some .setbandMin
  | 7, true => some .setbandMax
  | 8, false => some .tick
  | 9, false => some .init
  | _, _ => none

/-- Decoding of an accepted word (R109), with the illegal words of R105 rejected by name. -/
def decodeWord (w : Word) : Except IllegalWord Instr :=
  let c := commandFields w
  if !c.opcodeAssigned then .error .opcodeUnassigned
  else if !c.z0Zero then .error .z0NotZero
  else if !c.z1Zero then .error .z1NotZero
  else
    match instrOf c.opc c.m with
    | some i => .ok i
    | none => .error .modifierNotAllowed

/-- Four bytes as the host word that carries them (spec/20_memory.md R72 (c)): the byte at the
lowest address is bits [7:0]. -/
def wordOfBytes (b0 b1 b2 b3 : Byte) : Word := b3 ++ b2 ++ b1 ++ b0

/-- The decoder on bytes, the first at the lowest address: one command is exactly four bytes
(R101, R106). -/
def decodeBytes : List Byte → Except IllegalWord Instr
  | [b0, b1, b2, b3] => decodeWord (wordOfBytes b0 b1 b2 b3)
  | _ => .error .notOneWord

/-! ### The encoder -/

/-- The `OPC` and `M` columns of the opcode map (R102). -/
def opcodeOf : Instr → BitVec 4 × Bool
  | .decode => (0x1, false)
  | .transform => (0x2, false)
  | .select => (0x3, false)
  | .emit => (0x4, false)
  | .noteE => (0x5, false)
  | .noteF => (0x5, true)
  | .synthE => (0x6, false)
  | .synthF => (0x6, true)
  | .setbandMin => (0x7, false)
  | .setbandMax => (0x7, true)
  | .tick => (0x8, false)
  | .init => (0x9, false)

/-- The word of the fields of format `C` (R101). -/
def wordOfFields (c : CommandWord) : Word := c.z1 ++ BitVec.ofBool c.m ++ c.z0 ++ c.opc

/-- The command word of an instruction: `Z0` and `Z1` are 0 (R101, R102). -/
def encode (i : Instr) : Word :=
  wordOfFields { opc := (opcodeOf i).1, z0 := 0, m := (opcodeOf i).2, z1 := 0 }

/-- Bytes of a word, the least significant at the lowest address (spec/20_memory.md R72). -/
def bytesOfWord (w : Word) : List Byte :=
  [w.extractLsb' 0 8, w.extractLsb' 8 8, w.extractLsb' 16 8, w.extractLsb' 24 8]

/-- The command word of an instruction as bytes. -/
def encodeBytes (i : Instr) : List Byte := bytesOfWord (encode i)

/-- The instruction the decoder reads from the opcode table's bits `w` (`nbits` of them; the bits
above are 0): the word is laid out as bytes, the first at the lowest address. -/
def decodeTableWord (nbits w : Nat) : Option Instr :=
  if nbits ≤ 32 then
    match decodeBytes (bytesOfWord (BitVec.ofNat 32 (w % 2 ^ nbits))) with
    | .ok i => some i
    | .error _ => none
  else none

end Sys2Proof
end

