-- ==== Sys2Proof/Config.lean ====
section
/-!
DEFINITION. The configuration: one record that holds every constant the source fixes
(spec/00_scope.md R6), every parameter the spec chooses (R7), the sine table (spec/45_synth.md R175)
and the byte order of PCM samples (spec/20_memory.md R72), as spec/92_eei_decisions.md asks of a
model; its default instance is the spec's table. Beside it the free values, which are opaque
constants with no body.
-/

namespace Sys2Proof

/-- Which byte of a PCM sample lies at the lowest offset (spec/20_memory.md R72 (a), log 12). -/
inductive ByteOrder
  | little
  | big
  deriving DecidableEq, Repr

/-- Entries 0 to 63 of the table `Q` (spec/45_synth.md R175). -/
def Config.sineRows0 : List Nat :=
  [0, 101, 201, 302, 402, 503, 603, 704, 804, 904, 1005, 1105, 1205, 1306, 1406, 1506,
   1606, 1706, 1806, 1906, 2006, 2105, 2205, 2305, 2404, 2503, 2603, 2702, 2801, 2900, 2999, 3098,
   3196, 3295, 3393, 3492, 3590, 3688, 3786, 3883, 3981, 4078, 4176, 4273, 4370, 4467, 4563, 4660,
   4756, 4852, 4948, 5044, 5139, 5235, 5330, 5425, 5520, 5614, 5708, 5803, 5897, 5990, 6084, 6177]

/-- Entries 64 to 127 of the table `Q` (spec/45_synth.md R175). -/
def Config.sineRows1 : List Nat :=
  [6270, 6363, 6455, 6547, 6639, 6731, 6823, 6914, 7005, 7096, 7186, 7276, 7366, 7456, 7545, 7635,
   7723, 7812, 7900, 7988, 8076, 8163, 8250, 8337, 8423, 8509, 8595, 8680, 8765, 8850, 8935, 9019,
   9102, 9186, 9269, 9352, 9434, 9516, 9598, 9679, 9760, 9841, 9921, 10001, 10080, 10159, 10238, 10316,
   10394, 10471, 10549, 10625, 10702, 10778, 10853, 10928, 11003, 11077, 11151, 11224, 11297, 11370, 11442, 11514]

/-- Entries 128 to 191 of the table `Q` (spec/45_synth.md R175). -/
def Config.sineRows2 : List Nat :=
  [11585, 11656, 11727, 11797, 11866, 11935, 12004, 12072, 12140, 12207, 12274, 12340, 12406, 12472, 12537, 12601,
   12665, 12729, 12792, 12854, 12916, 12978, 13039, 13100, 13160, 13219, 13279, 13337, 13395, 13453, 13510, 13567,
   13623, 13678, 13733, 13788, 13842, 13896, 13949, 14001, 14053, 14104, 14155, 14206, 14256, 14305, 14354, 14402,
   14449, 14497, 14543, 14589, 14635, 14680, 14724, 14768, 14811, 14854, 14896, 14937, 14978, 15019, 15059, 15098]

/-- Entries 192 to 255 of the table `Q` (spec/45_synth.md R175). -/
def Config.sineRows3 : List Nat :=
  [15137, 15175, 15213, 15250, 15286, 15322, 15357, 15392, 15426, 15460, 15493, 15525, 15557, 15588, 15619, 15649,
   15679, 15707, 15736, 15763, 15791, 15817, 15843, 15868, 15893, 15917, 15941, 15964, 15986, 16008, 16029, 16049,
   16069, 16088, 16107, 16125, 16143, 16160, 16176, 16192, 16207, 16221, 16235, 16248, 16261, 16273, 16284, 16295,
   16305, 16315, 16324, 16332, 16340, 16347, 16353, 16359, 16364, 16369, 16373, 16376, 16379, 16381, 16383, 16384]
/-- The table `Q[0..256]`: the first quarter of the sine ROM and its end point
(spec/45_synth.md R175). -/
def Config.sineQuarter : List Nat :=
  Config.sineRows0 ++ Config.sineRows1 ++ Config.sineRows2 ++ Config.sineRows3 ++ [16384]

/-- The note-name table `NAMES` (spec/00_scope.md R6). -/
def Config.noteNames : List String :=
  ["La", "La#", "Si", "Do", "Do#", "Re", "Re#", "Mi", "Fa", "Fa#", "Sol", "Sol#"]

/-- The configuration record of spec/00_scope.md R6 and R7, with the spec's values as defaults. -/
structure Config.Params where
  /-- `K_NOISE`: the noise multiplier. -/
  kNoise : Nat := 3
  /-- `EMIT_MIN`: the smoother emits once more than `EMIT_MIN - 1` candidates are buffered. -/
  emitMin : Nat := 4
  /-- `CLAMP_DELTA_HZ`. -/
  clampDeltaHz : Nat := 100
  /-- `A4_HZ`. -/
  a4Hz : Nat := 440
  /-- `NOTE_BASE`. -/
  noteBase : Int := 49
  /-- `OCT_BASE`. -/
  octBase : Int := 8
  /-- `NAMES`. -/
  names : List String := Config.noteNames
  /-- `TONE_AMP`: peak amplitude of the synthesized sine, full scale being 1. -/
  toneAmp : Rat := 1 / 2
  /-- `DEF_FRAME_LEN`, the reset value of `FRAME_LEN`. -/
  defFrameLen : Nat := 1024
  /-- `DEF_RATE`, the reset value of `RATE` and `SYNTH_RATE`. -/
  defRate : Nat := 44100
  /-- `DEF_DURATION` in seconds: `DEF_RATE * DEF_DURATION` is the reset value of `SYNTH_COUNT`. -/
  defDuration : Nat := 1
  /-- `DEF_TICK` in milliseconds: the interval of the external scheduler. No rule reads it. -/
  defTickMs : Nat := 30
  /-- `NINST`: engine instances. -/
  ninst : Nat := 2
  /-- `BUS_W`: bits of a host transaction. -/
  busW : Nat := 32
  /-- `FRAC`: fractional bits of an FQ value (R10). -/
  frac : Nat := 12
  /-- `SAMPLE_W`: bits of a decoded sample. -/
  sampleW : Nat := 32
  /-- `RAW_CAP`, bytes. -/
  rawCap : Nat := 8192
  /-- `FRM_CAP`, samples; also `NMAX = 2 ^ LOGN_MAX`. -/
  frmCap : Nat := 1024
  /-- `LOGN_MAX`: the largest `log2` of a transform length. -/
  logNMax : Nat := 10
  /-- `SPEC_CAP`, entries of the spectrum memory. -/
  specCap : Nat := 513
  /-- `MAG_W`: bits of a magnitude. -/
  magW : Nat := 64
  /-- `CB_CAP`, candidates. -/
  cbCap : Nat := 1024
  /-- `ROM_L`: address bits of the sine ROM, `ROM_P = 2 ^ ROM_L` entries. -/
  romL : Nat := 10
  /-- `ROM_AMP`: amplitude of the sine ROM. -/
  romAmp : Nat := 16384
  /-- `ROM_W`: bits of a ROM entry. -/
  romW : Nat := 16
  /-- `TONE_CAP`, samples of the tone memory. -/
  toneCap : Nat := 65536
  /-- `TONE_W`: bits of a tone sample. -/
  toneW : Nat := 16
  /-- `PHASE_W`: width of the phase accumulator. -/
  phaseW : Nat := 32
  /-- `RESET_MIN_FREQ`, raw FQ; OPEN in the spec, here at its default (log 10). -/
  resetMinFreq : Word := 0
  /-- `RESET_MAX_FREQ`, raw FQ; OPEN in the spec, here at its default (log 10). -/
  resetMaxFreq : Word := 90316800
  /-- The first quarter of the sine ROM (spec/45_synth.md R175). -/
  sineQuarter : List Nat := Config.sineQuarter
  /-- The byte order of PCM samples in `RAW` (spec/20_memory.md R72). -/
  sampleByteOrder : ByteOrder := .little

/-- The configuration of this machine: every parameter at the spec's value. -/
def Config.params : Config.Params := {}

/-- FREE VALUE (log 3): the byte at an offset of an instance's memory that nothing has written, or
that lies beyond the valid length of its space (spec/10_state.md R34, spec/70_reset_and_hazards.md
R239). Arguments: the instance's number, the generation of the space's contents, the offset. It has
no body: nothing can be proved of its value. -/
opaque Config.unspecifiedByte : Nat → Nat → Nat → Byte

/-- FREE VALUE (log 4): the bits other than `BUSY` and `OVERRUN` that a host read of `STATUS`
returns while `BUSY = 1` (spec/70_reset_and_hazards.md R237). Argument: how many such reads came
before. It has no body. -/
opaque Config.busyStatusBits : Nat → Word

end Sys2Proof
end

