-- ==== Sys2Proof/Machine/Memory.lean ====
section
/-!
DEFINITION. The byte memory of one instance and the layout of its six data spaces
(spec/20_memory.md R70, R71, R75). Addresses are byte offsets from the instance base. A memory lists
the bytes whose values are known, addresses strictly rising; an offset that is not listed holds no
value here (its contents are unspecified, spec/10_state.md R34; log 3).
-/

namespace Sys2Proof.Machine

/-- The listed bytes of one instance's data spaces. -/
abbrev Memory := List Host.Cell

/-- The canonical form: addresses strictly rising. An unlisted offset reads as no value, so no entry
can equal what an unlisted one reads as. -/
abbrev Memory.wf (m : Memory) : Prop := m.Pairwise (fun c d => c.1 < d.1)

/-- The byte listed at an offset; what an unlisted offset reads as is `none`. -/
def Memory.get? : Memory → Nat → Option Byte
  | [], _ => none
  | (b, v) :: m, a => if a = b then some v else Memory.get? m a

/-- Consecutive cells from an offset. -/
def Memory.cellsFrom : Nat → List Byte → Memory
  | _, [] => []
  | a, v :: vs => (a, v) :: Memory.cellsFrom (a + 1) vs

/-- The one write operation: `vs` from `lo` on, and nothing listed any more from there to `hi`. -/
def Memory.replace (m : Memory) (lo hi : Nat) (vs : List Byte) : Memory :=
  m.filter (fun c => c.1 < lo) ++ Memory.cellsFrom lo vs ++
    m.filter (fun c => max hi (lo + vs.length) ≤ c.1)

/-- Store bytes and leave every other offset alone. -/
def Memory.store (m : Memory) (a : Nat) (vs : List Byte) : Memory :=
  Memory.replace m a (a + vs.length) vs

/-! ### Byte order -/

/-- The unsigned value of bytes, least significant first (spec/00_scope.md R11 `MemRead`). -/
def leNat : List Byte → Nat
  | [] => 0
  | b :: bs => b.toNat + 256 * leNat bs

/-- The low `n` bytes of a value, least significant first (R11 `MemWrite`). -/
def leBytes : Nat → Nat → List Byte
  | 0, _ => []
  | n + 1, v => BitVec.ofNat 8 v :: leBytes n (v / 256)

/-! ### The data spaces -/

/-- The six data spaces of an instance (spec/20_memory.md R70). -/
inductive Space
  | raw
  | frm
  | bin
  | mag
  | cb
  | tone
  deriving DecidableEq, Repr

/-- Offset of a space from the instance base (R75). -/
def Space.base : Space → Nat
  | .raw => 0x02000
  | .frm => 0x04000
  | .bin => 0x05000
  | .mag => 0x06000
  | .cb => 0x08000
  | .tone => 0x20000

/-- Bytes of an element (R71, with the widths of spec/00_scope.md R7; a frequency has 32 bits,
R10). -/
def Space.elemBytes : Space → Nat
  | .raw => 1
  | .frm => Config.params.sampleW / 8
  | .bin => 4
  | .mag => Config.params.magW / 8
  | .cb => 4
  | .tone => Config.params.toneW / 8

/-- Elements a space holds (R71, with the capacities of spec/00_scope.md R7): `BIN` and `MAG` use
`SPEC_CAP` elements of their windows. -/
def Space.count : Space → Nat
  | .raw => Config.params.rawCap
  | .frm => Config.params.frmCap
  | .bin => Config.params.specCap
  | .mag => Config.params.specCap
  | .cb => Config.params.cbCap
  | .tone => Config.params.toneCap

/-- The first offset after the elements of a space. -/
def Space.limit (sp : Space) : Nat := sp.base + sp.elemBytes * sp.count

/-- Does an offset lie in an element of the space? -/
def Space.holds (sp : Space) (off : Nat) : Bool := sp.base ≤ off && off < sp.limit

/-- The space an offset from the instance base lies in, if any (R75). -/
def spaceAt (off : Nat) : Option Space :=
  [Space.raw, .frm, .bin, .mag, .cb, .tone].find? (fun sp => sp.holds off)

end Sys2Proof.Machine
end

