-- ==== Sys2Proof/Machine/State.lean ====
section
/-!
DEFINITION. The state of the machine: everything spec/10_state.md R21 lists, twice (one per
instance), the model's own fields that hold the host's side, and the state after reset (R37).
-/

namespace Sys2Proof.Machine

/-- The two instances (spec/10_state.md R20): 0 "live" and 1 "file". -/
inductive InstanceId
  | live
  | file
  deriving DecidableEq, Repr

/-- The nine operand registers (spec/10_state.md R22); `FMT` has two fields. The bits outside a
field do not exist: they read 0 and ignore writes. -/
structure Operands where
  rawLen : BitVec 14
  fmtWidth : BitVec 4
  fmtChannels : BitVec 4
  frameLen : BitVec 16
  rate : BitVec 20
  reqMin : BitVec 31
  reqMax : BitVec 31
  freqArg : BitVec 32
  synthCount : BitVec 16
  synthRate : BitVec 20
  deriving DecidableEq, Repr

/-- The fields of `STATUS` (spec/10_state.md R25); the reserved bits read 0. -/
structure Status where
  busy : Bool
  overrun : Bool
  err : BitVec 4
  feValid : Bool
  emitted : Bool
  noteValid : Bool
  stage : BitVec 3
  deriving DecidableEq, Repr

/-- The model's own counters (log 3): the generation of the unspecified contents of each space.
`BIN` and `MAG` are written together and share one. -/
structure Epochs where
  raw : Nat
  frm : Nat
  spectrum : Nat
  cb : Nat
  tone : Nat
  deriving DecidableEq, Repr

/-- One instance (spec/10_state.md R21). -/
structure Engine where
  /-- `CMD` (R26); while `BUSY = 1` it is the command in flight (R36, log 13). -/
  cmd : Word
  /-- the operand registers (R22). -/
  operands : Operands
  /-- the hidden operand latches (R27). -/
  latched : Operands
  /-- `STATUS` (R25). -/
  status : Status
  /-- `NOISE_THR` (R29). -/
  noiseThr : Word
  /-- `MIN_FREQ`, FQ (R28). -/
  minFreq : Word
  /-- `MAX_FREQ`, FQ (R28). -/
  maxFreq : Word
  /-- `FE`, FQ (R30). -/
  fe : Word
  /-- `NOTE_RES` (R32). -/
  noteRes : Word
  /-- `FRM_LEN` (R33). -/
  frmLen : BitVec 11
  /-- `SPEC_LEN` (R33). -/
  specLen : BitVec 10
  /-- `CB_LEN` (R33, R31). -/
  cbLen : BitVec 11
  /-- `TONE_LEN` (R33). -/
  toneLen : BitVec 16
  /-- the data spaces `RAW`, `FRM`, `BIN`, `MAG`, `CB`, `TONE` (R34, spec/20_memory.md R71). -/
  mem : Memory
  /-- the model's own: see `Epochs`. -/
  epochs : Epochs
  deriving DecidableEq, Repr

/-- What can happen next at the engine's host interface (spec/00_scope.md R13, log 1). -/
inductive Event
  /-- A host read of `width` bits at a byte address of the flat map (spec/20_memory.md R73, R75). -/
  | read (width : Nat) (addr : BitVec 20)
  /-- A host write of `width` bits at a byte address of the flat map. -/
  | write (width : Nat) (addr : BitVec 20) (data : Word)
  /-- Hardware reset; `lost` is a host write that coincides with it, if any (spec/70_reset_and_hazards.md R230, R232). -/
  | hardReset (lost : Option (BitVec 20 × Word))
  /-- The command in flight on an instance completes (spec/10_state.md R26). -/
  | complete (k : InstanceId)
  deriving DecidableEq, Repr

/-- The whole machine: both instances and the model's own fields for the host's side. -/
structure State where
  /-- instance 0. -/
  live : Engine
  /-- instance 1. -/
  file : Engine
  /-- the model's own: the instance whose command `exec` completes (log 1). -/
  active : InstanceId
  /-- the model's own: the word the last host read returned (log 9). -/
  readData : Word
  /-- the model's own: how many `STATUS` reads were made during `BUSY` (log 4). -/
  freeReads : Nat
  /-- the model's own: the events still to happen, in order (log 1). -/
  schedule : List Event
  deriving DecidableEq, Repr

/-- Why the machine stops with a fault: the two races of spec/70_reset_and_hazards.md R243 (4). Both
are safe: the hardware goes on with values the spec makes no claim about (log 6). -/
inductive Fault
  /-- Raised by a host write to `RAW[s]` while a DECODE or TICK of instance `s` is in flight
  (R238). Safe. -/
  | rawWriteRace
  /-- Raised by a host write to an operand register or `NOISE_THR` while an INIT of that instance
  is in flight (R237). Safe. -/
  | initWriteRace
  deriving DecidableEq, Repr

/-- Why the model gives no meaning. -/
inductive Refusal
  /-- Raised by an arm of `exec` whose instruction has no meaning yet. Safe. -/
  | notModelled (mnemonic : String)
  /-- Raised by a host access that is not an aligned 32-bit one, to which the spec gives no meaning
  (spec/20_memory.md R73, log 7). Safe. -/
  | notAlignedWordAccess
  /-- Raised by a host read, while `BUSY[s] = 1`, of a register other than `STATUS[s]` or of a data
  space of instance `s` (spec/70_reset_and_hazards.md R237, log 5). Safe. -/
  | readWhileBusy
  deriving DecidableEq, Repr

/-! ### Reset (spec/10_state.md R37) -/

/-- The operand registers of `ResetState`. -/
def Operands.reset : Operands :=
  { rawLen := 0, fmtWidth := 0, fmtChannels := 0
    frameLen := BitVec.ofNat 16 Config.params.defFrameLen
    rate := BitVec.ofNat 20 Config.params.defRate
    reqMin := 0, reqMax := 0, freqArg := 0
    synthCount := BitVec.ofNat 16 (Config.params.defRate * Config.params.defDuration)
    synthRate := BitVec.ofNat 20 Config.params.defRate }

/-- The operand latches after reset: unspecified in the spec, never read before the first
acceptance; here zero (DESIGN CHOICE, log 8). -/
def Operands.zero : Operands :=
  { rawLen := 0, fmtWidth := 0, fmtChannels := 0, frameLen := 0, rate := 0, reqMin := 0
    reqMax := 0, freqArg := 0, synthCount := 0, synthRate := 0 }

/-- `STATUS = 0` (all fields). -/
def Status.reset : Status :=
  { busy := false, overrun := false, err := 0, feValid := false, emitted := false
    noteValid := false, stage := 0 }

/-- `ResetState` of an instance with `CMD = 0`; the memories list nothing, so every byte of them is
unspecified, in the generations `ep`. -/
def Engine.resetIn (ep : Epochs) : Engine :=
  { cmd := 0, operands := Operands.reset, latched := Operands.zero, status := Status.reset
    noiseThr := 0, minFreq := Config.params.resetMinFreq, maxFreq := Config.params.resetMaxFreq
    fe := 0, noteRes := 0, frmLen := 0, specLen := 0, cbLen := 0, toneLen := 0
    mem := [], epochs := ep }

/-- The generations before anything has happened (DESIGN CHOICE, log 3). -/
def Epochs.first : Epochs := { raw := 0, frm := 0, spectrum := 0, cb := 0, tone := 0 }

/-- The machine right after hardware reset: both instances in `ResetState` (spec/70_reset_and_hazards.md
R230, R231) and no event to come. -/
def State.reset : State :=
  { live := Engine.resetIn Epochs.first, file := Engine.resetIn Epochs.first
    active := .live, readData := 0, freeReads := 0, schedule := [] }

end Sys2Proof.Machine
end

