-- ==== Sys2Proof/Machine/Flags.lean ====
section
/-!
DEFINITION. The error kinds and the `STATUS` register: its word, and what acceptance, completion and
a dropped command do to it (spec/10_state.md R25, R26, spec/60_exceptions.md R201, R202).
-/

namespace Sys2Proof.Machine

/-- The error kinds (spec/60_exceptions.md R202); `Ok` (code 0) is the absence of one. -/
inductive ErrorKind
  | decodeError
  | invalidInput
  | noFundamentalError
  | rejectedClamp
  | illegalCommand
  | unsupportedLength
  | capacityError
  deriving DecidableEq, Repr

/-- The codes of R202. -/
def ErrorKind.code : ErrorKind → BitVec 4
  | .decodeError => 1
  | .invalidInput => 2
  | .noFundamentalError => 3
  | .rejectedClamp => 4
  | .illegalCommand => 5
  | .unsupportedLength => 6
  | .capacityError => 7

/-- The word a host read of `STATUS` returns while idle (R25): `STAGE` [14:12], `NOTE_VALID` [10],
`EMITTED` [9], `FE_VALID` [8], `ERR` [7:4], `OVERRUN` [1], `BUSY` [0]; the rest reads 0. -/
def Status.word (st : Status) : Word :=
  (0 : BitVec 17) ++ st.stage ++ (0 : BitVec 1) ++ BitVec.ofBool st.noteValid ++
    BitVec.ofBool st.emitted ++ BitVec.ofBool st.feValid ++ st.err ++ (0 : BitVec 2) ++
    BitVec.ofBool st.overrun ++ BitVec.ofBool st.busy

/-- The word a host read of `STATUS` returns while `BUSY = 1`: `BUSY = 1` and the true `OVERRUN`;
every other bit comes from `free` (spec/70_reset_and_hazards.md R237). -/
def Status.busyWord (st : Status) (free : Word) : Word :=
  free.extractLsb' 2 30 ++ BitVec.ofBool st.overrun ++ BitVec.ofBool true

/-- Completion of a command with error code `err` (0 is Ok): `ERR`, `STAGE`, `EMITTED` are
overwritten and `BUSY` falls; `OVERRUN`, `FE_VALID`, `NOTE_VALID` keep the command's own effects
(R25, spec/60_exceptions.md R201). -/
def Status.completed (st : Status) (err : BitVec 4) (stage : BitVec 3) (emitted : Bool) : Status :=
  { st with busy := false, err := err, stage := stage, emitted := emitted }

/-- Acceptance of a command: only `BUSY` changes (spec/10_state.md R26). -/
def Status.accepted (st : Status) : Status := { st with busy := true }

/-- A `CMD` write dropped because the instance is busy (R26). -/
def Status.overran (st : Status) : Status := { st with overrun := true }

end Sys2Proof.Machine
end

