-- ==== Sys2Proof/Machine/Ops.lean ====
section
/-!
DEFINITION. The named operations over instances, memories and completion: the instance accessors,
`MemRead` and `MemWrite` over the data spaces (spec/00_scope.md R11), the free values of unspecified
bytes, and `raise` and `done` (spec/60_exceptions.md R201), the one shared operation by which the
engine takes its only kind of exception. There is no return from one (R206).
-/

namespace Sys2Proof.Machine

/-- The number of an instance (spec/10_state.md R20). -/
def InstanceId.number : InstanceId → Nat
  | .live => 0
  | .file => 1

/-- The other instance. -/
def InstanceId.other : InstanceId → InstanceId
  | .live => .file
  | .file => .live

/-- The state of instance `k`. -/
def State.engine (s : State) : InstanceId → Engine
  | .live => s.live
  | .file => s.file

/-- Replace the state of instance `k` and nothing else. -/
def State.setEngine (s : State) (k : InstanceId) (e : Engine) : State :=
  match k with
  | .live => { s with live := e }
  | .file => { s with file := e }

/-! ### Memory of an instance -/

/-- The generation of a space's unspecified contents (log 3). -/
def Epochs.at (ep : Epochs) : Space → Nat
  | .raw => ep.raw
  | .frm => ep.frm
  | .bin => ep.spectrum
  | .mag => ep.spectrum
  | .cb => ep.cb
  | .tone => ep.tone

/-- The contents of a space become unspecified where nothing is written: a new generation. -/
def Epochs.bump (ep : Epochs) : Space → Epochs
  | .raw => { ep with raw := ep.raw + 1 }
  | .frm => { ep with frm := ep.frm + 1 }
  | .bin => { ep with spectrum := ep.spectrum + 1 }
  | .mag => { ep with spectrum := ep.spectrum + 1 }
  | .cb => { ep with cb := ep.cb + 1 }
  | .tone => { ep with tone := ep.tone + 1 }

/-- Every space's contents become unspecified (reset, INIT; spec/10_state.md R37). -/
def Epochs.bumpAll (ep : Epochs) : Epochs :=
  { raw := ep.raw + 1, frm := ep.frm + 1, spectrum := ep.spectrum + 1
    cb := ep.cb + 1, tone := ep.tone + 1 }

/-- The generation that governs an offset. -/
def Epochs.atOffset (ep : Epochs) (off : Nat) : Nat :=
  match spaceAt off with
  | some sp => ep.at sp
  | none => 0

/-- The byte at an offset of instance `k`'s memory: the listed one, else the free value of
spec/10_state.md R34 (log 3). -/
def Engine.byteAt (k : InstanceId) (e : Engine) (off : Nat) : Byte :=
  (e.mem.get? off).getD (Config.unspecifiedByte k.number (e.epochs.atOffset off) off)

/-- `MemRead`: `n` bytes from an offset, little-endian, unsigned (spec/00_scope.md R11). -/
def Engine.readNat (k : InstanceId) (e : Engine) (off n : Nat) : Nat :=
  leNat ((List.range n).map (fun j => e.byteAt k (off + j)))

/-- Element `i` of a space as its unsigned bit pattern (spec/20_memory.md R71). -/
def Engine.elem (k : InstanceId) (e : Engine) (sp : Space) (i : Nat) : Nat :=
  e.readNat k (sp.base + sp.elemBytes * i) sp.elemBytes

/-- `FRM[s][i]`, a signed `SAMPLE_W`-bit sample. -/
def Engine.sample (k : InstanceId) (e : Engine) (i : Nat) : Int :=
  (BitVec.ofNat Config.params.sampleW (e.elem k .frm i)).toInt

/-- `BIN[s][i]`, an FQ value. -/
def Engine.binFreq (k : InstanceId) (e : Engine) (i : Nat) : Int :=
  (BitVec.ofNat 32 (e.elem k .bin i)).toInt

/-- `MAG[s][i]`, unsigned, `MAG_W` bits. -/
def Engine.magnitude (k : InstanceId) (e : Engine) (i : Nat) : Nat := e.elem k .mag i

/-- `CB[s][i]`, an FQ value. -/
def Engine.candidate (k : InstanceId) (e : Engine) (i : Nat) : Int :=
  (BitVec.ofNat 32 (e.elem k .cb i)).toInt

/-- `TONE[s][n]`, signed Q1.15 of `TONE_W` bits. -/
def Engine.toneSample (k : InstanceId) (e : Engine) (n : Nat) : Int :=
  (BitVec.ofNat Config.params.toneW (e.elem k .tone n)).toInt

/-- The bytes of elements, each by its `N`-bit pattern (spec/00_scope.md R9: `x mod 2^N` of a signed
value). -/
def Space.bytesOf (sp : Space) (vals : List Int) : List Byte :=
  vals.flatMap (fun v => leBytes sp.elemBytes (v % 256 ^ sp.elemBytes).toNat)

/-- Write elements `0, 1, ...` of a space; every later element becomes unspecified
(spec/10_state.md R34; the commits of R124, R135, R172). -/
def Engine.fill (e : Engine) (sp : Space) (vals : List Int) : Engine :=
  { e with
    mem := e.mem.replace sp.base sp.limit (sp.bytesOf vals)
    epochs := e.epochs.bump sp }

/-- Write elements from index `i` on and nothing else (the append of spec/20_memory.md R71). -/
def Engine.writeFrom (e : Engine) (sp : Space) (i : Nat) (vals : List Int) : Engine :=
  { e with mem := e.mem.store (sp.base + sp.elemBytes * i) (sp.bytesOf vals) }

/-- The elements of the Candidate Buffer `CB[s]` in order (spec/10_state.md R31). -/
def Engine.candidates (k : InstanceId) (e : Engine) : List Int :=
  (List.range e.cbLen.toNat).map (e.candidate k)

/-- The whole instance to `ResetState` (spec/10_state.md R37): what hardware reset and INIT share. -/
def Engine.toReset (e : Engine) : Engine := Engine.resetIn e.epochs.bumpAll

/-! ### Completion: `done` and `raise` (spec/60_exceptions.md R201) -/

/-- `done`: the command completes with `ERR = 0`, `STAGE = 0`. -/
def Engine.done (e : Engine) (emitted : Bool) : Engine :=
  { e with status := e.status.completed 0 0 emitted }

/-- `raise E`, taking the engine's only kind of exception: the writes already made to `e` are
committed, `ERR`, `STAGE` and `EMITTED` report, `BUSY` falls, nothing else is written. `stage` is the
TICK stage that raised, 0 outside TICK. -/
def Engine.raise (e : Engine) (kind : ErrorKind) (stage : BitVec 3) (emitted : Bool) : Engine :=
  { e with status := e.status.completed kind.code stage emitted }

/-- How one operation of the data flow ends: done, or an error raised with the writes listed as
performed before or with the raise. -/
inductive StageEnd
  | done (e : Engine)
  | raised (kind : ErrorKind) (e : Engine)
  deriving DecidableEq, Repr

/-- Completion of a stand-alone command that emits nothing: `STAGE = 0`, `EMITTED = 0`
(spec/30_encoding.md R109). -/
def StageEnd.complete : StageEnd → Engine
  | .done e => e.done false
  | .raised kind e => e.raise kind 0 false

/-- A command's completion on the active instance; no other state changes (spec/10_state.md R20,
R26). -/
def State.completeActive (s : State) (f : InstanceId → Engine → Engine) :
    Host.Outcome State Fault Refusal :=
  .next (s.setEngine s.active (f s.active (s.engine s.active)))

/-- Acceptance of a command word: `CMD` takes it, the operands are latched, `BUSY` rises
(spec/10_state.md R26, R27). -/
def Engine.accept (e : Engine) (w : Word) : Engine :=
  { e with cmd := w, latched := e.operands, status := e.status.accepted }

end Sys2Proof.Machine
end

