-- ==== Sys2Proof/Machine/Operands.lean ====
section
/-!
DEFINITION. The operand forms: the latched operand registers as the numbers the command rules use
(spec/10_state.md R23, R27, spec/30_encoding.md R104), the two sources of a frequency (R103), and
what a host write stores in an operand register and a host read returns (R22, R23).
-/

namespace Sys2Proof.Machine

/-! ### What commands read (always the latches, R27) -/

/-- `L`, bytes of raw data (zext). -/
def Engine.rawLenOp (e : Engine) : Nat := e.latched.rawLen.toNat

/-- `W`, bytes per sample (zext). -/
def Engine.widthOp (e : Engine) : Nat := e.latched.fmtWidth.toNat

/-- `C`, channels (zext). -/
def Engine.channelsOp (e : Engine) : Nat := e.latched.fmtChannels.toNat

/-- `F`, expected samples per channel (zext). -/
def Engine.frameLenOp (e : Engine) : Nat := e.latched.frameLen.toNat

/-- `R`, sample rate of the frame in Hz (zext). -/
def Engine.rateOp (e : Engine) : Nat := e.latched.rate.toNat

/-- `a`, the requested minimum (`sext_31`). -/
def Engine.reqMinOp (e : Engine) : Int := e.latched.reqMin.toInt

/-- `b`, the requested maximum (`sext_31`). -/
def Engine.reqMaxOp (e : Engine) : Int := e.latched.reqMax.toInt

/-- `CNT`, tone samples (zext). -/
def Engine.synthCountOp (e : Engine) : Nat := e.latched.synthCount.toNat

/-- `Rs`, playback rate in Hz (zext). -/
def Engine.synthRateOp (e : Engine) : Nat := e.latched.synthRate.toNat

/-- Suffix `.F`: the explicit frequency (`sext_32`), always present (R103). -/
def Engine.freqArgOp (e : Engine) : Int := e.latched.freqArg.toInt

/-- Suffix `.E`: the Fundamental Estimate, absent while `FE_VALID = 0` (R103, spec/10_state.md
R30). -/
def Engine.estimate (e : Engine) : Option Int :=
  if e.status.feValid then some e.fe.toInt else none

/-! ### What the host writes and reads -/

/-- The operand registers by name (R22). -/
inductive OperandReg
  | rawLen
  | fmt
  | frameLen
  | rate
  | reqMin
  | reqMax
  | freqArg
  | synthCount
  | synthRate
  deriving DecidableEq, Repr

/-- A host write stores the field bits of the word and drops the others (R23). -/
def Operands.write (o : Operands) (r : OperandReg) (w : Word) : Operands :=
  match r with
  | .rawLen => { o with rawLen := w.extractLsb' 0 14 }
  | .fmt => { o with fmtWidth := w.extractLsb' 0 4, fmtChannels := w.extractLsb' 4 4 }
  | .frameLen => { o with frameLen := w.extractLsb' 0 16 }
  | .rate => { o with rate := w.extractLsb' 0 20 }
  | .reqMin => { o with reqMin := w.extractLsb' 0 31 }
  | .reqMax => { o with reqMax := w.extractLsb' 0 31 }
  | .freqArg => { o with freqArg := w }
  | .synthCount => { o with synthCount := w.extractLsb' 0 16 }
  | .synthRate => { o with synthRate := w.extractLsb' 0 20 }

/-- A host read returns the field zero-extended, `REQ_MIN` and `REQ_MAX` sign-extended from bit 30,
`FREQ_ARG` whole (R23). -/
def Operands.read (o : Operands) (r : OperandReg) : Word :=
  match r with
  | .rawLen => o.rawLen.setWidth 32
  | .fmt => (o.fmtChannels ++ o.fmtWidth).setWidth 32
  | .frameLen => o.frameLen.setWidth 32
  | .rate => o.rate.setWidth 32
  | .reqMin => o.reqMin.signExtend 32
  | .reqMax => o.reqMax.signExtend 32
  | .freqArg => o.freqArg
  | .synthCount => o.synthCount.setWidth 32
  | .synthRate => o.synthRate.setWidth 32

end Sys2Proof.Machine
end

