-- ==== Sys2Proof/Machine/Rom.lean ====
section
/-!
DEFINITION. The sine ROM (spec/45_synth.md R175, R176, spec/10_state.md R35), read by TRANSFORM, by
SYNTH and by the host.
-/

namespace Sys2Proof.Machine

/-- The table `Q`, `0 ≤ i ≤ 256` (R175). -/
def quarterSine (i : Nat) : Int := (Config.params.sineQuarter.getD i 0 : Nat)

/-- `ROM[i]` for `i < 512` (R176). -/
def halfSine (i : Nat) : Int := if i ≤ 256 then quarterSine i else quarterSine (512 - i)

/-- `ROM[i mod 1024]` (R176). -/
def rom (i : Nat) : Int :=
  let j := i % 2 ^ Config.params.romL
  if j < 512 then halfSine j else - halfSine (j - 512)

/-- `SIN(i)` (spec/00_scope.md R11). -/
def romSin (i : Nat) : Int := rom i

/-- `COS(i)` (R11). -/
def romCos (i : Nat) : Int := rom (i + 256)

/-- An entry of the ROM as `ROM_W` bits (spec/00_scope.md R7). -/
def romEntry (i : Nat) : BitVec Config.params.romW := BitVec.ofInt _ (rom i)

/-- The 32-bit word of the ROM at byte offset `off`: `ROM[off/2 + 1]` above `ROM[off/2]`
(spec/20_memory.md R72 (c)). -/
def romWord (off : Nat) : Word := romEntry (off / 2 + 1) ++ romEntry (off / 2)

end Sys2Proof.Machine
end

