-- ==== Sys2Proof/Machine/Bus.lean ====
section
/-!
DEFINITION. The host interface: the register map (spec/10_state.md R38), the flat address map
(spec/20_memory.md R75, R76), host reads and writes with the hazards of
spec/70_reset_and_hazards.md R236 to R238, and hardware reset (R230, R232).
-/

namespace Sys2Proof.Machine

/-- The registers of an instance (spec/10_state.md R38). -/
inductive Reg
  | cmd
  | status
  | operand (r : OperandReg)
  | noiseThr
  | minFreq
  | maxFreq
  | fe
  | noteRes
  | frmLen
  | specLen
  | cbLen
  | toneLen
  deriving DecidableEq, Repr

/-- The register at an offset from the instance base (R38); the rest of the register space is
reserved. -/
def regAt (off : Nat) : Option Reg :=
  match off with
  | 0x00 => some .cmd
  | 0x04 => some .status
  | 0x08 => some (.operand .rawLen)
  | 0x0C => some (.operand .fmt)
  | 0x10 => some (.operand .frameLen)
  | 0x14 => some (.operand .rate)
  | 0x18 => some (.operand .reqMin)
  | 0x1C => some (.operand .reqMax)
  | 0x20 => some (.operand .freqArg)
  | 0x24 => some (.operand .synthCount)
  | 0x28 => some (.operand .synthRate)
  | 0x2C => some .noiseThr
  | 0x30 => some .minFreq
  | 0x34 => some .maxFreq
  | 0x38 => some .fe
  | 0x3C => some .noteRes
  | 0x40 => some .frmLen
  | 0x44 => some .specLen
  | 0x48 => some .cbLen
  | 0x4C => some .toneLen
  | _ => none

/-- What an aligned address of the flat map selects (spec/20_memory.md R75). -/
inductive Location
  /-- A register of an instance. -/
  | register (k : InstanceId) (r : Reg)
  /-- Four bytes of a data space, at an offset from the instance base. -/
  | data (k : InstanceId) (sp : Space) (off : Nat)
  /-- Four bytes of the sine ROM. -/
  | romData (off : Nat)
  /-- Unmapped, reserved, or the unused tail of a window (R76). -/
  | nothing
  deriving DecidableEq, Repr

/-- The instance a flat address below 0x80000 belongs to (R75). -/
def instanceAt (addr : Nat) : InstanceId := if addr < 0x40000 then .live else .file

/-- The flat address map (R75, R38). -/
def locate (addr : Nat) : Location :=
  if addr < 0x80000 then
    match regAt (addr % 0x40000), spaceAt (addr % 0x40000) with
    | some r, _ => .register (instanceAt addr) r
    | none, some sp => .data (instanceAt addr) sp (addr % 0x40000)
    | none, none => .nothing
  else if addr < 0x80800 then .romData (addr - 0x80000)
  else .nothing

/-- The word a host read of a register returns while the instance is idle (spec/10_state.md R22 to
R33). -/
def Engine.readReg (e : Engine) (r : Reg) : Word :=
  match r with
  | .cmd => e.cmd
  | .status => e.status.word
  | .operand o => e.operands.read o
  | .noiseThr => e.noiseThr
  | .minFreq => e.minFreq
  | .maxFreq => e.maxFreq
  | .fe => e.fe
  | .noteRes => e.noteRes
  | .frmLen => e.frmLen.setWidth 32
  | .specLen => e.specLen.setWidth 32
  | .cbLen => e.cbLen.setWidth 32
  | .toneLen => e.toneLen.setWidth 32

/-- The command in flight: the accepted word of a busy instance, if it is a legal one. -/
def Engine.inFlight (e : Engine) : Option Instr :=
  if e.status.busy then
    match decodeWord e.cmd with
    | .ok i => some i
    | .error _ => none
  else none

/-- An access the architected interface has: `BUS_W` bits at a multiple of its bytes, 32 bits at a
multiple of 4 (spec/20_memory.md R73). -/
def alignedWordAccess (width : Nat) (addr : BitVec 20) : Bool :=
  width == Config.params.busW && addr.toNat % (Config.params.busW / 8) == 0

/-- A host read returns a word and changes nothing else (spec/20_memory.md R74). -/
def State.returning (s : State) (w : Word) : Host.Outcome State Fault Refusal :=
  .next { s with readData := w }

/-- A host read (R72 (c), R75, R76; during `BUSY`: spec/70_reset_and_hazards.md R237). -/
def hostRead (width : Nat) (addr : BitVec 20) (s : State) : Host.Outcome State Fault Refusal :=
  if !alignedWordAccess width addr then .refused .notAlignedWordAccess
  else
    match locate addr.toNat with
    | .nothing => s.returning 0
    | .romData off => s.returning (romWord off)
    | .register k .status =>
      let st := (s.engine k).status
      if st.busy then
        { s with freeReads := s.freeReads + 1 }.returning
          (st.busyWord (Config.busyStatusBits s.freeReads))
      else s.returning st.word
    | .register k r =>
      if (s.engine k).status.busy then .refused .readWhileBusy
      else s.returning ((s.engine k).readReg r)
    | .data k _ off =>
      if (s.engine k).status.busy then .refused .readWhileBusy
      else s.returning (BitVec.ofNat 32 ((s.engine k).readNat k off (Config.params.busW / 8)))

/-- A host write to `CMD`: accepted when idle, else dropped with `OVERRUN` (spec/10_state.md
R26). -/
def Engine.writeCmd (e : Engine) (w : Word) : Engine :=
  if e.status.busy then { e with status := e.status.overran } else e.accept w

/-- Store a host word in the bytes of `RAW` (spec/20_memory.md R72 (c)). -/
def Engine.writeRaw (e : Engine) (off : Nat) (w : Word) : Engine :=
  { e with mem := e.mem.store off (bytesOfWord w) }

/-- A host write (R72 (c), R75, R76; the races of spec/70_reset_and_hazards.md R237, R238, logs 6 and
17). -/
def hostWrite (width : Nat) (addr : BitVec 20) (w : Word) (s : State) :
    Host.Outcome State Fault Refusal :=
  if !alignedWordAccess width addr then .refused .notAlignedWordAccess
  else
    match locate addr.toNat with
    | .register k .cmd => .next (s.setEngine k ((s.engine k).writeCmd w))
    | .register k (.operand r) =>
      let e := s.engine k
      if e.inFlight = some .init then .fault .initWriteRace
      else .next (s.setEngine k { e with operands := e.operands.write r w })
    | .register k .noiseThr =>
      let e := s.engine k
      if e.inFlight = some .init then .fault .initWriteRace
      else .next (s.setEngine k { e with noiseThr := w })
    | .data k .raw off =>
      let e := s.engine k
      if e.inFlight = some .decode ∨ e.inFlight = some .tick then .fault .rawWriteRace
      else .next (s.setEngine k (e.writeRaw off w))
    | _ => .next s

/-- Hardware reset: both instances to `ResetState` with `CMD = 0`, a command in flight abandoned, a
coinciding host write lost (spec/70_reset_and_hazards.md R230, R232). -/
def hardwareReset (s : State) : State :=
  { s with live := s.live.toReset, file := s.file.toReset }

/-- The next event and the state that remains: the head of the schedule; when nothing is scheduled, a
command in flight completes (spec/70_reset_and_hazards.md R242, log 2), and an idle machine waits
(R233). -/
def State.nextEvent (s : State) : Option Event × State :=
  match s.schedule with
  | ev :: rest => (some ev, { s with schedule := rest })
  | [] =>
    if s.live.status.busy then (some (.complete .live), s)
    else if s.file.status.busy then (some (.complete .file), s)
    else (none, s)

/-- The instruction of the command word an instance has accepted (spec/30_encoding.md R109). -/
def State.fetch (s : State) (k : InstanceId) : Except IllegalWord Instr :=
  decodeWord (s.engine k).cmd

end Sys2Proof.Machine
end

