-- ==== Sys2Proof/Machine/Band.lean ====
section
/-!
DEFINITION. Configuration: SETBAND.MIN, SETBAND.MAX and INIT (spec/46_config.md), and the completion
of an illegal command word (spec/30_encoding.md R105).
-/

namespace Sys2Proof.Machine

/-- `CLAMP_DELTA = HZ(100)`, raw FQ (spec/00_scope.md R10). -/
def clampDelta : Int := Config.params.clampDeltaHz * 2 ^ Config.params.frac

/-- Write the band. -/
def Engine.withBand (e : Engine) (lo hi : Int) : Engine :=
  { e with minFreq := BitVec.ofInt 32 lo, maxFreq := BitVec.ofInt 32 hi }

/-- The requested band if it keeps `min < max` (R181); else the band of `clamp`, applied and
reported as `RejectedClamp` (R182). -/
def Engine.setBand (e : Engine) (clamp : Int → Int → Int × Int) : StageEnd :=
  let a := e.reqMinOp
  let b := e.reqMaxOp
  if a < b then .done (e.withBand a b)
  else .raised .rejectedClamp (e.withBand (clamp a b).1 (clamp a b).2)

/-- SETBAND.MIN: the minimum is clamped to the maximum less 100 Hz (R182). -/
def execSetbandMin (s : State) : Host.Outcome State Fault Refusal :=
  s.completeActive (fun _ e => (e.setBand (fun _ b => (b - clampDelta, b))).complete)

/-- SETBAND.MAX: the maximum is clamped to the minimum plus 100 Hz (R182). -/
def execSetbandMax (s : State) : Host.Outcome State Fault Refusal :=
  s.completeActive (fun _ e => (e.setBand (fun a _ => (a, a + clampDelta))).complete)

/-- INIT (R184): `ResetState` except that `CMD` holds the INIT word; the contents of `RAW` go with the
rest (log 14). -/
def execInit (s : State) : Host.Outcome State Fault Refusal :=
  s.completeActive (fun _ e => { e.toReset with cmd := encode .init }.done false)

/-- An accepted illegal word completes with `IllegalCommand` and no other change of state
(spec/30_encoding.md R105). -/
def execIllegal (s : State) : Host.Outcome State Fault Refusal :=
  s.completeActive (fun _ e => e.raise .illegalCommand 0 false)

end Sys2Proof.Machine
end

