-- ==== Sys2Proof/Machine/Synth.lean ====
section
/-!
DEFINITION. The Tone Synthesizer: SYNTH.E and SYNTH.F (spec/45_synth.md).
-/

namespace Sys2Proof.Machine

/-- The 32-bit tuning word for frequency `f` (raw FQ, any sign) at rate `Rs > 0` (R172): `div` is
floor, the divisor being positive. -/
def tuningWord (f : Int) (Rs : Nat) : Nat :=
  ((f * 2 ^ Config.params.phaseW) / ((2 ^ Config.params.frac * Rs : Nat) : Int) %
    2 ^ Config.params.phaseW).toNat

/-- Tone sample `n` for a tuning word: the top ten phase bits index the ROM (R172). -/
def toneValue (ftw n : Nat) : Int :=
  rom ((n * ftw % 2 ^ Config.params.phaseW) / 2 ^ (Config.params.phaseW - Config.params.romL))

/-- The synthesis of a present or absent frequency (R171, R172): the checks in the order of R171,
before anything is written. -/
def Engine.synthesize (e : Engine) (f : Option Int) : StageEnd :=
  match f with
  | none => .raised .noFundamentalError e
  | some f =>
    let Rs := e.synthRateOp
    let cnt := e.synthCountOp
    if Rs = 0 then .raised .invalidInput e
    else
      .done { e.fill .tone ((List.range cnt).map (toneValue (tuningWord f Rs))) with
        toneLen := BitVec.ofNat 16 cnt }

/-- SYNTH.E (R170): the estimate, possibly absent. -/
def execSynthE (s : State) : Host.Outcome State Fault Refusal :=
  s.completeActive (fun _ e => (e.synthesize e.estimate).complete)

/-- SYNTH.F (R170): the frequency of `FREQ_ARG`. -/
def execSynthF (s : State) : Host.Outcome State Fault Refusal :=
  s.completeActive (fun _ e => (e.synthesize (some e.freqArgOp)).complete)

end Sys2Proof.Machine
end

