-- ==== Sys2Proof/Machine/Frame.lean ====
section
/-!
DEFINITION. The Frame Decoder: DECODE (spec/40_decode.md).
-/

namespace Sys2Proof.Machine

/-- The checks of R121 all pass, for `L` bytes, width `W`, `C` channels, `F` samples per channel
("exact multiple" as in R122; `L mod 0 = L`). -/
def decodable (L W C F : Nat) : Bool :=
  (1 ≤ W && W ≤ 4) && (C == 1 || C == 2) && L ≤ Config.params.rawCap &&
    L % (W * C * F) == 0 && L / (W * C) ≤ Config.params.frmCap

/-- Bytes of one sample in the order least significant first (spec/20_memory.md R72 (a)). -/
def sampleBytes (bs : List Byte) : List Byte :=
  match Config.params.sampleByteOrder with
  | .little => bs
  | .big => bs.reverse

/-- Sample `i` of channel 0: `W` bytes at offset `i * C * W` of `RAW`, sign-extended (R123). -/
def Engine.rawSample (k : InstanceId) (e : Engine) (W C i : Nat) : Int :=
  let bs := (List.range W).map (fun j => e.byteAt k (Space.raw.base + i * C * W + j))
  (BitVec.ofNat (8 * W) (leNat (sampleBytes bs))).toInt

/-- The decode operation (R121 to R124): every check before anything is written. -/
def Engine.decodeStage (k : InstanceId) (e : Engine) : StageEnd :=
  let L := e.rawLenOp
  let W := e.widthOp
  let C := e.channelsOp
  if decodable L W C e.frameLenOp then
    let n := L / (W * C)
    .done { e.fill .frm ((List.range n).map (e.rawSample k W C)) with frmLen := BitVec.ofNat 11 n }
  else .raised .decodeError e

/-- DECODE (R120 to R125). -/
def execDecode (s : State) : Host.Outcome State Fault Refusal :=
  s.completeActive (fun k e => (e.decodeStage k).complete)

end Sys2Proof.Machine
end

