-- ==== Sys2Proof/Machine/Note.lean ====
section
/-!
DEFINITION. The Note Quantizer: NOTE.E and NOTE.F (spec/44_note.md).
-/

namespace Sys2Proof.Machine

/-- `B = A4_HZ * 4096`, the raw reference pitch (R161). -/
def refRaw : Nat := Config.params.a4Hz * 2 ^ Config.params.frac

/-- `2^x * b ≤ a` for an integer exponent: a negative one multiplies the other side (R161). -/
def scaledLe (x : Int) (b a : Nat) : Bool :=
  if 0 ≤ x then 2 ^ x.toNat * b ≤ a else b ≤ 2 ^ (-x).toNat * a

/-- The lower bound of R161 holds for `n`: `2^(2n-99) * B^24 ≤ f^24`, where `2n - 99` is
`2 * (n - NOTE_BASE) - 1`. -/
def reachesNote (f : Nat) (n : Int) : Bool :=
  scaledLe (2 * (n - Config.params.noteBase) - 1) (refRaw ^ 24) (f ^ 24)

/-- The note numbers of the input range, highest first: -200 to 172 (R162, R242, log
19). -/
def noteNumbers : List Int := (List.range 373).map (fun j : Nat => 172 - (j : Int))

/-- The note number of `f > 0` (R161): the largest `n` whose lower bound `f` reaches. -/
def noteNumber (f : Nat) : Int := (noteNumbers.find? (reachesNote f)).getD (-200)

/-- `note_index` (R162): floor-mod, so a valid table index for every `n`. -/
def noteIndex (n : Int) : Int := (n - 1) % 12

/-- `octave` (R162): floor division. -/
def noteOctave (n : Int) : Int := (n + Config.params.octBase) / 12

/-- The word `NOTE_RES` (R163, spec/10_state.md R32). -/
def noteWord (n : Int) : Word :=
  BitVec.ofInt 16 n ++ BitVec.ofInt 8 (noteOctave n) ++ (0 : BitVec 4) ++
    BitVec.ofInt 4 (noteIndex n)

/-- The label the host renders from a result (R164). -/
def noteLabel (n : Int) : String :=
  Config.params.names.getD (noteIndex n).toNat "" ++ toString (noteOctave n)

/-- Set `STATUS.NOTE_VALID`. -/
def Engine.withNoteValid (e : Engine) (v : Bool) : Engine :=
  { e with status := { e.status with noteValid := v } }

/-- The note computation on a present frequency `f`, raw FQ (R161 to R165). -/
def Engine.noteFor (e : Engine) (f : Int) : StageEnd :=
  if f ≤ 0 then .raised .invalidInput (e.withNoteValid false)
  else .done ({ e with noteRes := noteWord (noteNumber f.toNat) }.withNoteValid true)

/-- The note operation on the estimate: absent gives no label and no error (R160). -/
def Engine.noteStage (e : Engine) : StageEnd :=
  match e.estimate with
  | none => .done (e.withNoteValid false)
  | some f => e.noteFor f

/-- NOTE.E (R160). -/
def execNoteE (s : State) : Host.Outcome State Fault Refusal :=
  s.completeActive (fun _ e => e.noteStage.complete)

/-- NOTE.F (R160). -/
def execNoteF (s : State) : Host.Outcome State Fault Refusal :=
  s.completeActive (fun _ e => (e.noteFor e.freqArgOp).complete)

end Sys2Proof.Machine
end

