-- ==== Sys2Proof/Machine/Select.lean ====
section
/-!
DEFINITION. The Band-Limited Peak Selector: SELECT (spec/42_select.md). `NOISE_THR` is not an input
(R140).
-/

namespace Sys2Proof.Machine

/-- The list `F` (R141): indices of the bins inside the band, both bounds inclusive, ascending. -/
def Engine.inBand (k : InstanceId) (e : Engine) : List Nat :=
  (List.range e.specLen.toNat).filter
    (fun i => e.minFreq.toInt ≤ e.binFreq k i && e.binFreq k i ≤ e.maxFreq.toInt)

/-- The scan of R143 over (bin, magnitude) pairs in ascending order: a bin is a candidate when its
magnitude exceeds the running maximum and three times the mean `tot / cnt`; both tests strict, the
second by cross-multiplication (R142). Only a candidate moves the running maximum. -/
def risingPeaks (cnt tot : Nat) : Nat → List (Int × Nat) → List Int
  | _, [] => []
  | maxAmp, (f, m) :: rest =>
    if maxAmp < m ∧ Config.params.kNoise * tot < m * cnt then f :: risingPeaks cnt tot m rest
    else risingPeaks cnt tot maxAmp rest

/-- The new candidates of one SELECT (R141 to R143): `max_amp` starts at 0.

DEDUCED (log 21): R145 (f) calls the appended frequencies strictly increasing, but after a TRANSFORM
with `RATE = 0` every bin is 0 (spec/41_transform.md R133) and the scan of R143 can append 0 several
times. The scan is followed, without a test that would drop the repeats; (f) holds of the frequencies
wherever the bins rise strictly. -/
def Engine.newCandidates (k : InstanceId) (e : Engine) : List Int :=
  let F := e.inBand k
  let tot := (F.map (e.magnitude k)).sum
  risingPeaks F.length tot 0 (F.map (fun i => (e.binFreq k i, e.magnitude k i)))

/-- The select operation with its commit (R144): all or nothing. -/
def Engine.selectStage (k : InstanceId) (e : Engine) : StageEnd :=
  let new := e.newCandidates k
  if Config.params.cbCap < e.cbLen.toNat + new.length then .raised .capacityError e
  else
    .done { e.writeFrom .cb e.cbLen.toNat new with
      cbLen := BitVec.ofNat 11 (e.cbLen.toNat + new.length) }

/-- SELECT (R140 to R145). -/
def execSelect (s : State) : Host.Outcome State Fault Refusal :=
  s.completeActive (fun k e => (e.selectStage k).complete)

end Sys2Proof.Machine
end

