-- ==== Sys2Proof/Machine/Smoother.lean ====
section
/-!
DEFINITION. The Temporal Smoother: EMIT (spec/43_smoother.md).
-/

namespace Sys2Proof.Machine

/-- Does the buffer length call for an emission (R151)? -/
def Engine.emits (e : Engine) : Bool := Config.params.emitMin - 1 < e.cbLen.toNat

/-- The floor of the mean of the buffered candidates, in raw FQ units (R151). -/
def Engine.candidateMean (k : InstanceId) (e : Engine) : Int :=
  (e.candidates k).sum / (e.cbLen.toNat : Int)

/-- Clearing the Candidate Buffer: its storage becomes unspecified (spec/20_memory.md R71). -/
def Engine.clearCandidates (e : Engine) : Engine := { e.fill .cb [] with cbLen := 0 }

/-- The emit operation (R151); `EMITTED` is `e.emits`. It raises nothing. -/
def Engine.emitStage (k : InstanceId) (e : Engine) : Engine :=
  if e.emits then
    { e.clearCandidates with
      fe := BitVec.ofInt 32 (e.candidateMean k), status := { e.status with feValid := true } }
  else e

/-- EMIT (R150 to R154). -/
def execEmit (s : State) : Host.Outcome State Fault Refusal :=
  s.completeActive (fun k e => (e.emitStage k).done e.emits)

end Sys2Proof.Machine
end

