-- ==== Sys2Proof/Machine/Spectrum.lean ====
section
/-!
DEFINITION. The Spectral Transform: TRANSFORM (spec/41_transform.md).
-/

namespace Sys2Proof.Machine

/-- Set bit `b`, then the lower ones, of the root `r` of `p` while the square stays at most `p`. -/
def isqrtFrom (p : Nat) : Nat → Nat → Nat
  | 0, r => r
  | b + 1, r => isqrtFrom p b (if (r + 2 ^ b) * (r + 2 ^ b) ≤ p then r + 2 ^ b else r)

/-- `isqrt(p)`: the largest `r` with `r * r ≤ p` (spec/00_scope.md R8). -/
def isqrt (p : Nat) : Nat := isqrtFrom p (p.log2 / 2 + 1) 0

/-- A supported transform length: a power of two up to `2 ^ LOGN_MAX` (R131). -/
def supportedLength (N : Nat) : Bool :=
  (List.range (Config.params.logNMax + 1)).any (fun j => N == 2 ^ j)

/-- `idx(k, n)` (R132). -/
def twiddleIndex (N k n : Nat) : Nat := ((k * n) % N) * (2 ^ Config.params.romL / N)

/-- `RE[k]` of the frame `xs` (R132), exact. -/
def dftRe (xs : List Int) (k : Nat) : Int :=
  (xs.zipIdx.map (fun p => p.1 * romCos (twiddleIndex xs.length k p.2))).sum

/-- `IM[k]` of the frame `xs` (R132), exact. -/
def dftIm (xs : List Int) (k : Nat) : Int :=
  - (xs.zipIdx.map (fun p => p.1 * romSin (twiddleIndex xs.length k p.2))).sum

/-- `MAG[k]` of the frame `xs` (R134): no normalisation but the ROM's amplitude. -/
def dftMag (xs : List Int) (k : Nat) : Nat :=
  isqrt (dftRe xs k * dftRe xs k + dftIm xs k * dftIm xs k).toNat

/-- `BIN[k]` for rate `R` and length `N`, raw FQ (R133). -/
def binRaw (R N k : Nat) : Nat := (k * R * 2 ^ Config.params.frac) / N

/-- The samples of the frame (spec/00_scope.md R16 "Frame"). -/
def Engine.frame (k : InstanceId) (e : Engine) : List Int :=
  (List.range e.frmLen.toNat).map (e.sample k)

/-- The transform operation (R131 to R135): every check before anything is written. -/
def Engine.transformStage (k : InstanceId) (e : Engine) : StageEnd :=
  let N := e.frmLen.toNat
  if N = 0 then .raised .invalidInput e
  else if !supportedLength N then .raised .unsupportedLength e
  else
    let xs := e.frame k
    let bins := (List.range (N / 2 + 1)).map (fun j => (binRaw e.rateOp N j : Int))
    let mags := (List.range (N / 2 + 1)).map (fun j => (dftMag xs j : Int))
    .done { (e.fill .bin bins).fill .mag mags with specLen := BitVec.ofNat 10 (N / 2 + 1) }

/-- TRANSFORM (R130 to R136). -/
def execTransform (s : State) : Host.Outcome State Fault Refusal :=
  s.completeActive (fun k e => (e.transformStage k).complete)

end Sys2Proof.Machine
end

