-- ==== Sys2Proof/Machine/Tick.lean ====
section
/-!
DEFINITION. The per-tick pass: TICK (spec/47_tick.md).
-/

namespace Sys2Proof.Machine

/-- Stages 4 and 5 of R191: emit, then note on the estimate emit left; `EMITTED` tells whether stage
4 emitted, also when stage 5 raises. -/
def Engine.tickEmitNote (k : InstanceId) (e : Engine) : Engine :=
  match (e.emitStage k).noteStage with
  | .done e' => e'.done e.emits
  | .raised kind e' => e'.raise kind 5 e.emits

/-- Stage 3 of R191 and what follows it. -/
def Engine.tickSelect (k : InstanceId) (e : Engine) : Engine :=
  match e.selectStage k with
  | .done e' => e'.tickEmitNote k
  | .raised kind e' => e'.raise kind 3 false

/-- Stage 2 of R191 and what follows it. -/
def Engine.tickTransform (k : InstanceId) (e : Engine) : Engine :=
  match e.transformStage k with
  | .done e' => e'.tickSelect k
  | .raised kind e' => e'.raise kind 2 false

/-- The stage sequence of R191 with its early exits; the effects of the completed stages stay
(R192, log 11). -/
def Engine.tickPass (k : InstanceId) (e : Engine) : Engine :=
  match e.decodeStage k with
  | .done e' => e'.tickTransform k
  | .raised kind e' => e'.raise kind 1 false

/-- TICK (R190 to R194). -/
def execTick (s : State) : Host.Outcome State Fault Refusal :=
  s.completeActive (fun k e => e.tickPass k)

end Sys2Proof.Machine
end

