-- ==== Sys2Proof/Machine/Dispatch.lean ====
section
/-!
DEFINITION. The dispatcher (spec/30_encoding.md R109): one arm per command, each one call of its
meaning. `exec i s` completes command `i` on the instance `s.active`, from the state at completion
and the operands latched at acceptance (spec/10_state.md R26, R27).
-/

namespace Sys2Proof.Machine

def exec (i : Instr) (s : State) : Host.Outcome State Fault Refusal :=
  match i with
  | .decode => Sys2Proof.Machine.execDecode s
  | .transform => Sys2Proof.Machine.execTransform s
  | .select => Sys2Proof.Machine.execSelect s
  | .emit => Sys2Proof.Machine.execEmit s
  | .noteE => Sys2Proof.Machine.execNoteE s
  | .noteF => Sys2Proof.Machine.execNoteF s
  | .synthE => Sys2Proof.Machine.execSynthE s
  | .synthF => Sys2Proof.Machine.execSynthF s
  | .setbandMin => Sys2Proof.Machine.execSetbandMin s
  | .setbandMax => Sys2Proof.Machine.execSetbandMax s
  | .tick => Sys2Proof.Machine.execTick s
  | .init => Sys2Proof.Machine.execInit s

end Sys2Proof.Machine
end

