-- ==== Sys2Proof/Machine/Step.lean ====
section
/-!
DEFINITION. One step of the machine: one event of the host interface or one completion
(spec/00_scope.md R13, spec/10_state.md R26, spec/20_memory.md R78).
-/

namespace Sys2Proof.Machine

/-- Completion of the command in flight on instance `k`: the accepted word is decoded and its
instruction executed, an illegal word raises `IllegalCommand` (spec/30_encoding.md R109, log 18). -/
def runCommand (k : InstanceId) (s : State) : Host.Outcome State Fault Refusal :=
  match s.fetch k with
  | .ok i => exec i { s with active := k }
  | .error _ => execIllegal { s with active := k }

/-- One event. A completion event at an idle instance changes nothing: there is no command to
complete (spec/60_exceptions.md R214). -/
def step (s : State) : Host.Outcome State Fault Refusal :=
  match s.nextEvent with
  | (none, s') => .next s'
  | (some (.read width addr), s') => hostRead width addr s'
  | (some (.write width addr w), s') => hostWrite width addr w s'
  | (some (.hardReset _), s') => .next (hardwareReset s')
  | (some (.complete k), s') =>
    if (s'.engine k).status.busy then runCommand k s' else .next s'

/-- `s` in which instance 0 has just accepted the command word `w` (its `nbits` low bits) and its
completion is the next event: the accepted word is where the next instruction is fetched from
(spec/10_state.md R24, R26, R27; log 1). -/
def State.withFetchWord (s : State) (nbits w : Nat) : State :=
  { s with
    live := s.live.accept (BitVec.ofNat 32 (w % 2 ^ nbits))
    schedule := .complete .live :: s.schedule }

end Sys2Proof.Machine
end

