-- ==== Sys2Proof/Machine/Script.lean ====
section
/-!
DEFINITION. The host's scripts (spec/30_encoding.md R107) and their pseudo-instructions (R108) as
lists of events, and `State.call`, one command issued and waited for.
-/

namespace Sys2Proof.Machine

/-- The flat address of an offset of instance `k` (spec/20_memory.md R75). -/
def InstanceId.address (k : InstanceId) (off : Nat) : BitVec 20 :=
  BitVec.ofNat 20 (k.number * 0x40000 + off)

/-- The offset of a register (spec/10_state.md R38). -/
def Reg.offset : Reg → Nat
  | .cmd => 0x00
  | .status => 0x04
  | .operand .rawLen => 0x08
  | .operand .fmt => 0x0C
  | .operand .frameLen => 0x10
  | .operand .rate => 0x14
  | .operand .reqMin => 0x18
  | .operand .reqMax => 0x1C
  | .operand .freqArg => 0x20
  | .operand .synthCount => 0x24
  | .operand .synthRate => 0x28
  | .noiseThr => 0x2C
  | .minFreq => 0x30
  | .maxFreq => 0x34
  | .fe => 0x38
  | .noteRes => 0x3C
  | .frmLen => 0x40
  | .specLen => 0x44
  | .cbLen => 0x48
  | .toneLen => 0x4C

/-- `HZ(h)` of a whole number of hertz (spec/00_scope.md R10). -/
def hz (h : Nat) : Word := BitVec.ofNat 32 (h * 2 ^ Config.params.frac)

/-- `wr <i>.<REG>, <value>`. -/
def writeEvent (k : InstanceId) (r : Reg) (w : Word) : Event := .write 32 (k.address r.offset) w

/-- `rd <i>.<REG>`. -/
def readEvent (k : InstanceId) (r : Reg) : Event := .read 32 (k.address r.offset)

/-- `wrb <i>.RAW[<a>], ...` for `a` a multiple of 4 and whole words of bytes, as aligned 32-bit
writes. -/
def rawWriteEvents (k : InstanceId) (a : Nat) (ws : List Word) : List Event :=
  ws.zipIdx.map (fun p => .write 32 (k.address (Space.raw.base + a + 4 * p.2)) p.1)

/-- `rdm <i>.<SPACE>[<i>]`: the aligned words that hold element `i`, two for `MAG`. -/
def elementReadEvents (k : InstanceId) (sp : Space) (i : Nat) : List Event :=
  let off := sp.base + sp.elemBytes * i
  if sp = .mag then [.read 32 (k.address off), .read 32 (k.address (off + 4))]
  else [.read 32 (k.address (off / 4 * 4))]

/-- `cmd <i>, <MNEMONIC>`. -/
def cmdEvent (k : InstanceId) (i : Instr) : Event := writeEvent k .cmd (encode i)

/-- `wait <i>`: the command in flight completes, and the poll that follows reads `BUSY = 0`; the
polls before it change nothing the program can rely on (spec/70_reset_and_hazards.md R237). -/
def waitEvents (k : InstanceId) : List Event := [.complete k, readEvent k .status]

/-- `reset`. -/
def resetEvent : Event := .hardReset none

/-! ### Pseudo-instructions (R108) -/

/-- `call <i>, <MN>`. -/
def callEvents (k : InstanceId) (i : Instr) : List Event := cmdEvent k i :: waitEvents k

/-- The operand writes of `decode`. -/
def decodeOperandEvents (k : InstanceId) (len w c n : Nat) : List Event :=
  [writeEvent k (.operand .rawLen) (BitVec.ofNat 32 len),
    writeEvent k (.operand .fmt) (BitVec.ofNat 32 (w + 16 * c)),
    writeEvent k (.operand .frameLen) (BitVec.ofNat 32 n)]

/-- `decode <i>, <len>, <w>, <c>, <n>`. -/
def decodeScript (k : InstanceId) (len w c n : Nat) : List Event :=
  decodeOperandEvents k len w c n ++ callEvents k .decode

/-- `transform <i>, <R>`. -/
def transformScript (k : InstanceId) (R : Nat) : List Event :=
  writeEvent k (.operand .rate) (BitVec.ofNat 32 R) :: callEvents k .transform

/-- `select <i>`. -/
def selectScript (k : InstanceId) : List Event := callEvents k .select

/-- `emit <i>`. -/
def emitScript (k : InstanceId) : List Event := callEvents k .emit

/-- `note_for <i>, <f>`. -/
def noteForScript (k : InstanceId) (f : Word) : List Event :=
  writeEvent k (.operand .freqArg) f :: callEvents k .noteF

/-- `synthesize <i>, <cnt>, <Rs>`. -/
def synthesizeScript (k : InstanceId) (cnt Rs : Nat) : List Event :=
  writeEvent k (.operand .synthCount) (BitVec.ofNat 32 cnt) ::
    writeEvent k (.operand .synthRate) (BitVec.ofNat 32 Rs) :: callEvents k .synthE

/-- The operand writes of `set_band`. -/
def bandOperandEvents (k : InstanceId) (lo hi : Word) : List Event :=
  [writeEvent k (.operand .reqMin) lo, writeEvent k (.operand .reqMax) hi]

/-- `set_band <i>, <min>, <max>`. -/
def setBandScript (k : InstanceId) (lo hi : Word) : List Event :=
  bandOperandEvents k lo hi ++ callEvents k .setbandMin

/-- `set_min <i>, <min>`; `m` is the value the first event reads. -/
def setMinScript (k : InstanceId) (lo m : Word) : List Event :=
  readEvent k .maxFreq :: (bandOperandEvents k lo m ++ callEvents k .setbandMin)

/-- `set_max <i>, <max>`; `m` is the value the first event reads. -/
def setMaxScript (k : InstanceId) (hi m : Word) : List Event :=
  readEvent k .minFreq :: (bandOperandEvents k m hi ++ callEvents k .setbandMax)

/-- `tick <i>, <len>, <w>, <c>, <n>, <R>`. -/
def tickScript (k : InstanceId) (len w c n R : Nat) : List Event :=
  decodeOperandEvents k len w c n ++
    writeEvent k (.operand .rate) (BitVec.ofNat 32 R) :: callEvents k .tick

/-! ### Running a script -/

/-- Go on from a next state; a fault or a refusal ends the run. -/
def andThen (o : Host.Outcome State Fault Refusal)
    (f : State → Host.Outcome State Fault Refusal) : Host.Outcome State Fault Refusal :=
  match o with
  | .next t => f t
  | .fault r => .fault r
  | .refused r => .refused r

/-- Run `n` steps, stopping at the first fault or refusal. -/
def runSteps : Nat → State → Host.Outcome State Fault Refusal
  | 0, s => .next s
  | n + 1, s => andThen (step s) (runSteps n)

/-- Run a list of events to its end, with no other event in between. -/
def State.runEvents (s : State) (evs : List Event) : Host.Outcome State Fault Refusal :=
  runSteps evs.length { s with schedule := evs }

/-- Issue command `i` to instance `k` and let it complete. -/
def State.call (s : State) (k : InstanceId) (i : Instr) : Host.Outcome State Fault Refusal :=
  s.runEvents [cmdEvent k i, .complete k]

/-- The host sequence of `call`s that stops at the first command that completes with `ERR ≠ 0`
(spec/47_tick.md R193). -/
def State.callSequence (k : InstanceId) : List Instr → State → Host.Outcome State Fault Refusal
  | [], s => .next s
  | i :: is, s => andThen (s.call k i)
      (fun t => if (t.engine k).status.err = 0 then State.callSequence k is t else .next t)

end Sys2Proof.Machine
end

