-- ==== Sys2Proof/Safety.lean ====
section
/-!
DEFINITION. The words the claims use: the invariants of reachable states (spec/10_state.md R39), what
a host can observe (spec/00_scope.md R15), which events concern an instance (spec/20_memory.md R78),
and the results of the note and tone computations as relations between the state before and after.
-/

namespace Sys2Proof.Machine

/-- The lengths a spectrum can have (spec/10_state.md R39 (I5)). -/
def spectrumLengths : List Nat := [0, 1, 2, 3, 5, 9, 17, 33, 65, 129, 257, 513]

/-- The invariants (I1) to (I8) of spec/10_state.md R39, on the state alone, and the canonical form
of the memory. -/
structure Engine.Inv (k : InstanceId) (e : Engine) : Prop where
  /-- (I1) -/
  band_ordered : e.minFreq.toInt < e.maxFreq.toInt
  /-- (I2) -/
  cb_capacity : e.cbLen.toNat ≤ 1024
  /-- (I2); below `2^31` by the width of an FQ value. -/
  cb_nonneg : ∀ i < e.cbLen.toNat, 0 ≤ e.candidate k i
  /-- (I3) -/
  fe_absent : e.status.feValid = false → e.fe = 0
  /-- (I3); below `2^31` by the width of an FQ value. -/
  fe_nonneg : 0 ≤ e.fe.toInt
  /-- (I4) -/
  frame_capacity : e.frmLen.toNat ≤ 1024
  /-- (I5) -/
  spectrum_length : e.specLen.toNat ∈ spectrumLengths
  /-- (I6) -/
  bins_ordered : (∀ i j, i < j → j < e.specLen.toNat → e.binFreq k i < e.binFreq k j) ∨
    ∀ i < e.specLen.toNat, e.binFreq k i = 0
  /-- `BIN` is never negative (spec/20_memory.md R71). -/
  bins_nonneg : ∀ i < e.specLen.toNat, 0 ≤ e.binFreq k i
  /-- (I7) -/
  magnitudes_bounded : ∀ i < e.specLen.toNat, e.magnitude k i < 2 ^ 56
  /-- (I8) -/
  note_index_legal : e.status.noteValid = true → (e.noteRes.extractLsb' 0 4).toNat ≤ 11
  /-- The memory has its canonical form. -/
  memory_canonical : e.mem.wf
  /-- Only offsets of the six data spaces are listed (spec/20_memory.md R75). -/
  memory_mapped : ∀ c ∈ e.mem, (spaceAt c.1).isSome = true

/-- Both instances keep their invariants. -/
def State.Inv (s : State) : Prop := s.live.Inv .live ∧ s.file.Inv .file

/-- Nothing is known of an element at or beyond the valid length of its space (spec/10_state.md
R34). -/
structure Engine.TailsUnspecified (e : Engine) : Prop where
  frm : ∀ off, 0x4000 + 4 * e.frmLen.toNat ≤ off → off < 0x5000 → e.mem.get? off = none
  bin : ∀ off, 0x5000 + 4 * e.specLen.toNat ≤ off → off < 0x5804 → e.mem.get? off = none
  mag : ∀ off, 0x6000 + 8 * e.specLen.toNat ≤ off → off < 0x7008 → e.mem.get? off = none
  cb : ∀ off, 0x8000 + 4 * e.cbLen.toNat ≤ off → off < 0x9000 → e.mem.get? off = none
  tone : ∀ off, 0x20000 + 2 * e.toneLen.toNat ≤ off → off < 0x40000 → e.mem.get? off = none

/-- What a host can observe of an instance (spec/00_scope.md R15). -/
structure Observation where
  frame : List Int
  spectrum : List (Int × Nat)
  estimate : Option Int
  note : Option Word
  tone : List Int
  err : BitVec 4
  band : Int × Int
  deriving DecidableEq, Repr

/-- The host-visible outputs of an instance (spec/00_scope.md R15). -/
def Engine.observe (k : InstanceId) (e : Engine) : Observation :=
  { frame := (List.range e.frmLen.toNat).map (e.sample k)
    spectrum := (List.range e.specLen.toNat).map (fun i => (e.binFreq k i, e.magnitude k i))
    estimate := if e.status.feValid then some e.fe.toInt else none
    note := if e.status.noteValid then some e.noteRes else none
    tone := (List.range e.toneLen.toNat).map (e.toneSample k)
    err := e.status.err
    band := (e.minFreq.toInt, e.maxFreq.toInt) }

/-- An event that can change instance `k`: a host write inside its 256 KiB window, a completion on
it, a hardware reset. Host reads change no instance (spec/20_memory.md R74). -/
def Event.concerns (k : InstanceId) : Event → Bool
  | .read _ _ => false
  | .write _ addr _ => addr.toNat / 0x40000 == k.number
  | .hardReset _ => true
  | .complete j => j == k

/-- The command whose completion is the next event on instance `k`, if that is what comes next. -/
def State.completing (s : State) (k : InstanceId) : Option Instr :=
  match s.nextEvent with
  | (some (.complete j), _) => if j = k then (s.engine k).inFlight else none
  | _ => none

/-- The next event is a hardware reset. -/
def State.resetting (s : State) : Bool :=
  match s.nextEvent with
  | (some (.hardReset _), _) => true
  | _ => false

/-- `n` is the note number of the raw frequency `f` (spec/44_note.md R161), in exact rationals. -/
def IsNoteNumber (f : Int) (n : Int) : Prop :=
  (2 : ℚ) ^ (2 * n - 99) * (1802240 : ℚ) ^ 24 ≤ (f : ℚ) ^ 24 ∧
    (f : ℚ) ^ 24 < (2 : ℚ) ^ (2 * n - 97) * (1802240 : ℚ) ^ 24

/-- `t` is `e` after a successful note computation on `f` (spec/44_note.md R161 to R163): the result
word holds the number, the octave and the index, and nothing else changes but the status. -/
def NoteResult (f : Int) (e t : Engine) : Prop :=
  t = { e with
    noteRes := t.noteRes
    status := { e.status with
      busy := false, err := 0, stage := 0, emitted := false, noteValid := true } } ∧
  ∃ n : Int, IsNoteNumber f n ∧ (∀ n', IsNoteNumber f n' → n' = n) ∧ -200 ≤ n ∧ n ≤ 172 ∧
    (t.noteRes.extractLsb' 16 16).toInt = n ∧
    (t.noteRes.extractLsb' 8 8).toInt = Int.fdiv (n + 8) 12 ∧
    (t.noteRes.extractLsb' 4 4) = 0 ∧
    ((t.noteRes.extractLsb' 0 4).toNat : Int) = Int.fmod (n - 1) 12

/-- `t` is `e` after a successful synthesis of frequency `f` (spec/45_synth.md R172): every sample by
the phase accumulator, the later elements unspecified, every other byte and register unchanged. -/
def ToneResult (k : InstanceId) (f : Int) (e t : Engine) : Prop :=
  let cnt := e.latched.synthCount.toNat
  let Rs : Int := e.latched.synthRate.toNat
  t = { e with
    toneLen := t.toneLen, mem := t.mem, epochs := t.epochs
    status := { e.status with busy := false, err := 0, stage := 0, emitted := false } } ∧
  t.toneLen.toNat = cnt ∧
  (∃ (q : Int) (ftw : Nat), q * (4096 * Rs) ≤ f * 2 ^ 32 ∧ f * 2 ^ 32 < (q + 1) * (4096 * Rs) ∧
    ftw < 2 ^ 32 ∧ (2 ^ 32 : Int) ∣ q - ftw ∧
    ∀ n < cnt, t.toneSample k n = rom (n * ftw % 2 ^ 32 / 2 ^ 22)) ∧
  (∀ off, 0x20000 + 2 * cnt ≤ off → off < 0x40000 → t.mem.get? off = none) ∧
  (∀ off, ¬ (0x20000 ≤ off ∧ off < 0x40000) → t.byteAt k off = e.byteAt k off)

end Sys2Proof.Machine
end

