-- ==== Sys2Proof/Certificates/Slice0/Obligations.lean ====
section
/-!
DEFINITION. The statements about the machine, written from the numbered rules of spec/. In each
statement about a command, `k` is the active instance, `E` its state when the command completes, `T`
its state after; `s.setEngine k T` says that nothing outside that instance changes.
-/

open Sys2Proof Sys2Proof.Machine

/-! ### Encoding -/

/-- R102, R101: the whole word selects the command; the twelve words of the table are the only legal
ones; and encoding a command as bytes and decoding them gives it back. -/
def Obligations.DecoderAcceptsExactlyTheTableWords : Prop :=
  (∀ w : Word,
    (decodeWord w = .ok .decode ↔ w = 0x00000001) ∧
    (decodeWord w = .ok .transform ↔ w = 0x00000002) ∧
    (decodeWord w = .ok .select ↔ w = 0x00000003) ∧
    (decodeWord w = .ok .emit ↔ w = 0x00000004) ∧
    (decodeWord w = .ok .noteE ↔ w = 0x00000005) ∧
    (decodeWord w = .ok .noteF ↔ w = 0x00000105) ∧
    (decodeWord w = .ok .synthE ↔ w = 0x00000006) ∧
    (decodeWord w = .ok .synthF ↔ w = 0x00000106) ∧
    (decodeWord w = .ok .setbandMin ↔ w = 0x00000007) ∧
    (decodeWord w = .ok .setbandMax ↔ w = 0x00000107) ∧
    (decodeWord w = .ok .tick ↔ w = 0x00000008) ∧
    (decodeWord w = .ok .init ↔ w = 0x00000009)) ∧
  (∀ (w : Word) (i : Instr), decodeWord w = .ok i ↔ w = encode i) ∧
  (∀ i : Instr, i.wellFormed = true → decodeBytes (encodeBytes i) = .ok i)

/-- R105: which words are illegal, and that an accepted illegal word completes with
`IllegalCommand` (code 5) and no other change of state. -/
def Obligations.IllegalWordsRaiseIllegalCommandOnly : Prop :=
  (∀ w : Word, (∃ r, decodeWord w = .error r) ↔
    ((w.extractLsb' 0 4).toNat = 0 ∨ 10 ≤ (w.extractLsb' 0 4).toNat ∨ w.extractLsb' 4 4 ≠ 0 ∨
      w.extractLsb' 9 23 ≠ 0 ∨
      (w.getLsbD 8 = true ∧ w.extractLsb' 0 4 ≠ 5 ∧ w.extractLsb' 0 4 ≠ 6 ∧
        w.extractLsb' 0 4 ≠ 7))) ∧
  (∀ (s : State) (k : InstanceId) (rest : List Event) (r : IllegalWord),
    s.schedule = .complete k :: rest → (s.engine k).status.busy = true →
    decodeWord (s.engine k).cmd = .error r →
    step s = .next ({ s with schedule := rest, active := k }.setEngine k
      { s.engine k with status := { (s.engine k).status with
          busy := false, err := 5, stage := 0, emitted := false } })) ∧
  (∃ r, decodeWord 0 = .error r)

/-- The words of four families, written out from R101 and R102, decode to their commands. -/
def Obligations.SampleWordsDecodeToTheirCommands : Prop :=
  decodeBytes [0x01, 0x00, 0x00, 0x00] = .ok .decode ∧
  decodeBytes [0x05, 0x01, 0x00, 0x00] = .ok .noteF ∧
  decodeBytes [0x07, 0x01, 0x00, 0x00] = .ok .setbandMax ∧
  decodeTableWord 32 0x00000106 = some .synthF ∧
  decodeTableWord 32 0x00000108 = none

/-! ### Acceptance and completion -/

/-- R109: when the accepted word of a busy instance decodes to a command, the step at which it
completes is `exec` of that command on that instance; the event is consumed. With nothing scheduled
the command in flight completes, instance 0 first (the model's choice, log 2). -/
def Obligations.StepRunsTheAcceptedCommand : Prop :=
  (∀ (s : State) (k : InstanceId) (rest : List Event) (i : Instr),
    s.schedule = .complete k :: rest → (s.engine k).status.busy = true →
    decodeWord (s.engine k).cmd = .ok i →
    step s = exec i { s with schedule := rest, active := k }) ∧
  (∀ (s : State) (i : Instr), s.schedule = [] → s.live.status.busy = true →
    decodeWord s.live.cmd = .ok i → step s = exec i { s with active := .live }) ∧
  (∀ (s : State) (i : Instr), s.schedule = [] → s.live.status.busy = false →
    s.file.status.busy = true →
    decodeWord s.file.cmd = .ok i → step s = exec i { s with active := .file })

/-- R26: a host write to `CMD` is accepted when idle (the word stored, the operands latched, `BUSY`
set), dropped with `OVERRUN` when busy; a command's completion clears `BUSY` in the same update as
its effects; a read of `CMD` returns the last accepted word. -/
def Obligations.CmdWriteIsAcceptedOrDropped : Prop :=
  (∀ (s : State) (k : InstanceId) (rest : List Event) (w : Word),
    s.schedule = .write 32 (k.address 0) w :: rest →
    ((s.engine k).status.busy = false →
      step s = .next ({ s with schedule := rest }.setEngine k
        { s.engine k with
          cmd := w, latched := (s.engine k).operands
          status := { (s.engine k).status with busy := true } })) ∧
    ((s.engine k).status.busy = true →
      step s = .next ({ s with schedule := rest }.setEngine k
        { s.engine k with status := { (s.engine k).status with overrun := true } }))) ∧
  (∀ (s : State) (k : InstanceId) (rest : List Event), s.schedule = .complete k :: rest →
    (s.engine k).status.busy = true →
    ∃ t, step s = .next t ∧ (t.engine k).status.busy = false ∧ t.schedule = rest) ∧
  (∀ (s : State) (k : InstanceId) (rest : List Event),
    s.schedule = .read 32 (k.address 0) :: rest → (s.engine k).status.busy = false →
    step s = .next { s with schedule := rest, readData := (s.engine k).cmd })

/-- R27: the operands are latched at acceptance; no command's effects depend on the operand registers,
only on the latches (INIT overwrites the registers); and a host write to an operand register, idle or
while a command other than INIT is in flight, changes that register and nothing else. -/
def Obligations.CommandsReadOnlyLatchedOperands : Prop :=
  (∀ (s : State) (k : InstanceId) (rest : List Event) (w : Word),
    s.schedule = .write 32 (k.address 0) w :: rest → (s.engine k).status.busy = false →
    ∃ t, step s = .next t ∧ (t.engine k).latched = (s.engine k).operands) ∧
  (∀ (i : Instr) (s : State) (o : Operands),
    ∃ T, exec i s = .next (s.setEngine s.active T) ∧
      exec i (s.setEngine s.active { s.engine s.active with operands := o }) =
        .next (s.setEngine s.active
          { T with operands := if i = .init then T.operands else o })) ∧
  (∀ (s : State) (k : InstanceId) (rest : List Event) (r : OperandReg) (w : Word),
    s.schedule = .write 32 (k.address (Reg.operand r).offset) w :: rest →
    (s.engine k).inFlight ≠ some .init →
    step s = .next ({ s with schedule := rest }.setEngine k
      { s.engine k with operands := (s.engine k).operands.write r w }))

/-- R232, R230: hardware reset takes both instances to the reset state, in which no command is in
flight, whatever was in flight and whether or not a host write coincides with it. (The latches, which
R37 leaves unspecified, and the generations of the unspecified bytes are the model's.) -/
def Obligations.HardwareResetAbandonsCommands : Prop :=
  ∀ (s : State) (rest : List Event) (lost : Option (BitVec 20 × Word)),
    s.schedule = .hardReset lost :: rest →
    ∃ t, step s = .next t ∧ t.schedule = rest ∧
      ∀ k : InstanceId, ∃ (ep : Epochs) (la : Operands),
        t.engine k = { Engine.resetIn ep with latched := la } ∧ (t.engine k).status.busy = false ∧
        ep.raw ≠ (s.engine k).epochs.raw ∧ ep.frm ≠ (s.engine k).epochs.frm ∧
        ep.spectrum ≠ (s.engine k).epochs.spectrum ∧ ep.cb ≠ (s.engine k).epochs.cb ∧
        ep.tone ≠ (s.engine k).epochs.tone

/-- R214, R233: with nothing scheduled and no command in flight the machine changes nothing. -/
def Obligations.IdleMachineWaits : Prop :=
  ∀ s : State, s.schedule = [] → s.live.status.busy = false → s.file.status.busy = false →
    step s = .next s

/-- R37, R231: the values of every register after hardware reset, both instances; nothing is listed in
memory. The latches' values are the model's choice (log 8) and are not stated. -/
def Obligations.ResetStateHasTheTabledValues : Prop :=
  ∀ (k : InstanceId) (ep : Epochs) (la : Operands),
    let e := { Engine.resetIn ep with latched := la }
    (∃ ep' la', State.reset.engine k = { Engine.resetIn ep' with latched := la' }) ∧
    e.cmd = 0 ∧
    e.operands = { rawLen := 0, fmtWidth := 0, fmtChannels := 0, frameLen := 1024, rate := 44100
                   reqMin := 0, reqMax := 0, freqArg := 0, synthCount := 44100
                   synthRate := 44100 } ∧
    e.status.word = 0 ∧ e.status.busy = false ∧ e.noiseThr = 0 ∧
    e.minFreq = 0 ∧ e.maxFreq = 90316800 ∧ e.status.feValid = false ∧ e.fe = 0 ∧
    e.noteRes = 0 ∧ e.frmLen = 0 ∧ e.specLen = 0 ∧ e.cbLen = 0 ∧ e.toneLen = 0 ∧ e.mem = []

/-- R233: what each command does as the first after reset, with no register written. -/
def Obligations.FirstCommandAfterReset : Prop :=
  ∀ k : InstanceId,
    (∃ t, State.reset.call k .decode = .next t ∧ (t.engine k).status.word = 0x10) ∧
    (∃ t, State.reset.call k .transform = .next t ∧ (t.engine k).status.word = 0x20) ∧
    (∃ t, State.reset.call k .select = .next t ∧ (t.engine k).status.word = 0 ∧
      (t.engine k).cbLen = 0) ∧
    (∃ t, State.reset.call k .emit = .next t ∧ (t.engine k).status.word = 0) ∧
    (∃ t, State.reset.call k .noteE = .next t ∧ (t.engine k).status.word = 0) ∧
    (∃ t, State.reset.call k .noteF = .next t ∧ (t.engine k).status.word = 0x20) ∧
    (∃ t, State.reset.call k .synthE = .next t ∧ (t.engine k).status.word = 0x30) ∧
    (∃ t, State.reset.call k .synthF = .next t ∧ (t.engine k).status.word = 0 ∧
      (t.engine k).toneLen = 44100 ∧ ∀ n < 44100, (t.engine k).toneSample k n = 0) ∧
    (∃ t, State.reset.call k .setbandMin = .next t ∧ (t.engine k).status.word = 0x40 ∧
      (t.engine k).minFreq.toInt = -409600 ∧ (t.engine k).maxFreq.toInt = 0) ∧
    (∃ t, State.reset.call k .setbandMax = .next t ∧ (t.engine k).status.word = 0x40 ∧
      (t.engine k).minFreq.toInt = 0 ∧ (t.engine k).maxFreq.toInt = 409600) ∧
    (∃ t, State.reset.call k .tick = .next t ∧ (t.engine k).status.word = 0x1010) ∧
    (∃ t ep la, State.reset.call k .init = .next t ∧
      t.engine k = { Engine.resetIn ep with cmd := 9, latched := la })

/-! ### Host interface -/

/-- R23: each operand register stores only its field; a read returns it zero-extended, `REQ_MIN` and
`REQ_MAX` sign-extended, `FREQ_ARG` whole; a write touches no other register; and the stated ranges
follow. -/
def Obligations.OperandRegistersAreWarl : Prop :=
  (∀ (o : Operands) (w : Word),
    (o.write .rawLen w).read .rawLen = w &&& 0x3FFF ∧
    (o.write .fmt w).read .fmt = w &&& 0xFF ∧
    (o.write .frameLen w).read .frameLen = w &&& 0xFFFF ∧
    (o.write .rate w).read .rate = w &&& 0xFFFFF ∧
    (o.write .reqMin w).read .reqMin =
      (if w.getLsbD 30 then w ||| 0x80000000 else w &&& 0x7FFFFFFF) ∧
    (o.write .reqMax w).read .reqMax =
      (if w.getLsbD 30 then w ||| 0x80000000 else w &&& 0x7FFFFFFF) ∧
    (o.write .freqArg w).read .freqArg = w ∧
    (o.write .synthCount w).read .synthCount = w &&& 0xFFFF ∧
    (o.write .synthRate w).read .synthRate = w &&& 0xFFFFF) ∧
  (∀ (o : Operands) (r r' : OperandReg) (w : Word), r' ≠ r →
    (o.write r w).read r' = o.read r') ∧
  (∀ o : Operands, (-(2 ^ 30) ≤ o.reqMin.toInt ∧ o.reqMin.toInt < 2 ^ 30) ∧
    (-(2 ^ 30) ≤ o.reqMax.toInt ∧ o.reqMax.toInt < 2 ^ 30) ∧
    (-(2 ^ 31) ≤ o.reqMax.toInt - 409600 ∧ o.reqMin.toInt + 409600 < 2 ^ 31) ∧
    (o.read .reqMin).toInt = o.reqMin.toInt ∧ (o.read .reqMax).toInt = o.reqMax.toInt ∧
    (o.rate.toNat < 2 ^ 20 ∧ o.synthRate.toNat < 2 ^ 20) ∧
    ∀ N k : Nat, 0 < N → k ≤ N / 2 → k * o.rate.toNat * 4096 < 2 ^ 19 * 4096 * N)

/-- R76: reads of unmapped addresses, reserved offsets and the unused tails of the `BIN` and `MAG`
windows return 0; writes there and to read-only registers and spaces are ignored; neither raises an
error. The addresses are those of R75 and R38. That the reads return 0 also while the instance is busy
is the model's reading (DEDUCED, logs 5 and 20): R36 and R243 (3) leave anything read during `BUSY`
unspecified, R237 only registers and data spaces. -/
def Obligations.UnmappedAccessesAreHarmless : Prop :=
  (∀ (s : State) (addr : BitVec 20), addr.toNat % 4 = 0 →
    (0x80800 ≤ addr.toNat ∨
      (addr.toNat < 0x80000 ∧
        ((0x50 ≤ addr.toNat % 0x40000 ∧ addr.toNat % 0x40000 < 0x2000) ∨
          (0x5804 ≤ addr.toNat % 0x40000 ∧ addr.toNat % 0x40000 < 0x6000) ∨
          (0x7008 ≤ addr.toNat % 0x40000 ∧ addr.toNat % 0x40000 < 0x8000) ∨
          (0x9000 ≤ addr.toNat % 0x40000 ∧ addr.toNat % 0x40000 < 0x20000)))) →
    hostRead 32 addr s = .next { s with readData := 0 } ∧
    ∀ w, hostWrite 32 addr w s = .next s) ∧
  (∀ (s : State) (addr : BitVec 20) (w : Word), addr.toNat % 4 = 0 →
    ((0x80000 ≤ addr.toNat ∧ addr.toNat < 0x80800) ∨
      (addr.toNat < 0x80000 ∧
        (addr.toNat % 0x40000 = 0x04 ∨
          (0x30 ≤ addr.toNat % 0x40000 ∧ addr.toNat % 0x40000 < 0x50) ∨
          (0x4000 ≤ addr.toNat % 0x40000 ∧ addr.toNat % 0x40000 < 0x9000) ∨
          0x20000 ≤ addr.toNat % 0x40000))) →
    hostWrite 32 addr w s = .next s)

/-- R38: the word each register offset returns while the instance is idle. -/
def Obligations.RegisterMapReads : Prop :=
  ∀ (s : State) (k : InstanceId), (s.engine k).status.busy = false →
    let e := s.engine k
    let reads := fun (off : Nat) (w : Word) =>
      hostRead 32 (k.address off) s = .next { s with readData := w }
    reads 0x00 e.cmd ∧ reads 0x04 e.status.word ∧
    reads 0x08 (e.operands.rawLen.setWidth 32) ∧
    reads 0x0C ((e.operands.fmtChannels ++ e.operands.fmtWidth).setWidth 32) ∧
    reads 0x10 (e.operands.frameLen.setWidth 32) ∧
    reads 0x14 (e.operands.rate.setWidth 32) ∧
    reads 0x18 (e.operands.reqMin.signExtend 32) ∧
    reads 0x1C (e.operands.reqMax.signExtend 32) ∧
    reads 0x20 e.operands.freqArg ∧ reads 0x24 (e.operands.synthCount.setWidth 32) ∧
    reads 0x28 (e.operands.synthRate.setWidth 32) ∧ reads 0x2C e.noiseThr ∧
    reads 0x30 e.minFreq ∧ reads 0x34 e.maxFreq ∧ reads 0x38 e.fe ∧ reads 0x3C e.noteRes ∧
    reads 0x40 (e.frmLen.setWidth 32) ∧ reads 0x44 (e.specLen.setWidth 32) ∧
    reads 0x48 (e.cbLen.setWidth 32) ∧ reads 0x4C (e.toneLen.setWidth 32)

/-- R25: the bits of the `STATUS` word. -/
def Obligations.StatusWordHasTheTabledFields : Prop :=
  ∀ st : Status,
    st.word.getLsbD 0 = st.busy ∧ st.word.getLsbD 1 = st.overrun ∧
    st.word.extractLsb' 2 2 = 0 ∧ st.word.extractLsb' 4 4 = st.err ∧
    st.word.getLsbD 8 = st.feValid ∧ st.word.getLsbD 9 = st.emitted ∧
    st.word.getLsbD 10 = st.noteValid ∧ st.word.getLsbD 11 = false ∧
    st.word.extractLsb' 12 3 = st.stage ∧ st.word.extractLsb' 15 17 = 0

/-- R72 (c), R71: aligned host reads of the data spaces of an idle instance return the elements, the
least significant byte at the lowest offset: `RAW` four bytes, `FRM`, `BIN`, `CB` whole, `MAG` as two
words, `TONE` and the ROM two elements a word. R237: only the instance read has to be idle, the other
may be busy; and the ROM is read whatever is busy. -/
def Obligations.HostReadsElementsLittleEndian : Prop :=
  (∀ (s : State) (k : InstanceId), (s.engine k).status.busy = false →
    let e := s.engine k
    (∀ a, a % 4 = 0 → a < 8192 → ∃ w, hostRead 32 (k.address (0x2000 + a)) s =
      .next { s with readData := w } ∧
      ∀ j < 4, w.extractLsb' (8 * j) 8 = e.byteAt k (0x2000 + a + j)) ∧
    (∀ i < 1024, ∃ w, hostRead 32 (k.address (0x4000 + 4 * i)) s =
      .next { s with readData := w } ∧ w.toInt = e.sample k i) ∧
    (∀ i < 513, ∃ w, hostRead 32 (k.address (0x5000 + 4 * i)) s =
      .next { s with readData := w } ∧ w.toInt = e.binFreq k i) ∧
    (∀ i < 1024, ∃ w, hostRead 32 (k.address (0x8000 + 4 * i)) s =
      .next { s with readData := w } ∧ w.toInt = e.candidate k i) ∧
    (∀ i < 513, ∃ lo hi, hostRead 32 (k.address (0x6000 + 8 * i)) s =
        .next { s with readData := lo } ∧
      hostRead 32 (k.address (0x6000 + 8 * i + 4)) s = .next { s with readData := hi } ∧
      e.magnitude k i = lo.toNat + 2 ^ 32 * hi.toNat) ∧
    (∀ j < 32768, ∃ w, hostRead 32 (k.address (0x20000 + 4 * j)) s =
      .next { s with readData := w } ∧ (w.extractLsb' 0 16).toInt = e.toneSample k (2 * j) ∧
      (w.extractLsb' 16 16).toInt = e.toneSample k (2 * j + 1))) ∧
  (∀ (s : State), ∀ j < 512, ∃ w, hostRead 32 (BitVec.ofNat 20 (0x80000 + 4 * j)) s =
    .next { s with readData := w } ∧ (w.extractLsb' 0 16).toInt = rom (2 * j) ∧
    (w.extractLsb' 16 16).toInt = rom (2 * j + 1))

/-- R72 (c), R238: a host word written to `RAW`, on an idle instance or while a command other than
DECODE or TICK is in flight, lies there byte by byte, least significant first, and no other byte of the
instance changes; on an idle instance it reads back whole; R74: a read changes no state of an
instance. -/
def Obligations.RawWordWriteReadsBack : Prop :=
  ∀ (s : State) (k : InstanceId) (a : Nat) (w : Word), a % 4 = 0 → a < 8192 →
    (s.engine k).inFlight ≠ some .decode → (s.engine k).inFlight ≠ some .tick →
    ∃ T, hostWrite 32 (k.address (0x2000 + a)) w s = .next (s.setEngine k T) ∧
      T = { s.engine k with mem := T.mem } ∧
      (∀ j < 4, T.byteAt k (0x2000 + a + j) = w.extractLsb' (8 * j) 8) ∧
      (∀ off, ¬ (0x2000 + a ≤ off ∧ off < 0x2000 + a + 4) →
        T.byteAt k off = (s.engine k).byteAt k off) ∧
      ((s.engine k).status.busy = false →
        hostRead 32 (k.address (0x2000 + a)) (s.setEngine k T) =
          .next { s.setEngine k T with readData := w })

/-- R237: a host read of `STATUS` during `BUSY` returns `BUSY = 1` and the true `OVERRUN`; R237, R238,
R73: the accesses of which the spec makes no claim (reads of the other registers and of the data spaces
of the busy instance, the two races, accesses that are not aligned words) stop by name. -/
def Obligations.BusyAndMisalignedAccesses : Prop :=
  (∀ (s : State) (k : InstanceId), (s.engine k).status.busy = true →
    ∃ t, hostRead 32 (k.address 4) s = .next t ∧ t.readData.getLsbD 0 = true ∧
      t.readData.getLsbD 1 = (s.engine k).status.overrun ∧ t.live = s.live ∧ t.file = s.file) ∧
  (∀ (s : State) (k : InstanceId) (r : Reg), (s.engine k).status.busy = true → r ≠ .status →
    hostRead 32 (k.address r.offset) s = .refused .readWhileBusy) ∧
  (∀ (s : State) (k : InstanceId) (sp : Space) (off : Nat), (s.engine k).status.busy = true →
    sp.holds off = true → off % 4 = 0 →
    hostRead 32 (k.address off) s = .refused .readWhileBusy) ∧
  (∀ (s : State) (k : InstanceId) (a : Nat) (w : Word), a % 4 = 0 → a < 8192 →
    ((s.engine k).inFlight = some .decode ∨ (s.engine k).inFlight = some .tick) →
    hostWrite 32 (k.address (0x2000 + a)) w s = .fault .rawWriteRace) ∧
  (∀ (s : State) (k : InstanceId) (r : OperandReg) (w : Word), (s.engine k).inFlight = some .init →
    hostWrite 32 (k.address (Reg.operand r).offset) w s = .fault .initWriteRace ∧
    hostWrite 32 (k.address Reg.noiseThr.offset) w s = .fault .initWriteRace) ∧
  (∀ (s : State) (width : Nat) (addr : BitVec 20) (w : Word), width ≠ 32 ∨ addr.toNat % 4 ≠ 0 →
    hostRead width addr s = .refused .notAlignedWordAccess ∧
    hostWrite width addr w s = .refused .notAlignedWordAccess)

/-! ### DECODE -/

/-- R123, R124: a DECODE that passes the checks of R121 writes channel 0 of every audio frame,
little-endian and sign-extended, to `FRM`, and nothing else. -/
def Obligations.DecodeWritesChannelZeroSamples : Prop :=
  ∀ s : State,
    let k := s.active
    let E := s.engine k
    let L := E.latched.rawLen.toNat
    let W := E.latched.fmtWidth.toNat
    let C := E.latched.fmtChannels.toNat
    let F := E.latched.frameLen.toNat
    1 ≤ W → W ≤ 4 → C = 1 ∨ C = 2 → L ≤ 8192 → W * C * F ∣ L → L / (W * C) ≤ 1024 →
    ∃ T, exec .decode s = .next (s.setEngine k T) ∧
      T = { E with
        frmLen := T.frmLen, mem := T.mem, epochs := T.epochs
        status := { E.status with busy := false, err := 0, stage := 0, emitted := false } } ∧
      T.frmLen.toNat = L / (W * C) ∧
      (∀ i < L / (W * C),
        T.sample k i = (BitVec.ofNat (8 * W) (E.readNat k (0x2000 + i * C * W) W)).toInt) ∧
      (∀ off, 0x4000 + 4 * (L / (W * C)) ≤ off → off < 0x5000 → T.mem.get? off = none) ∧
      (∀ off, ¬ (0x4000 ≤ off ∧ off < 0x5000) → T.byteAt k off = E.byteAt k off)

/-- R121: DECODE raises `DecodeError` exactly when a check fails, and then writes nothing; else the
frame has `L div (W * C)` samples. -/
def Obligations.DecodeErrorsExactlyWhenACheckFails : Prop :=
  ∀ s : State,
    let k := s.active
    let E := s.engine k
    let L := E.latched.rawLen.toNat
    let W := E.latched.fmtWidth.toNat
    let C := E.latched.fmtChannels.toNat
    let F := E.latched.frameLen.toNat
    let fails := W ∉ [1, 2, 3, 4] ∨ C ∉ [1, 2] ∨ 8192 < L ∨ L % (W * C * F) ≠ 0 ∨
      1024 < L / (W * C)
    ∃ T, exec .decode s = .next (s.setEngine k T) ∧
      (T.status.err = 1 ↔ fails) ∧ (T.status.err = 0 ↔ ¬ fails) ∧
      (fails → T = { E with
        status := { E.status with busy := false, err := 1, stage := 0, emitted := false } }) ∧
      (¬ fails → T.frmLen.toNat = L / (W * C))

/-! ### TRANSFORM -/

/-- R132 to R135: the spectrum of a frame of a supported length: exact bins `k * R / N`, exact integer
sums with the ROM as twiddles, `MAG` the integer square root of `RE² + IM²`, nothing else written. -/
def Obligations.TransformWritesTheSpectrum : Prop :=
  ∀ s : State,
    let k := s.active
    let E := s.engine k
    let N := E.frmLen.toNat
    let R := E.latched.rate.toNat
    let RE := fun j : Nat => ∑ n ∈ Finset.range N,
      E.sample k n * rom ((((j * n) % N) * (1024 / N) + 256) % 1024)
    let IM := fun j : Nat => - ∑ n ∈ Finset.range N,
      E.sample k n * rom (((j * n) % N) * (1024 / N))
    (∃ g ≤ 10, N = 2 ^ g) →
    ∃ T, exec .transform s = .next (s.setEngine k T) ∧
      T = { E with
        specLen := T.specLen, mem := T.mem, epochs := T.epochs
        status := { E.status with busy := false, err := 0, stage := 0, emitted := false } } ∧
      T.specLen.toNat = N / 2 + 1 ∧
      (∀ j ≤ N / 2, T.binFreq k j * N = j * R * 4096) ∧
      (∀ j ≤ N / 2, (T.magnitude k j : Int) ^ 2 ≤ RE j ^ 2 + IM j ^ 2 ∧
        RE j ^ 2 + IM j ^ 2 < ((T.magnitude k j : Int) + 1) ^ 2) ∧
      (∀ off, 0x5000 + 4 * (N / 2 + 1) ≤ off → off < 0x5804 → T.mem.get? off = none) ∧
      (∀ off, 0x6000 + 8 * (N / 2 + 1) ≤ off → off < 0x7008 → T.mem.get? off = none) ∧
      (∀ off, ¬ (0x5000 ≤ off ∧ off < 0x5804) → ¬ (0x6000 ≤ off ∧ off < 0x7008) →
        T.byteAt k off = E.byteAt k off)

/-- R131: an empty frame raises `InvalidInput`, a length that is not a power of two up to 1024
`UnsupportedLength`; nothing is written. -/
def Obligations.TransformRefusesBadLengths : Prop :=
  ∀ s : State,
    let k := s.active
    let E := s.engine k
    let N := E.frmLen.toNat
    (N = 0 → exec .transform s = .next (s.setEngine k { E with
      status := { E.status with busy := false, err := 2, stage := 0, emitted := false } })) ∧
    (N ≠ 0 → (¬ ∃ g ≤ 10, N = 2 ^ g) → exec .transform s = .next (s.setEngine k { E with
      status := { E.status with busy := false, err := 6, stage := 0, emitted := false } }))

/-- R136 (c), (d): the DC and the Nyquist magnitude are exact, whatever the ROM's rounding. -/
def Obligations.DcAndNyquistMagnitudesAreExact : Prop :=
  ∀ s : State,
    let k := s.active
    let E := s.engine k
    let N := E.frmLen.toNat
    (∃ g ≤ 10, N = 2 ^ g) →
    ∃ T, exec .transform s = .next (s.setEngine k T) ∧
      (T.magnitude k 0 : Int) = 16384 * |∑ n ∈ Finset.range N, E.sample k n| ∧
      (2 ≤ N → (T.magnitude k (N / 2) : Int) =
        16384 * |∑ n ∈ Finset.range N, (-1) ^ n * E.sample k n|)

/-! ### SELECT -/

/-- R141 to R144: SELECT appends, in ascending order, the bins of the band whose magnitude exceeds
three times the band's mean and every earlier magnitude of the band that does so; all or nothing, with
`CapacityError` when the buffer would hold more than 1024. -/
def Obligations.SelectAppendsTheRisingPeaks : Prop :=
  ∀ s : State,
    let k := s.active
    let E := s.engine k
    let F := (List.range E.specLen.toNat).filter
      (fun i => E.minFreq.toInt ≤ E.binFreq k i ∧ E.binFreq k i ≤ E.maxFreq.toInt)
    let tot := (F.map (E.magnitude k)).sum
    let loud := fun i => 3 * tot < E.magnitude k i * F.length
    let new := (F.filter (fun i => loud i ∧
      ∀ j ∈ F, j < i → loud j → E.magnitude k j < E.magnitude k i)).map (E.binFreq k)
    (E.cbLen.toNat + new.length ≤ 1024 →
      ∃ T, exec .select s = .next (s.setEngine k T) ∧
        T = { E with
          cbLen := T.cbLen, mem := T.mem
          status := { E.status with busy := false, err := 0, stage := 0, emitted := false } } ∧
        T.cbLen.toNat = E.cbLen.toNat + new.length ∧
        (∀ (p : Nat) (h : p < new.length), T.candidate k (E.cbLen.toNat + p) = new[p]) ∧
        (∀ off, ¬ (0x8000 + 4 * E.cbLen.toNat ≤ off ∧
            off < 0x8000 + 4 * (E.cbLen.toNat + new.length)) →
          T.byteAt k off = E.byteAt k off)) ∧
    (1024 < E.cbLen.toNat + new.length →
      exec .select s = .next (s.setEngine k { E with
        status := { E.status with busy := false, err := 7, stage := 0, emitted := false } }))

/-- R145 (a), (c), (e), (f): a new candidate is never at or below three times the mean nor of magnitude
0, a band of three bins or fewer yields none, and the candidates of one SELECT rise strictly in
magnitude; in frequency too where the bins rise strictly (the rate is not 0). With rate 0 every bin and
so every candidate is 0, possibly several times: there R143 and R133 are followed against the letter of
(f) (DEDUCED, log 21). -/
def Obligations.SelectedPeaksAreLoudAndRising : Prop :=
  ∀ (pairs : List (Int × Nat)),
    let tot := (pairs.map Prod.snd).sum
    let new := risingPeaks pairs.length tot 0 pairs
    (pairs.length ≤ 3 → new = []) ∧
    (pairs.Pairwise (fun p q => p.1 < q.1) → new.Pairwise (· < ·)) ∧
    ((∀ p ∈ pairs, p.1 = 0) → ∀ f ∈ new, f = 0) ∧
    ∃ picked : List (Int × Nat), picked.Sublist pairs ∧ picked.map Prod.fst = new ∧
      (∀ p ∈ picked, 0 < p.2 ∧ 3 * tot < p.2 * pairs.length) ∧
      picked.Pairwise (fun p q => p.2 < q.2)

/-- R145 (g): scaling every magnitude by a positive constant does not change which bins are
selected. -/
def Obligations.SelectionIsScaleInvariant : Prop :=
  ∀ (pairs : List (Int × Nat)) (c : Nat), 0 < c →
    risingPeaks pairs.length (pairs.map (fun p => c * p.2)).sum 0
        (pairs.map (fun p => (p.1, c * p.2))) =
      risingPeaks pairs.length (pairs.map Prod.snd).sum 0 pairs

/-! ### EMIT -/

/-- R151: with more than three candidates EMIT stores the floor of their mean as the estimate and
empties the buffer; otherwise it writes only the status fields. It never raises. -/
def Obligations.EmitStoresTheFloorMean : Prop :=
  ∀ s : State,
    let k := s.active
    let E := s.engine k
    let n := E.cbLen.toNat
    let S := ∑ i ∈ Finset.range n, E.candidate k i
    (3 < n →
      ∃ T, exec .emit s = .next (s.setEngine k T) ∧
        T = { E with
          fe := T.fe, cbLen := 0, mem := T.mem, epochs := T.epochs
          status := { E.status with
            busy := false, err := 0, stage := 0, emitted := true, feValid := true } } ∧
        T.fe.toInt * n ≤ S ∧ S < (T.fe.toInt + 1) * n ∧
        (∀ off, 0x8000 ≤ off → off < 0x9000 → T.mem.get? off = none) ∧
        (∀ off, ¬ (0x8000 ≤ off ∧ off < 0x9000) → T.byteAt k off = E.byteAt k off)) ∧
    (n ≤ 3 → exec .emit s = .next (s.setEngine k { E with
      status := { E.status with busy := false, err := 0, stage := 0, emitted := false } }))

/-- R154: after an emission a second EMIT emits nothing and the estimate keeps the first value. -/
def Obligations.SecondEmitEmitsNothing : Prop :=
  ∀ (s : State) (k : InstanceId), (s.engine k).status.busy = false →
    ∃ t u, s.call k .emit = .next t ∧ t.call k .emit = .next u ∧
      (u.engine k).status.emitted = false ∧ (u.engine k).fe = (t.engine k).fe ∧
      (u.engine k).status.feValid = (t.engine k).status.feValid ∧
      (u.engine k).cbLen = (t.engine k).cbLen

/-! ### NOTE -/

/-- R161 to R163: NOTE.F on a positive frequency, and NOTE.E on a present positive estimate, compute
the one note number of R161, its index and its octave. -/
def Obligations.NoteComputesTheNoteNumber : Prop :=
  ∀ s : State,
    let k := s.active
    let E := s.engine k
    (0 < E.latched.freqArg.toInt →
      ∃ T, exec .noteF s = .next (s.setEngine k T) ∧
        NoteResult E.latched.freqArg.toInt E T) ∧
    (E.status.feValid = true → 0 < E.fe.toInt →
      ∃ T, exec .noteE s = .next (s.setEngine k T) ∧ NoteResult E.fe.toInt E T)

/-- R165, R160: a frequency that is not positive raises `InvalidInput` and clears `NOTE_VALID`; an
absent estimate clears `NOTE_VALID` and raises nothing; `NOTE_RES` stays. -/
def Obligations.NoteWithoutAPositiveFrequency : Prop :=
  ∀ s : State,
    let k := s.active
    let E := s.engine k
    (E.latched.freqArg.toInt ≤ 0 → exec .noteF s = .next (s.setEngine k { E with
      status := { E.status with
        busy := false, err := 2, stage := 0, emitted := false, noteValid := false } })) ∧
    (E.status.feValid = true → E.fe.toInt ≤ 0 → exec .noteE s = .next (s.setEngine k { E with
      status := { E.status with
        busy := false, err := 2, stage := 0, emitted := false, noteValid := false } })) ∧
    (E.status.feValid = false → exec .noteE s = .next (s.setEngine k { E with
      status := { E.status with
        busy := false, err := 0, stage := 0, emitted := false, noteValid := false } }))

/-- R161, R162: the note number never falls as the frequency rises. -/
def Obligations.NoteNumberIsMonotone : Prop :=
  ∀ f g : Nat, 0 < f → f ≤ g → g < 2 ^ 31 → noteNumber f ≤ noteNumber g

/-- R166: the source's two examples and the tabled thresholds with their labels. -/
def Obligations.NoteExamplesAndThresholds : Prop :=
  noteWord (noteNumber 1802240) = 0x00310400 ∧ noteWord (noteNumber 1071636) = 0x00280403 ∧
  noteLabel (noteNumber 1) = "Do-16" ∧ noteNumber 1 = -200 ∧
  noteLabel (noteNumber 2) = "Do-15" ∧ noteNumber 2 = -188 ∧
  (∀ row ∈ [((0 : Int), 103292, "Sol#0", "Sol0"), (1, 109434, "La0", "Sol#0"),
      (39, 982679, "Si3", "La#3"), (40, 1041112, "Do4", "Si3"), (41, 1103020, "Do#4", "Do4"),
      (48, 1652662, "Sol#4", "Sol4"), (49, 1750934, "La4", "Sol#4"),
      (50, 1855050, "La#4", "La4"), (51, 1965357, "Si4", "La#4"), (52, 2082223, "Do5", "Si4"),
      (61, 3501868, "La5", "Sol#5"), (100, 33315566, "Do9", "Si8"),
      (172, 2132196193, "Do15", "Si14")],
    noteNumber row.2.1 = row.1 ∧ noteNumber (row.2.1 - 1) = row.1 - 1 ∧
    noteLabel row.1 = row.2.2.1 ∧ noteLabel (row.1 - 1) = row.2.2.2) ∧
  noteNumber (2 ^ 31 - 1) = 172

/-! ### SYNTH -/

/-- R170, R172: SYNTH.F with a non-zero rate, and SYNTH.E with a present estimate and a non-zero rate,
write `SYNTH_COUNT` samples by the phase accumulator. -/
def Obligations.SynthWritesThePhaseAccumulatorTone : Prop :=
  ∀ s : State,
    let k := s.active
    let E := s.engine k
    E.latched.synthRate.toNat ≠ 0 →
    (∃ T, exec .synthF s = .next (s.setEngine k T) ∧
      ToneResult k E.latched.freqArg.toInt E T) ∧
    (E.status.feValid = true → ∃ T, exec .synthE s = .next (s.setEngine k T) ∧
      ToneResult k E.fe.toInt E T)

/-- R171: the errors of SYNTH in their order, with nothing written, and no other error. -/
def Obligations.SynthErrorsInOrder : Prop :=
  ∀ s : State,
    let k := s.active
    let E := s.engine k
    (E.status.feValid = false → exec .synthE s = .next (s.setEngine k { E with
      status := { E.status with busy := false, err := 3, stage := 0, emitted := false } })) ∧
    (E.status.feValid = true → E.latched.synthRate = 0 →
      exec .synthE s = .next (s.setEngine k { E with
        status := { E.status with busy := false, err := 2, stage := 0, emitted := false } })) ∧
    (E.latched.synthRate = 0 → exec .synthF s = .next (s.setEngine k { E with
      status := { E.status with busy := false, err := 2, stage := 0, emitted := false } })) ∧
    (E.latched.synthRate ≠ 0 →
      (∃ T, exec .synthF s = .next (s.setEngine k T) ∧ T.status.err = 0) ∧
      (E.status.feValid = true → ∃ T, exec .synthE s = .next (s.setEngine k T) ∧ T.status.err = 0))

/-- R174 (b), (c), (d), (e): a frequency that is a quarter, a half, or a whole multiple of the playback
rate, at every rate and count. -/
def Obligations.SynthAtSimpleFractionsOfTheRate : Prop :=
  ∀ (Rs : Nat) (n : Nat), 0 < Rs →
    toneValue (tuningWord 0 Rs) n = 0 ∧
    toneValue (tuningWord (1024 * Rs) Rs) n = [0, 16384, 0, -16384].getD (n % 4) 0 ∧
    toneValue (tuningWord (2048 * Rs) Rs) n = 0 ∧
    ∀ (f m : Int), toneValue (tuningWord (f + 4096 * m * Rs) Rs) n = toneValue (tuningWord f Rs) n

/-- R175, R176: the table's check sums and the symmetries and bounds of the sine ROM. -/
def Obligations.SineRomHasTheStatedProperties : Prop :=
  ((List.range 257).map rom).sum = 2678373 ∧
  ((List.range 257).map (fun i : Nat => (i : Int) * rom i)).sum = 437271189 ∧
  (∀ i : Nat, i < 1024 → |rom i| ≤ 16384 ∧ rom ((512 + 1024 - i) % 1024) = rom i ∧
    rom ((i + 512) % 1024) = - rom i ∧ rom ((1024 - i) % 1024) = - rom i ∧
    romCos ((1024 - i) % 1024) = romCos i ∧
    268416805 ≤ romCos i ^ 2 + romSin i ^ 2 ∧ romCos i ^ 2 + romSin i ^ 2 ≤ 268457770) ∧
  ((List.range 1024).map (fun i => rom i ^ 2)).sum = 137439918908

/-! ### SETBAND and INIT -/

/-- R181: a request with `a < b` is applied as requested by both commands. -/
def Obligations.SetbandAppliesAValidBand : Prop :=
  ∀ s : State,
    let k := s.active
    let E := s.engine k
    let a := E.latched.reqMin.toInt
    let b := E.latched.reqMax.toInt
    a < b → ∀ i ∈ [Instr.setbandMin, .setbandMax],
      ∃ T, exec i s = .next (s.setEngine k T) ∧ T.minFreq.toInt = a ∧ T.maxFreq.toInt = b ∧
        T = { E with
          minFreq := T.minFreq, maxFreq := T.maxFreq
          status := { E.status with busy := false, err := 0, stage := 0, emitted := false } }

/-- R182: a request with `a ≥ b` is clamped by 100 Hz at the bound the command names, and reported as
`RejectedClamp`; the clamped band is exact (no overflow, R183 (b)). -/
def Obligations.SetbandClampsAConflict : Prop :=
  ∀ s : State,
    let k := s.active
    let E := s.engine k
    let a := E.latched.reqMin.toInt
    let b := E.latched.reqMax.toInt
    b ≤ a → ∀ c ∈ [(Instr.setbandMin, b - 409600, b), (Instr.setbandMax, a, a + 409600)],
      ∃ T, exec c.1 s = .next (s.setEngine k T) ∧ T.minFreq.toInt = c.2.1 ∧
        T.maxFreq.toInt = c.2.2 ∧
        T = { E with
          minFreq := T.minFreq, maxFreq := T.maxFreq
          status := { E.status with busy := false, err := 4, stage := 0, emitted := false } }

/-- R184: INIT puts the active instance into the reset state with `CMD = 9` and clears every status
field; the contents of its memories become unspecified (nothing is listed, and the generation of every
space is new); nothing else changes. (The latches, which R37 leaves unspecified, are not stated.) -/
def Obligations.InitRestoresTheResetState : Prop :=
  ∀ s : State, ∃ T, exec .init s = .next (s.setEngine s.active T) ∧
    T = { Engine.resetIn T.epochs with cmd := 0x00000009, latched := T.latched } ∧
    T.status.word = 0 ∧ T.mem = [] ∧
    (T.epochs.raw ≠ (s.engine s.active).epochs.raw ∧ T.epochs.frm ≠ (s.engine s.active).epochs.frm ∧
      T.epochs.spectrum ≠ (s.engine s.active).epochs.spectrum ∧
      T.epochs.cb ≠ (s.engine s.active).epochs.cb ∧
      T.epochs.tone ≠ (s.engine s.active).epochs.tone)

/-- R185, R237: a host write stores `NOISE_THR` (except while INIT is in flight), a read while idle
returns it, and no command's effects depend on it. -/
def Obligations.NoiseThresholdIsCosmetic : Prop :=
  (∀ (i : Instr) (s : State) (v : Word), ∃ T,
    exec i s = .next (s.setEngine s.active T) ∧
    exec i (s.setEngine s.active { s.engine s.active with noiseThr := v }) =
      .next (s.setEngine s.active { T with noiseThr := if i = .init then 0 else v })) ∧
  (∀ (s : State) (k : InstanceId) (w : Word), (s.engine k).inFlight ≠ some .init →
    hostWrite 32 (k.address 0x2C) w s =
      .next (s.setEngine k { s.engine k with noiseThr := w })) ∧
  (∀ (s : State) (k : InstanceId), (s.engine k).status.busy = false →
    hostRead 32 (k.address 0x2C) s = .next { s with readData := (s.engine k).noiseThr })

/-! ### TICK -/

/-- R193: TICK leaves what the host sequence DECODE, TRANSFORM, SELECT, EMIT, NOTE.E stopped at the
first error leaves, but for `CMD`, `STAGE` and `EMITTED`; after the sequence `STAGE = 0`, and
`EMITTED = 0` because EMIT, which never fails, is never the last command run. -/
def Obligations.TickEqualsTheFiveCommands : Prop :=
  ∀ (s : State) (k : InstanceId), (s.engine k).status.busy = false →
    ∃ t u, s.call k .tick = .next t ∧
      s.callSequence k [.decode, .transform, .select, .emit, .noteE] = .next u ∧
      t.engine k = { u.engine k with
        cmd := 8
        status := { (u.engine k).status with
          stage := (t.engine k).status.stage, emitted := (t.engine k).status.emitted } } ∧
      (u.engine k).status.stage = 0 ∧ (u.engine k).status.emitted = false ∧
      t.engine k.other = u.engine k.other

/-- R191: a TICK whose frame decodes to a supported length, with room for the new candidates, a
positive estimate if it has one, and either a positive minimum and positive candidates or (at any band,
that of the reset state among them) a positive rate and candidates of 2 or more, completes with
`ERR = 0` through all five stages; the note of R161 to R163 is that of the estimate it leaves. -/
def Obligations.TickCompletesAllFiveStages : Prop :=
  ∀ s : State,
    let k := s.active
    let E := s.engine k
    let L := E.latched.rawLen.toNat
    let W := E.latched.fmtWidth.toNat
    let C := E.latched.fmtChannels.toNat
    1 ≤ W → W ≤ 4 → C = 1 ∨ C = 2 → L ≤ 8192 → W * C * E.latched.frameLen.toNat ∣ L →
    (∃ g ≤ 10, L / (W * C) = 2 ^ g) → E.cbLen.toNat ≤ 511 →
    (0 < E.minFreq.toInt ∧ ∀ i < E.cbLen.toNat, 0 < E.candidate k i) ∨
      (0 < E.latched.rate.toNat ∧ ∀ i < E.cbLen.toNat, 2 ≤ E.candidate k i) →
    (E.status.feValid = true → 0 < E.fe.toInt) →
    ∃ T, exec .tick s = .next (s.setEngine k T) ∧
      T = { E with
        frmLen := T.frmLen, specLen := T.specLen, cbLen := T.cbLen, fe := T.fe
        noteRes := T.noteRes, mem := T.mem, epochs := T.epochs
        status := { E.status with
          busy := false, err := 0, stage := 0, emitted := T.status.emitted
          feValid := T.status.feValid, noteValid := T.status.feValid } } ∧
      T.frmLen.toNat = L / (W * C) ∧ T.specLen.toNat = L / (W * C) / 2 + 1 ∧
      (T.status.emitted = true → T.cbLen = 0 ∧ T.status.feValid = true ∧ 0 < T.fe.toInt) ∧
      (T.status.emitted = false → E.cbLen.toNat ≤ T.cbLen.toNat ∧ T.cbLen.toNat ≤ 3 ∧
        T.fe = E.fe ∧ T.status.feValid = E.status.feValid) ∧
      (T.status.feValid = true →
        ∃ n, IsNoteNumber T.fe.toInt n ∧ (T.noteRes.extractLsb' 16 16).toInt = n ∧
          (T.noteRes.extractLsb' 8 8).toInt = Int.fdiv (n + 8) 12 ∧
          T.noteRes.extractLsb' 4 4 = 0 ∧
          ((T.noteRes.extractLsb' 0 4).toNat : Int) = Int.fmod (n - 1) 12) ∧
      (T.status.feValid = false → T.noteRes = E.noteRes) ∧
      (∀ off, ¬ (0x4000 ≤ off ∧ off < 0x9000) → T.byteAt k off = E.byteAt k off)

/-- R192: the errors a TICK can end with, the stage each is reported with, and what that TICK has
changed by then. -/
def Obligations.TickErrorsAndPartialEffects : Prop :=
  ∀ s : State,
    let k := s.active
    let E := s.engine k
    ∃ T, exec .tick s = .next (s.setEngine k T) ∧
      ((T.status.err = 0 ∧ T.status.stage = 0) ∨
        (T.status.stage = 1 ∧ T.status.err = 1 ∧ T = { E with
          status := { E.status with busy := false, err := 1, stage := 1, emitted := false } }) ∨
        (T.status.stage = 2 ∧
          ((T.status.err = 2 ∧ T.frmLen = 0) ∨
            (T.status.err = 6 ∧ ¬ ∃ g, T.frmLen.toNat = 2 ^ g)) ∧
          T = { E with
            frmLen := T.frmLen, mem := T.mem, epochs := T.epochs
            status := { E.status with
              busy := false, err := T.status.err, stage := 2, emitted := false } } ∧
          ∀ off, ¬ (0x4000 ≤ off ∧ off < 0x5000) → T.byteAt k off = E.byteAt k off) ∨
        (T.status.stage = 3 ∧ T.status.err = 7 ∧ 511 < E.cbLen.toNat ∧
          T = { E with
            frmLen := T.frmLen, specLen := T.specLen, mem := T.mem, epochs := T.epochs
            status := { E.status with busy := false, err := 7, stage := 3, emitted := false } } ∧
          ∀ off, ¬ (0x4000 ≤ off ∧ off < 0x8000) → T.byteAt k off = E.byteAt k off) ∨
        (T.status.stage = 5 ∧ T.status.err = 2 ∧ T.fe.toInt ≤ 0 ∧
          T = { E with
            frmLen := T.frmLen, specLen := T.specLen, cbLen := T.cbLen, fe := T.fe, mem := T.mem
            epochs := T.epochs
            status := { E.status with
              busy := false, err := 2, stage := 5, emitted := T.status.emitted
              feValid := true, noteValid := false } } ∧
          (T.status.emitted = true → T.cbLen = 0) ∧
          (T.status.emitted = false → T.fe = E.fe ∧ E.status.feValid = true ∧
            E.cbLen.toNat ≤ T.cbLen.toNat ∧ T.cbLen.toNat ≤ 3) ∧
          ∀ off, ¬ (0x4000 ≤ off ∧ off < 0x9000) → T.byteAt k off = E.byteAt k off))

/-- R195 (a), (b): a TICK that starts with at most three candidates ends with at most three, and
without a `CapacityError`. -/
def Obligations.TickKeepsTheBufferShort : Prop :=
  ∀ s : State, (s.engine s.active).cbLen.toNat ≤ 3 →
    ∃ T, exec .tick s = .next (s.setEngine s.active T) ∧ T.cbLen.toNat ≤ 3 ∧ T.status.err ≠ 7

/-! ### Rules of the whole machine -/

/-- R242: every command completes, at once and in one update, and `BUSY` falls. -/
def Obligations.EveryCommandCompletes : Prop :=
  ∀ (i : Instr) (s : State), ∃ T, exec i s = .next (s.setEngine s.active T) ∧
    T.status.busy = false ∧ T.cmd = (if i = .init then 9 else (s.engine s.active).cmd)

/-- R208: everything that can differ after a command that completed with an error, and after an illegal
word. -/
def Obligations.FailingCommandsKeepPriorState : Prop :=
  (∀ s : State, execIllegal s = .next (s.setEngine s.active { s.engine s.active with
    status := { (s.engine s.active).status with
      busy := false, err := 5, stage := 0, emitted := false } })) ∧
  ∀ (i : Instr) (s : State) (T : Engine),
    exec i s = .next (s.setEngine s.active T) → T.status.err ≠ 0 →
    let k := s.active
    let E := s.engine k
    let report := { E.status with
      busy := false, err := T.status.err, stage := T.status.stage, emitted := T.status.emitted }
    match i with
    | .decode | .transform | .select | .synthE | .synthF => T = { E with status := report }
    | .noteE | .noteF => T = { E with status := { report with noteValid := false } }
    | .setbandMin | .setbandMax =>
      T = { E with minFreq := T.minFreq, maxFreq := T.maxFreq, status := report }
    | .emit | .init => False
    | .tick =>
      (T.status.stage = 1 → T = { E with status := report }) ∧
      (T.status.stage = 2 →
        T = { E with frmLen := T.frmLen, mem := T.mem, epochs := T.epochs, status := report } ∧
        ∀ off, ¬ (0x4000 ≤ off ∧ off < 0x5000) → T.byteAt k off = E.byteAt k off) ∧
      (T.status.stage = 3 →
        T = { E with
          frmLen := T.frmLen, specLen := T.specLen, mem := T.mem, epochs := T.epochs
          status := report } ∧
        ∀ off, ¬ (0x4000 ≤ off ∧ off < 0x8000) → T.byteAt k off = E.byteAt k off) ∧
      (T.status.stage = 5 →
        T = { E with
          frmLen := T.frmLen, specLen := T.specLen, cbLen := T.cbLen, fe := T.fe, mem := T.mem
          epochs := T.epochs
          status := { report with feValid := T.status.feValid, noteValid := false } } ∧
        (T.status.emitted = false → T.fe = E.fe ∧ T.status.feValid = E.status.feValid) ∧
        ∀ off, ¬ (0x4000 ≤ off ∧ off < 0x9000) → T.byteAt k off = E.byteAt k off) ∧
      T.status.stage ∈ [1, 2, 3, 5]

/-- R152, R30: the estimate changes only by hardware reset, INIT, or an emission (EMIT or TICK with
`EMITTED = 1`), over every event the machine can take. -/
def Obligations.EstimateIsSticky : Prop :=
  ∀ (s t : State) (k : InstanceId), step s = .next t →
    (t.engine k).fe ≠ (s.engine k).fe ∨
      (t.engine k).status.feValid ≠ (s.engine k).status.feValid →
    s.resetting = true ∨ s.completing k = some .init ∨
      ((s.completing k = some .emit ∨ s.completing k = some .tick) ∧
        (t.engine k).status.emitted = true ∧ (t.engine k).status.feValid = true)

/-- R34: which commands write which data space; every other command leaves its bytes as they were.
(Outside every data space no run lists a byte; only INIT would drop one.) -/
def Obligations.DataSpacesHaveTheirWriters : Prop :=
  ∀ (i : Instr) (s : State) (T : Engine) (off : Nat),
    exec i s = .next (s.setEngine s.active T) →
    T.byteAt s.active off ≠ (s.engine s.active).byteAt s.active off →
    match spaceAt off with
    | some .raw => i = .init
    | some .frm => i = .decode ∨ i = .tick ∨ i = .init
    | some .bin | some .mag => i = .transform ∨ i = .tick ∨ i = .init
    | some .cb => i = .select ∨ i = .emit ∨ i = .tick ∨ i = .init
    | some .tone => i = .synthE ∨ i = .synthF ∨ i = .init
    | none => i = .init

/-- R239, R34: a byte of `RAW` reads the same, written or not, until the host writes its word, the
machine is reset, or INIT of the instance completes. -/
def Obligations.RawBytesAreStable : Prop :=
  ∀ (s t : State) (k : InstanceId) (off : Nat), step s = .next t →
    0x2000 ≤ off → off < 0x4000 →
    (t.engine k).byteAt k off ≠ (s.engine k).byteAt k off →
    s.resetting = true ∨ s.completing k = some .init ∨
      ∃ w rest, s.schedule = .write 32 (k.address (off / 4 * 4)) w :: rest

/-- R20: a command on one instance reads and writes nothing of the other. -/
def Obligations.CommandsAreIsolated : Prop :=
  ∀ (i : Instr) (s s' : State), s.active = s'.active →
    s.engine s.active = s'.engine s.active →
    ∃ T, exec i s = .next (s.setEngine s.active T) ∧ exec i s' = .next (s'.setEngine s.active T) ∧
      (s.setEngine s.active T).engine s.active.other = s.engine s.active.other

/-- R78 (c): the final state of an instance depends only on the events that concern it: leaving out
every host read and every event of the other instance changes nothing for it. -/
def Obligations.InstanceDependsOnItsOwnEventsOnly : Prop :=
  ∀ (s t : State) (k : InstanceId) (evs : List Event),
    s.runEvents evs = .next t →
    ∃ t', s.runEvents (evs.filter (Event.concerns k)) = .next t' ∧ t'.engine k = t.engine k

/-- R237, R238, R73: the machine stops only on a host access of which the spec makes no claim: a write
to an operand register or `NOISE_THR` of an instance with INIT in flight, a write to `RAW` of one with
DECODE or TICK in flight, an access that is not an aligned word, or a read of a register other than
`STATUS` or of a data space of a busy instance. No command ever stops it (R207). -/
def Obligations.StopsOnlyOnHostMisuse : Prop :=
  (∀ (s : State) (f : Fault), step s = .fault f →
    ∃ (addr : BitVec 20) (w : Word) (rest : List Event) (k : InstanceId),
      s.schedule = .write 32 addr w :: rest ∧ addr.toNat % 4 = 0 ∧
      (s.engine k).status.busy = true ∧
      ((f = .initWriteRace ∧ (s.engine k).inFlight = some .init ∧
          ((∃ r, locate addr.toNat = .register k (.operand r)) ∨
            locate addr.toNat = .register k .noiseThr)) ∨
        (f = .rawWriteRace ∧
          ((s.engine k).inFlight = some .decode ∨ (s.engine k).inFlight = some .tick) ∧
          ∃ off, locate addr.toNat = .data k .raw off))) ∧
  (∀ (s : State) (r : Refusal), step s = .refused r →
    ∃ (ev : Event) (rest : List Event), s.schedule = ev :: rest ∧
      ((r = .notAlignedWordAccess ∧
          ((∃ width addr, ev = .read width addr ∧ (width ≠ 32 ∨ addr.toNat % 4 ≠ 0)) ∨
            ∃ width addr w, ev = .write width addr w ∧ (width ≠ 32 ∨ addr.toNat % 4 ≠ 0))) ∨
        (r = .readWhileBusy ∧ ∃ (addr : BitVec 20) (k : InstanceId),
          ev = .read 32 addr ∧ addr.toNat % 4 = 0 ∧ (s.engine k).status.busy = true ∧
          ((∃ reg, reg ≠ .status ∧ locate addr.toNat = .register k reg) ∨
            ∃ sp off, locate addr.toNat = .data k sp off))))

/-- R39: one step keeps the invariants (I1) to (I8) and the canonical form of the memories, from every
state that has them. -/
def Obligations.StepKeepsTheInvariants : Prop :=
  ∀ s t : State, s.Inv → step s = .next t → t.Inv

/-- R39: the reset state has the invariants. -/
def Obligations.ResetStateHasTheInvariants : Prop := State.reset.Inv

/-- R39: every state reached from reset, whatever events come and in whatever order, has them. -/
def Obligations.ReachableStatesHaveTheInvariants : Prop :=
  ∀ (evs : List Event) (n : Nat) (t : State),
    runSteps n { State.reset with schedule := evs } = .next t → t.Inv

/-- R34, R243 (1): one step keeps the elements at and beyond the valid lengths without a known value,
from every state in which they have none. -/
def Obligations.StepKeepsTheTailsUnspecified : Prop :=
  ∀ (s t : State), (∀ k, (s.engine k).TailsUnspecified) → step s = .next t →
    ∀ k, (t.engine k).TailsUnspecified
end

