-- ==== Sys2Proof/Laws/Config.lean ====
section
/-!
SUPPORT. The values of the configuration, one lemma per parameter, so that no proof unfolds the
record.
-/

namespace Sys2Proof

@[simp] theorem Config.params_kNoise : Config.params.kNoise = 3 := rfl

@[simp] theorem Config.params_emitMin : Config.params.emitMin = 4 := rfl

@[simp] theorem Config.params_clampDeltaHz : Config.params.clampDeltaHz = 100 := rfl

@[simp] theorem Config.params_a4Hz : Config.params.a4Hz = 440 := rfl

@[simp] theorem Config.params_noteBase : Config.params.noteBase = 49 := rfl

@[simp] theorem Config.params_octBase : Config.params.octBase = 8 := rfl

@[simp] theorem Config.params_defFrameLen : Config.params.defFrameLen = 1024 := rfl

@[simp] theorem Config.params_defRate : Config.params.defRate = 44100 := rfl

@[simp] theorem Config.params_defDuration : Config.params.defDuration = 1 := rfl

@[simp] theorem Config.params_frac : Config.params.frac = 12 := rfl

@[simp] theorem Config.params_rawCap : Config.params.rawCap = 8192 := rfl

@[simp] theorem Config.params_frmCap : Config.params.frmCap = 1024 := rfl

@[simp] theorem Config.params_logNMax : Config.params.logNMax = 10 := rfl

@[simp] theorem Config.params_cbCap : Config.params.cbCap = 1024 := rfl

@[simp] theorem Config.params_romL : Config.params.romL = 10 := rfl

@[simp] theorem Config.params_phaseW : Config.params.phaseW = 32 := rfl

@[simp] theorem Config.params_resetMinFreq : Config.params.resetMinFreq = 0 := rfl

@[simp] theorem Config.params_resetMaxFreq : Config.params.resetMaxFreq = 90316800 := rfl

@[simp] theorem Config.params_sampleByteOrder : Config.params.sampleByteOrder = .little := rfl

@[simp] theorem Config.params_names : Config.params.names = Config.noteNames := rfl

@[simp] theorem Config.params_sineQuarter : Config.params.sineQuarter = Config.sineQuarter := rfl

@[simp] theorem Config.params_toneAmp : Config.params.toneAmp = 1 / 2 := rfl

@[simp] theorem Config.params_defTickMs : Config.params.defTickMs = 30 := rfl

@[simp] theorem Config.params_ninst : Config.params.ninst = 2 := rfl

@[simp] theorem Config.params_busW : Config.params.busW = 32 := rfl

@[simp] theorem Config.params_sampleW : Config.params.sampleW = 32 := rfl

@[simp] theorem Config.params_specCap : Config.params.specCap = 513 := rfl

@[simp] theorem Config.params_magW : Config.params.magW = 64 := rfl

@[simp] theorem Config.params_romAmp : Config.params.romAmp = 16384 := rfl

@[simp] theorem Config.params_romW : Config.params.romW = 16 := rfl

@[simp] theorem Config.params_toneCap : Config.params.toneCap = 65536 := rfl

@[simp] theorem Config.params_toneW : Config.params.toneW = 16 := rfl

/-- The relations spec/00_scope.md R7 notes between its parameters, with `NMAX = 2 ^ LOGN_MAX`. -/
theorem Config.params_capacities :
    Config.params.frmCap = 2 ^ Config.params.logNMax ∧
    Config.params.rawCap = 4 * 2 * Config.params.frmCap ∧
    Config.params.specCap = Config.params.frmCap / 2 + 1 ∧
    Config.params.resetMinFreq.toInt < Config.params.resetMaxFreq.toInt := by decide

/-- The type of a word is the type of a host transaction. -/
theorem word_eq_busW : Word = BitVec Config.params.busW := rfl

end Sys2Proof
end

