-- ==== Sys2Proof/Laws/Memory.lean ====
section
/-!
SUPPORT. The laws of the byte memory: what one offset reads as after a write, that every write keeps
the canonical form, and that little-endian bytes give back the value they were made from.
-/

namespace Sys2Proof.Machine

@[simp] theorem Memory.get?_nil (a : Nat) : Memory.get? [] a = none := rfl

theorem Memory.get?_cons (b : Nat) (v : Byte) (m : Memory) (a : Nat) :
    Memory.get? ((b, v) :: m) a = if a = b then some v else Memory.get? m a := rfl

theorem Memory.get?_append (m n : Memory) (a : Nat) :
    Memory.get? (m ++ n) a = (Memory.get? m a).or (Memory.get? n a) := by
  induction m with
  | nil => simp
  | cons c m ih =>
    obtain ⟨b, v⟩ := c
    rw [List.cons_append, Memory.get?_cons, Memory.get?_cons, ih]
    split <;> simp

theorem Memory.get?_filter (m : Memory) (p : Nat → Bool) (a : Nat) :
    Memory.get? (m.filter (fun c => p c.1)) a = if p a then Memory.get? m a else none := by
  induction m with
  | nil => simp
  | cons c m ih =>
    obtain ⟨b, v⟩ := c
    rw [List.filter_cons]
    by_cases hb : p b
    · simp only [hb, if_true, Memory.get?_cons, ih]
      by_cases hab : a = b
      · subst hab; simp [hb]
      · simp [hab]
    · simp only [hb, Memory.get?_cons]
      by_cases hab : a = b
      · subst hab; simp [hb, ih]
      · simp [hab, ih]

theorem Memory.get?_cellsFrom (vs : List Byte) (lo a : Nat) :
    Memory.get? (Memory.cellsFrom lo vs) a = if lo ≤ a then vs[a - lo]? else none := by
  induction vs generalizing lo with
  | nil => simp [Memory.cellsFrom]
  | cons v vs ih =>
    rw [Memory.cellsFrom, Memory.get?_cons, ih]
    by_cases h1 : a = lo
    · subst h1; simp
    · by_cases h2 : lo + 1 ≤ a
      · have h3 : a - lo = (a - (lo + 1)) + 1 := by omega
        simp [h1, h2, show lo ≤ a by omega, h3]
      · simp [h1, h2, show ¬ lo ≤ a by omega]

theorem Memory.cellsFrom_bounds (vs : List Byte) (lo : Nat) (c : Host.Cell)
    (h : c ∈ Memory.cellsFrom lo vs) : lo ≤ c.1 ∧ c.1 < lo + vs.length := by
  induction vs generalizing lo with
  | nil => simp [Memory.cellsFrom] at h
  | cons v vs ih =>
    rw [Memory.cellsFrom, List.mem_cons] at h
    rcases h with rfl | h
    · simp
    · have := ih (lo + 1) h
      simp only [List.length_cons]
      omega

theorem Memory.cellsFrom_wf (vs : List Byte) (lo : Nat) : (Memory.cellsFrom lo vs).wf := by
  induction vs generalizing lo with
  | nil => simp [Memory.cellsFrom, Memory.wf]
  | cons v vs ih =>
    rw [Memory.cellsFrom]
    refine List.pairwise_cons.mpr ⟨fun c hc => ?_, ih (lo + 1)⟩
    have := Memory.cellsFrom_bounds vs (lo + 1) c hc
    simp only
    omega

/-- What an offset reads as after `replace`. -/
theorem Memory.get?_replace (m : Memory) (lo hi : Nat) (vs : List Byte) (a : Nat) :
    Memory.get? (m.replace lo hi vs) a =
      if a < lo then Memory.get? m a
      else if a < lo + vs.length then vs[a - lo]?
      else if a < hi then none
      else Memory.get? m a := by
  unfold Memory.replace
  rw [Memory.get?_append, Memory.get?_append, Memory.get?_cellsFrom,
    Memory.get?_filter m (fun x => decide (x < lo)),
    Memory.get?_filter m (fun x => decide (max hi (lo + vs.length) ≤ x))]
  by_cases h1 : a < lo
  · simp [h1, show ¬ lo ≤ a by omega, show ¬ lo + vs.length ≤ a by omega]
  · by_cases h2 : a < lo + vs.length
    · have h3 : a - lo < vs.length := by omega
      simp [h1, h2, show lo ≤ a by omega, List.getElem?_eq_getElem h3]
    · have h3 : vs.length ≤ a - lo := by omega
      by_cases h4 : a < hi
      · simp [h1, h2, h4, show ¬ hi ≤ a by omega, List.getElem?_eq_none h3]
      · simp [h1, h2, h4, show hi ≤ a by omega, show lo + vs.length ≤ a by omega,
          List.getElem?_eq_none h3]

/-- Every write keeps the canonical form. -/
theorem Memory.replace_wf (m : Memory) (lo hi : Nat) (vs : List Byte) (h : m.wf) :
    (m.replace lo hi vs).wf := by
  have key : ∀ c ∈ m.filter (fun c => decide (max hi (lo + vs.length) ≤ c.1)),
      lo + vs.length ≤ c.1 := by
    intro c hc
    have := (List.mem_filter.mp hc).2
    simp only [decide_eq_true_eq] at this
    omega
  have low : ∀ c ∈ m.filter (fun c => decide (c.1 < lo)), c.1 < lo := by
    intro c hc
    simpa using (List.mem_filter.mp hc).2
  unfold Memory.replace Memory.wf
  refine List.pairwise_append.mpr ⟨List.pairwise_append.mpr
    ⟨h.filter _, Memory.cellsFrom_wf vs lo, ?_⟩, h.filter _, ?_⟩
  · intro c hc d hd
    have := Memory.cellsFrom_bounds vs lo d hd
    have := low c hc
    omega
  · intro c hc d hd
    have hk := key d hd
    rcases List.mem_append.mp hc with hc | hc
    · have := low c hc; omega
    · have := Memory.cellsFrom_bounds vs lo c hc; omega

theorem Memory.store_wf (m : Memory) (a : Nat) (vs : List Byte) (h : m.wf) :
    (m.store a vs).wf := Memory.replace_wf m a _ vs h

/-- What an offset reads as after `store`. -/
theorem Memory.get?_store (m : Memory) (lo : Nat) (vs : List Byte) (a : Nat) :
    Memory.get? (m.store lo vs) a =
      if a < lo then Memory.get? m a
      else if a < lo + vs.length then vs[a - lo]?
      else Memory.get? m a := by
  unfold Memory.store
  rw [Memory.get?_replace]
  split_ifs <;> rfl

/-- The cells of a written memory are old cells outside the window or new ones inside it. -/
theorem Memory.mem_replace (m : Memory) (lo hi : Nat) (vs : List Byte) (c : Host.Cell)
    (h : c ∈ m.replace lo hi vs) : c ∈ m ∨ (lo ≤ c.1 ∧ c.1 < lo + vs.length) := by
  unfold Memory.replace at h
  rcases List.mem_append.mp h with h | h
  · rcases List.mem_append.mp h with h | h
    · exact .inl (List.mem_filter.mp h).1
    · exact .inr (Memory.cellsFrom_bounds vs lo c h)
  · exact .inl (List.mem_filter.mp h).1

/-! ### Little-endian bytes -/

@[simp] theorem leBytes_length (n v : Nat) : (leBytes n v).length = n := by
  induction n generalizing v with
  | zero => rfl
  | succ n ih => simp [leBytes, ih]

theorem leNat_leBytes (n v : Nat) (h : v < 256 ^ n) : leNat (leBytes n v) = v := by
  induction n generalizing v with
  | zero => simp [leBytes, leNat] at *; omega
  | succ n ih =>
    have hv : v / 256 < 256 ^ n := by
      rw [Nat.div_lt_iff_lt_mul (by norm_num)]
      rw [pow_succ] at h; exact h
    simp only [leBytes, leNat, ih _ hv, BitVec.toNat_ofNat]
    omega

theorem leNat_lt (bs : List Byte) : leNat bs < 256 ^ bs.length := by
  induction bs with
  | nil => simp [leNat]
  | cons b bs ih =>
    have := b.isLt
    simp only [leNat, List.length_cons, pow_succ]
    omega

/-! ### The spaces do not overlap -/

/-- The element widths and the capacities in numbers (spec/20_memory.md R71). -/
theorem Space.elemBytes_eq (sp : Space) : sp.elemBytes =
    match sp with | .raw => 1 | .frm => 4 | .bin => 4 | .mag => 8 | .cb => 4 | .tone => 2 := by
  cases sp <;> rfl

theorem Space.count_eq (sp : Space) : sp.count =
    match sp with
    | .raw => 8192 | .frm => 1024 | .bin => 513 | .mag => 513 | .cb => 1024 | .tone => 65536 := by
  cases sp <;> rfl

theorem Space.holds_iff (sp : Space) (off : Nat) :
    sp.holds off = true ↔ sp.base ≤ off ∧ off < sp.limit := by
  simp [Space.holds]

/-- No offset lies in two spaces (spec/20_memory.md R75). -/
theorem Space.disjoint {sp sp' : Space} {off : Nat} (h : sp.holds off = true)
    (h' : sp'.holds off = true) : sp = sp' := by
  rw [Space.holds_iff] at h h'
  cases sp <;> cases sp' <;> first | rfl |
    (simp only [Space.base, Space.limit, Space.elemBytes_eq, Space.count_eq] at h h'; omega)

/-- `spaceAt` finds exactly the space that holds the offset. -/
theorem spaceAt_eq_some (sp : Space) (off : Nat) :
    spaceAt off = some sp ↔ sp.holds off = true := by
  constructor
  · intro h
    exact List.find?_some (p := fun sp => Space.holds sp off) h
  · intro h
    cases hs : spaceAt off with
    | none =>
      have := List.find?_eq_none.mp hs sp (by cases sp <;> simp)
      exact absurd h this
    | some sp' =>
      rw [Space.disjoint (List.find?_some (p := fun sp => Space.holds sp off) hs) h]

end Sys2Proof.Machine
end

