-- ==== Sys2Proof/Laws/State.lean ====
section
/-!
SUPPORT. One lemma per field per update of the state records, each true by `rfl`, so that no proof
unfolds an update.
-/

namespace Sys2Proof.Machine

/-! ### `Status` -/

@[simp] theorem Status.completed_busy (st : Status) (c : BitVec 4) (j : BitVec 3) (b : Bool) :
    (st.completed c j b).busy = false := rfl

@[simp] theorem Status.completed_overrun (st : Status) (c : BitVec 4) (j : BitVec 3) (b : Bool) :
    (st.completed c j b).overrun = st.overrun := rfl

@[simp] theorem Status.completed_err (st : Status) (c : BitVec 4) (j : BitVec 3) (b : Bool) :
    (st.completed c j b).err = c := rfl

@[simp] theorem Status.completed_feValid (st : Status) (c : BitVec 4) (j : BitVec 3) (b : Bool) :
    (st.completed c j b).feValid = st.feValid := rfl

@[simp] theorem Status.completed_emitted (st : Status) (c : BitVec 4) (j : BitVec 3) (b : Bool) :
    (st.completed c j b).emitted = b := rfl

@[simp] theorem Status.completed_noteValid (st : Status) (c : BitVec 4) (j : BitVec 3) (b : Bool) :
    (st.completed c j b).noteValid = st.noteValid := rfl

@[simp] theorem Status.completed_stage (st : Status) (c : BitVec 4) (j : BitVec 3) (b : Bool) :
    (st.completed c j b).stage = j := rfl

@[simp] theorem Status.accepted_busy (st : Status) : st.accepted.busy = true := rfl

@[simp] theorem Status.accepted_overrun (st : Status) : st.accepted.overrun = st.overrun := rfl

@[simp] theorem Status.accepted_err (st : Status) : st.accepted.err = st.err := rfl

@[simp] theorem Status.accepted_feValid (st : Status) : st.accepted.feValid = st.feValid := rfl

@[simp] theorem Status.accepted_emitted (st : Status) : st.accepted.emitted = st.emitted := rfl

@[simp] theorem Status.accepted_noteValid (st : Status) : st.accepted.noteValid = st.noteValid := rfl

@[simp] theorem Status.accepted_stage (st : Status) : st.accepted.stage = st.stage := rfl

@[simp] theorem Status.overran_busy (st : Status) : st.overran.busy = st.busy := rfl

@[simp] theorem Status.overran_overrun (st : Status) : st.overran.overrun = true := rfl

@[simp] theorem Status.overran_err (st : Status) : st.overran.err = st.err := rfl

@[simp] theorem Status.overran_feValid (st : Status) : st.overran.feValid = st.feValid := rfl

@[simp] theorem Status.overran_emitted (st : Status) : st.overran.emitted = st.emitted := rfl

@[simp] theorem Status.overran_noteValid (st : Status) : st.overran.noteValid = st.noteValid := rfl

@[simp] theorem Status.overran_stage (st : Status) : st.overran.stage = st.stage := rfl

/-! ### `Engine` -/

@[simp] theorem Engine.fill_cmd (e : Engine) (sp : Space) (vs : List Int) :
    (e.fill sp vs).cmd = e.cmd := rfl

@[simp] theorem Engine.fill_operands (e : Engine) (sp : Space) (vs : List Int) :
    (e.fill sp vs).operands = e.operands := rfl

@[simp] theorem Engine.fill_latched (e : Engine) (sp : Space) (vs : List Int) :
    (e.fill sp vs).latched = e.latched := rfl

@[simp] theorem Engine.fill_status (e : Engine) (sp : Space) (vs : List Int) :
    (e.fill sp vs).status = e.status := rfl

@[simp] theorem Engine.fill_noiseThr (e : Engine) (sp : Space) (vs : List Int) :
    (e.fill sp vs).noiseThr = e.noiseThr := rfl

@[simp] theorem Engine.fill_minFreq (e : Engine) (sp : Space) (vs : List Int) :
    (e.fill sp vs).minFreq = e.minFreq := rfl

@[simp] theorem Engine.fill_maxFreq (e : Engine) (sp : Space) (vs : List Int) :
    (e.fill sp vs).maxFreq = e.maxFreq := rfl

@[simp] theorem Engine.fill_fe (e : Engine) (sp : Space) (vs : List Int) :
    (e.fill sp vs).fe = e.fe := rfl

@[simp] theorem Engine.fill_noteRes (e : Engine) (sp : Space) (vs : List Int) :
    (e.fill sp vs).noteRes = e.noteRes := rfl

@[simp] theorem Engine.fill_frmLen (e : Engine) (sp : Space) (vs : List Int) :
    (e.fill sp vs).frmLen = e.frmLen := rfl

@[simp] theorem Engine.fill_specLen (e : Engine) (sp : Space) (vs : List Int) :
    (e.fill sp vs).specLen = e.specLen := rfl

@[simp] theorem Engine.fill_cbLen (e : Engine) (sp : Space) (vs : List Int) :
    (e.fill sp vs).cbLen = e.cbLen := rfl

@[simp] theorem Engine.fill_toneLen (e : Engine) (sp : Space) (vs : List Int) :
    (e.fill sp vs).toneLen = e.toneLen := rfl

@[simp] theorem Engine.fill_mem (e : Engine) (sp : Space) (vs : List Int) :
    (e.fill sp vs).mem = e.mem.replace sp.base sp.limit (sp.bytesOf vs) := rfl

@[simp] theorem Engine.fill_epochs (e : Engine) (sp : Space) (vs : List Int) :
    (e.fill sp vs).epochs = e.epochs.bump sp := rfl

@[simp] theorem Engine.writeFrom_cmd (e : Engine) (sp : Space) (i : Nat) (vs : List Int) :
    (e.writeFrom sp i vs).cmd = e.cmd := rfl

@[simp] theorem Engine.writeFrom_operands (e : Engine) (sp : Space) (i : Nat) (vs : List Int) :
    (e.writeFrom sp i vs).operands = e.operands := rfl

@[simp] theorem Engine.writeFrom_latched (e : Engine) (sp : Space) (i : Nat) (vs : List Int) :
    (e.writeFrom sp i vs).latched = e.latched := rfl

@[simp] theorem Engine.writeFrom_status (e : Engine) (sp : Space) (i : Nat) (vs : List Int) :
    (e.writeFrom sp i vs).status = e.status := rfl

@[simp] theorem Engine.writeFrom_noiseThr (e : Engine) (sp : Space) (i : Nat) (vs : List Int) :
    (e.writeFrom sp i vs).noiseThr = e.noiseThr := rfl

@[simp] theorem Engine.writeFrom_minFreq (e : Engine) (sp : Space) (i : Nat) (vs : List Int) :
    (e.writeFrom sp i vs).minFreq = e.minFreq := rfl

@[simp] theorem Engine.writeFrom_maxFreq (e : Engine) (sp : Space) (i : Nat) (vs : List Int) :
    (e.writeFrom sp i vs).maxFreq = e.maxFreq := rfl

@[simp] theorem Engine.writeFrom_fe (e : Engine) (sp : Space) (i : Nat) (vs : List Int) :
    (e.writeFrom sp i vs).fe = e.fe := rfl

@[simp] theorem Engine.writeFrom_noteRes (e : Engine) (sp : Space) (i : Nat) (vs : List Int) :
    (e.writeFrom sp i vs).noteRes = e.noteRes := rfl

@[simp] theorem Engine.writeFrom_frmLen (e : Engine) (sp : Space) (i : Nat) (vs : List Int) :
    (e.writeFrom sp i vs).frmLen = e.frmLen := rfl

@[simp] theorem Engine.writeFrom_specLen (e : Engine) (sp : Space) (i : Nat) (vs : List Int) :
    (e.writeFrom sp i vs).specLen = e.specLen := rfl

@[simp] theorem Engine.writeFrom_cbLen (e : Engine) (sp : Space) (i : Nat) (vs : List Int) :
    (e.writeFrom sp i vs).cbLen = e.cbLen := rfl

@[simp] theorem Engine.writeFrom_toneLen (e : Engine) (sp : Space) (i : Nat) (vs : List Int) :
    (e.writeFrom sp i vs).toneLen = e.toneLen := rfl

@[simp] theorem Engine.writeFrom_mem (e : Engine) (sp : Space) (i : Nat) (vs : List Int) :
    (e.writeFrom sp i vs).mem = e.mem.store (sp.base + sp.elemBytes * i) (sp.bytesOf vs) := rfl

@[simp] theorem Engine.writeFrom_epochs (e : Engine) (sp : Space) (i : Nat) (vs : List Int) :
    (e.writeFrom sp i vs).epochs = e.epochs := rfl

@[simp] theorem Engine.done_cmd (e : Engine) (b : Bool) :
    (e.done b).cmd = e.cmd := rfl

@[simp] theorem Engine.done_operands (e : Engine) (b : Bool) :
    (e.done b).operands = e.operands := rfl

@[simp] theorem Engine.done_latched (e : Engine) (b : Bool) :
    (e.done b).latched = e.latched := rfl

@[simp] theorem Engine.done_status (e : Engine) (b : Bool) :
    (e.done b).status = e.status.completed 0 0 b := rfl

@[simp] theorem Engine.done_noiseThr (e : Engine) (b : Bool) :
    (e.done b).noiseThr = e.noiseThr := rfl

@[simp] theorem Engine.done_minFreq (e : Engine) (b : Bool) :
    (e.done b).minFreq = e.minFreq := rfl

@[simp] theorem Engine.done_maxFreq (e : Engine) (b : Bool) :
    (e.done b).maxFreq = e.maxFreq := rfl

@[simp] theorem Engine.done_fe (e : Engine) (b : Bool) :
    (e.done b).fe = e.fe := rfl

@[simp] theorem Engine.done_noteRes (e : Engine) (b : Bool) :
    (e.done b).noteRes = e.noteRes := rfl

@[simp] theorem Engine.done_frmLen (e : Engine) (b : Bool) :
    (e.done b).frmLen = e.frmLen := rfl

@[simp] theorem Engine.done_specLen (e : Engine) (b : Bool) :
    (e.done b).specLen = e.specLen := rfl

@[simp] theorem Engine.done_cbLen (e : Engine) (b : Bool) :
    (e.done b).cbLen = e.cbLen := rfl

@[simp] theorem Engine.done_toneLen (e : Engine) (b : Bool) :
    (e.done b).toneLen = e.toneLen := rfl

@[simp] theorem Engine.done_mem (e : Engine) (b : Bool) :
    (e.done b).mem = e.mem := rfl

@[simp] theorem Engine.done_epochs (e : Engine) (b : Bool) :
    (e.done b).epochs = e.epochs := rfl

@[simp] theorem Engine.raise_cmd (e : Engine) (kind : ErrorKind) (j : BitVec 3) (b : Bool) :
    (e.raise kind j b).cmd = e.cmd := rfl

@[simp] theorem Engine.raise_operands (e : Engine) (kind : ErrorKind) (j : BitVec 3) (b : Bool) :
    (e.raise kind j b).operands = e.operands := rfl

@[simp] theorem Engine.raise_latched (e : Engine) (kind : ErrorKind) (j : BitVec 3) (b : Bool) :
    (e.raise kind j b).latched = e.latched := rfl

@[simp] theorem Engine.raise_status (e : Engine) (kind : ErrorKind) (j : BitVec 3) (b : Bool) :
    (e.raise kind j b).status = e.status.completed kind.code j b := rfl

@[simp] theorem Engine.raise_noiseThr (e : Engine) (kind : ErrorKind) (j : BitVec 3) (b : Bool) :
    (e.raise kind j b).noiseThr = e.noiseThr := rfl

@[simp] theorem Engine.raise_minFreq (e : Engine) (kind : ErrorKind) (j : BitVec 3) (b : Bool) :
    (e.raise kind j b).minFreq = e.minFreq := rfl

@[simp] theorem Engine.raise_maxFreq (e : Engine) (kind : ErrorKind) (j : BitVec 3) (b : Bool) :
    (e.raise kind j b).maxFreq = e.maxFreq := rfl

@[simp] theorem Engine.raise_fe (e : Engine) (kind : ErrorKind) (j : BitVec 3) (b : Bool) :
    (e.raise kind j b).fe = e.fe := rfl

@[simp] theorem Engine.raise_noteRes (e : Engine) (kind : ErrorKind) (j : BitVec 3) (b : Bool) :
    (e.raise kind j b).noteRes = e.noteRes := rfl

@[simp] theorem Engine.raise_frmLen (e : Engine) (kind : ErrorKind) (j : BitVec 3) (b : Bool) :
    (e.raise kind j b).frmLen = e.frmLen := rfl

@[simp] theorem Engine.raise_specLen (e : Engine) (kind : ErrorKind) (j : BitVec 3) (b : Bool) :
    (e.raise kind j b).specLen = e.specLen := rfl

@[simp] theorem Engine.raise_cbLen (e : Engine) (kind : ErrorKind) (j : BitVec 3) (b : Bool) :
    (e.raise kind j b).cbLen = e.cbLen := rfl

@[simp] theorem Engine.raise_toneLen (e : Engine) (kind : ErrorKind) (j : BitVec 3) (b : Bool) :
    (e.raise kind j b).toneLen = e.toneLen := rfl

@[simp] theorem Engine.raise_mem (e : Engine) (kind : ErrorKind) (j : BitVec 3) (b : Bool) :
    (e.raise kind j b).mem = e.mem := rfl

@[simp] theorem Engine.raise_epochs (e : Engine) (kind : ErrorKind) (j : BitVec 3) (b : Bool) :
    (e.raise kind j b).epochs = e.epochs := rfl

@[simp] theorem Engine.accept_cmd (e : Engine) (w : Word) :
    (e.accept w).cmd = w := rfl

@[simp] theorem Engine.accept_operands (e : Engine) (w : Word) :
    (e.accept w).operands = e.operands := rfl

@[simp] theorem Engine.accept_latched (e : Engine) (w : Word) :
    (e.accept w).latched = e.operands := rfl

@[simp] theorem Engine.accept_status (e : Engine) (w : Word) :
    (e.accept w).status = e.status.accepted := rfl

@[simp] theorem Engine.accept_noiseThr (e : Engine) (w : Word) :
    (e.accept w).noiseThr = e.noiseThr := rfl

@[simp] theorem Engine.accept_minFreq (e : Engine) (w : Word) :
    (e.accept w).minFreq = e.minFreq := rfl

@[simp] theorem Engine.accept_maxFreq (e : Engine) (w : Word) :
    (e.accept w).maxFreq = e.maxFreq := rfl

@[simp] theorem Engine.accept_fe (e : Engine) (w : Word) :
    (e.accept w).fe = e.fe := rfl

@[simp] theorem Engine.accept_noteRes (e : Engine) (w : Word) :
    (e.accept w).noteRes = e.noteRes := rfl

@[simp] theorem Engine.accept_frmLen (e : Engine) (w : Word) :
    (e.accept w).frmLen = e.frmLen := rfl

@[simp] theorem Engine.accept_specLen (e : Engine) (w : Word) :
    (e.accept w).specLen = e.specLen := rfl

@[simp] theorem Engine.accept_cbLen (e : Engine) (w : Word) :
    (e.accept w).cbLen = e.cbLen := rfl

@[simp] theorem Engine.accept_toneLen (e : Engine) (w : Word) :
    (e.accept w).toneLen = e.toneLen := rfl

@[simp] theorem Engine.accept_mem (e : Engine) (w : Word) :
    (e.accept w).mem = e.mem := rfl

@[simp] theorem Engine.accept_epochs (e : Engine) (w : Word) :
    (e.accept w).epochs = e.epochs := rfl

@[simp] theorem Engine.writeRaw_cmd (e : Engine) (off : Nat) (w : Word) :
    (e.writeRaw off w).cmd = e.cmd := rfl

@[simp] theorem Engine.writeRaw_operands (e : Engine) (off : Nat) (w : Word) :
    (e.writeRaw off w).operands = e.operands := rfl

@[simp] theorem Engine.writeRaw_latched (e : Engine) (off : Nat) (w : Word) :
    (e.writeRaw off w).latched = e.latched := rfl

@[simp] theorem Engine.writeRaw_status (e : Engine) (off : Nat) (w : Word) :
    (e.writeRaw off w).status = e.status := rfl

@[simp] theorem Engine.writeRaw_noiseThr (e : Engine) (off : Nat) (w : Word) :
    (e.writeRaw off w).noiseThr = e.noiseThr := rfl

@[simp] theorem Engine.writeRaw_minFreq (e : Engine) (off : Nat) (w : Word) :
    (e.writeRaw off w).minFreq = e.minFreq := rfl

@[simp] theorem Engine.writeRaw_maxFreq (e : Engine) (off : Nat) (w : Word) :
    (e.writeRaw off w).maxFreq = e.maxFreq := rfl

@[simp] theorem Engine.writeRaw_fe (e : Engine) (off : Nat) (w : Word) :
    (e.writeRaw off w).fe = e.fe := rfl

@[simp] theorem Engine.writeRaw_noteRes (e : Engine) (off : Nat) (w : Word) :
    (e.writeRaw off w).noteRes = e.noteRes := rfl

@[simp] theorem Engine.writeRaw_frmLen (e : Engine) (off : Nat) (w : Word) :
    (e.writeRaw off w).frmLen = e.frmLen := rfl

@[simp] theorem Engine.writeRaw_specLen (e : Engine) (off : Nat) (w : Word) :
    (e.writeRaw off w).specLen = e.specLen := rfl

@[simp] theorem Engine.writeRaw_cbLen (e : Engine) (off : Nat) (w : Word) :
    (e.writeRaw off w).cbLen = e.cbLen := rfl

@[simp] theorem Engine.writeRaw_toneLen (e : Engine) (off : Nat) (w : Word) :
    (e.writeRaw off w).toneLen = e.toneLen := rfl

@[simp] theorem Engine.writeRaw_mem (e : Engine) (off : Nat) (w : Word) :
    (e.writeRaw off w).mem = e.mem.store off (bytesOfWord w) := rfl

@[simp] theorem Engine.writeRaw_epochs (e : Engine) (off : Nat) (w : Word) :
    (e.writeRaw off w).epochs = e.epochs := rfl

@[simp] theorem Engine.clearCandidates_cmd (e : Engine) :
    (e.clearCandidates).cmd = e.cmd := rfl

@[simp] theorem Engine.clearCandidates_operands (e : Engine) :
    (e.clearCandidates).operands = e.operands := rfl

@[simp] theorem Engine.clearCandidates_latched (e : Engine) :
    (e.clearCandidates).latched = e.latched := rfl

@[simp] theorem Engine.clearCandidates_status (e : Engine) :
    (e.clearCandidates).status = e.status := rfl

@[simp] theorem Engine.clearCandidates_noiseThr (e : Engine) :
    (e.clearCandidates).noiseThr = e.noiseThr := rfl

@[simp] theorem Engine.clearCandidates_minFreq (e : Engine) :
    (e.clearCandidates).minFreq = e.minFreq := rfl

@[simp] theorem Engine.clearCandidates_maxFreq (e : Engine) :
    (e.clearCandidates).maxFreq = e.maxFreq := rfl

@[simp] theorem Engine.clearCandidates_fe (e : Engine) :
    (e.clearCandidates).fe = e.fe := rfl

@[simp] theorem Engine.clearCandidates_noteRes (e : Engine) :
    (e.clearCandidates).noteRes = e.noteRes := rfl

@[simp] theorem Engine.clearCandidates_frmLen (e : Engine) :
    (e.clearCandidates).frmLen = e.frmLen := rfl

@[simp] theorem Engine.clearCandidates_specLen (e : Engine) :
    (e.clearCandidates).specLen = e.specLen := rfl

@[simp] theorem Engine.clearCandidates_cbLen (e : Engine) :
    (e.clearCandidates).cbLen = 0 := rfl

@[simp] theorem Engine.clearCandidates_toneLen (e : Engine) :
    (e.clearCandidates).toneLen = e.toneLen := rfl

@[simp] theorem Engine.clearCandidates_mem (e : Engine) :
    (e.clearCandidates).mem = e.mem.replace Space.cb.base Space.cb.limit [] := rfl

@[simp] theorem Engine.clearCandidates_epochs (e : Engine) :
    (e.clearCandidates).epochs = e.epochs.bump .cb := rfl

@[simp] theorem Engine.withNoteValid_cmd (e : Engine) (v : Bool) :
    (e.withNoteValid v).cmd = e.cmd := rfl

@[simp] theorem Engine.withNoteValid_operands (e : Engine) (v : Bool) :
    (e.withNoteValid v).operands = e.operands := rfl

@[simp] theorem Engine.withNoteValid_latched (e : Engine) (v : Bool) :
    (e.withNoteValid v).latched = e.latched := rfl

@[simp] theorem Engine.withNoteValid_status (e : Engine) (v : Bool) :
    (e.withNoteValid v).status = { e.status with noteValid := v } := rfl

@[simp] theorem Engine.withNoteValid_noiseThr (e : Engine) (v : Bool) :
    (e.withNoteValid v).noiseThr = e.noiseThr := rfl

@[simp] theorem Engine.withNoteValid_minFreq (e : Engine) (v : Bool) :
    (e.withNoteValid v).minFreq = e.minFreq := rfl

@[simp] theorem Engine.withNoteValid_maxFreq (e : Engine) (v : Bool) :
    (e.withNoteValid v).maxFreq = e.maxFreq := rfl

@[simp] theorem Engine.withNoteValid_fe (e : Engine) (v : Bool) :
    (e.withNoteValid v).fe = e.fe := rfl

@[simp] theorem Engine.withNoteValid_noteRes (e : Engine) (v : Bool) :
    (e.withNoteValid v).noteRes = e.noteRes := rfl

@[simp] theorem Engine.withNoteValid_frmLen (e : Engine) (v : Bool) :
    (e.withNoteValid v).frmLen = e.frmLen := rfl

@[simp] theorem Engine.withNoteValid_specLen (e : Engine) (v : Bool) :
    (e.withNoteValid v).specLen = e.specLen := rfl

@[simp] theorem Engine.withNoteValid_cbLen (e : Engine) (v : Bool) :
    (e.withNoteValid v).cbLen = e.cbLen := rfl

@[simp] theorem Engine.withNoteValid_toneLen (e : Engine) (v : Bool) :
    (e.withNoteValid v).toneLen = e.toneLen := rfl

@[simp] theorem Engine.withNoteValid_mem (e : Engine) (v : Bool) :
    (e.withNoteValid v).mem = e.mem := rfl

@[simp] theorem Engine.withNoteValid_epochs (e : Engine) (v : Bool) :
    (e.withNoteValid v).epochs = e.epochs := rfl

@[simp] theorem Engine.withBand_cmd (e : Engine) (lo hi : Int) :
    (e.withBand lo hi).cmd = e.cmd := rfl

@[simp] theorem Engine.withBand_operands (e : Engine) (lo hi : Int) :
    (e.withBand lo hi).operands = e.operands := rfl

@[simp] theorem Engine.withBand_latched (e : Engine) (lo hi : Int) :
    (e.withBand lo hi).latched = e.latched := rfl

@[simp] theorem Engine.withBand_status (e : Engine) (lo hi : Int) :
    (e.withBand lo hi).status = e.status := rfl

@[simp] theorem Engine.withBand_noiseThr (e : Engine) (lo hi : Int) :
    (e.withBand lo hi).noiseThr = e.noiseThr := rfl

@[simp] theorem Engine.withBand_minFreq (e : Engine) (lo hi : Int) :
    (e.withBand lo hi).minFreq = BitVec.ofInt 32 lo := rfl

@[simp] theorem Engine.withBand_maxFreq (e : Engine) (lo hi : Int) :
    (e.withBand lo hi).maxFreq = BitVec.ofInt 32 hi := rfl

@[simp] theorem Engine.withBand_fe (e : Engine) (lo hi : Int) :
    (e.withBand lo hi).fe = e.fe := rfl

@[simp] theorem Engine.withBand_noteRes (e : Engine) (lo hi : Int) :
    (e.withBand lo hi).noteRes = e.noteRes := rfl

@[simp] theorem Engine.withBand_frmLen (e : Engine) (lo hi : Int) :
    (e.withBand lo hi).frmLen = e.frmLen := rfl

@[simp] theorem Engine.withBand_specLen (e : Engine) (lo hi : Int) :
    (e.withBand lo hi).specLen = e.specLen := rfl

@[simp] theorem Engine.withBand_cbLen (e : Engine) (lo hi : Int) :
    (e.withBand lo hi).cbLen = e.cbLen := rfl

@[simp] theorem Engine.withBand_toneLen (e : Engine) (lo hi : Int) :
    (e.withBand lo hi).toneLen = e.toneLen := rfl

@[simp] theorem Engine.withBand_mem (e : Engine) (lo hi : Int) :
    (e.withBand lo hi).mem = e.mem := rfl

@[simp] theorem Engine.withBand_epochs (e : Engine) (lo hi : Int) :
    (e.withBand lo hi).epochs = e.epochs := rfl

@[simp] theorem Engine.toReset_cmd (e : Engine) : e.toReset.cmd = 0 := rfl

@[simp] theorem Engine.toReset_operands (e : Engine) : e.toReset.operands = Operands.reset := rfl

@[simp] theorem Engine.toReset_latched (e : Engine) : e.toReset.latched = Operands.zero := rfl

@[simp] theorem Engine.toReset_status (e : Engine) : e.toReset.status = Status.reset := rfl

@[simp] theorem Engine.toReset_noiseThr (e : Engine) : e.toReset.noiseThr = 0 := rfl

@[simp] theorem Engine.toReset_minFreq (e : Engine) : e.toReset.minFreq = Config.params.resetMinFreq := rfl

@[simp] theorem Engine.toReset_maxFreq (e : Engine) : e.toReset.maxFreq = Config.params.resetMaxFreq := rfl

@[simp] theorem Engine.toReset_fe (e : Engine) : e.toReset.fe = 0 := rfl

@[simp] theorem Engine.toReset_noteRes (e : Engine) : e.toReset.noteRes = 0 := rfl

@[simp] theorem Engine.toReset_frmLen (e : Engine) : e.toReset.frmLen = 0 := rfl

@[simp] theorem Engine.toReset_specLen (e : Engine) : e.toReset.specLen = 0 := rfl

@[simp] theorem Engine.toReset_cbLen (e : Engine) : e.toReset.cbLen = 0 := rfl

@[simp] theorem Engine.toReset_toneLen (e : Engine) : e.toReset.toneLen = 0 := rfl

@[simp] theorem Engine.toReset_mem (e : Engine) : e.toReset.mem = [] := rfl

@[simp] theorem Engine.toReset_epochs (e : Engine) : e.toReset.epochs = e.epochs.bumpAll := rfl

/-! ### `State` -/

@[simp] theorem InstanceId.other_ne (k : InstanceId) : k.other ≠ k := by cases k <;> decide

@[simp] theorem State.engine_live (s : State) : s.engine .live = s.live := rfl

@[simp] theorem State.engine_file (s : State) : s.engine .file = s.file := rfl

@[simp] theorem State.engine_setEngine_same (s : State) (k : InstanceId) (e : Engine) :
    (s.setEngine k e).engine k = e := by cases k <;> rfl

theorem State.engine_setEngine_ne (s : State) {k j : InstanceId} (e : Engine) (h : j ≠ k) :
    (s.setEngine k e).engine j = s.engine j := by
  cases k <;> cases j <;> first | rfl | exact absurd rfl h

@[simp] theorem State.engine_setEngine_other (s : State) (k : InstanceId) (e : Engine) :
    (s.setEngine k e).engine k.other = s.engine k.other := by cases k <;> rfl

@[simp] theorem State.setEngine_engine (s : State) (k : InstanceId) :
    s.setEngine k (s.engine k) = s := by cases k <;> rfl

@[simp] theorem State.setEngine_setEngine (s : State) (k : InstanceId) (e e' : Engine) :
    (s.setEngine k e).setEngine k e' = s.setEngine k e' := by cases k <;> rfl

@[simp] theorem State.setEngine_active (s : State) (k : InstanceId) (e : Engine) :
    (s.setEngine k e).active = s.active := by cases k <;> rfl

@[simp] theorem State.setEngine_readData (s : State) (k : InstanceId) (e : Engine) :
    (s.setEngine k e).readData = s.readData := by cases k <;> rfl

@[simp] theorem State.setEngine_freeReads (s : State) (k : InstanceId) (e : Engine) :
    (s.setEngine k e).freeReads = s.freeReads := by cases k <;> rfl

@[simp] theorem State.setEngine_schedule (s : State) (k : InstanceId) (e : Engine) :
    (s.setEngine k e).schedule = s.schedule := by cases k <;> rfl

/-- What a command's completion is: a next state that differs in the active instance only. -/
theorem State.completeActive_eq (s : State) (f : InstanceId → Engine → Engine) :
    s.completeActive f = .next (s.setEngine s.active (f s.active (s.engine s.active))) := rfl

end Sys2Proof.Machine
end

