-- ==== Sys2Proof/Laws/Ops.lean ====
section
/-!
SUPPORT. The laws of the shared operations over an instance's memory: what `fill` and `writeFrom`
leave at every offset, and what elements read as afterwards.
-/

namespace Sys2Proof.Machine

theorem Space.elemBytes_pos (sp : Space) : 0 < sp.elemBytes := by cases sp <;> decide

/-- Samples and tone samples at the widths of spec/00_scope.md R7. -/
theorem Engine.sample_eq (k : InstanceId) (e : Engine) (i : Nat) :
    e.sample k i = (BitVec.ofNat 32 (e.elem k .frm i)).toInt := rfl

theorem Engine.toneSample_eq (k : InstanceId) (e : Engine) (n : Nat) :
    e.toneSample k n = (BitVec.ofNat 16 (e.elem k .tone n)).toInt := rfl

@[simp] theorem Space.bytesOf_nil (sp : Space) : sp.bytesOf [] = [] := rfl

@[simp] theorem Space.bytesOf_length (sp : Space) (vals : List Int) :
    (sp.bytesOf vals).length = sp.elemBytes * vals.length := by
  unfold Space.bytesOf
  induction vals with
  | nil => simp
  | cons v vals ih => simp [List.flatMap_cons, ih, Nat.mul_add, Nat.add_comm]

/-- Byte `j` of element `i` of a written list. -/
theorem Space.bytesOf_getElem? (sp : Space) (vals : List Int) (i j : Nat) (hi : i < vals.length)
    (hj : j < sp.elemBytes) :
    (sp.bytesOf vals)[sp.elemBytes * i + j]? =
      (leBytes sp.elemBytes (vals[i] % 256 ^ sp.elemBytes).toNat)[j]? := by
  unfold Space.bytesOf
  induction vals generalizing i with
  | nil => simp at hi
  | cons v vals ih =>
    rw [List.flatMap_cons]
    cases i with
    | zero =>
      rw [List.getElem?_append_left (by simpa using hj)]
      simp
    | succ i =>
      rw [List.getElem?_append_right (by simp [Nat.mul_add]; omega)]
      have h1 : sp.elemBytes * (i + 1) + j - (leBytes sp.elemBytes
          (v % 256 ^ sp.elemBytes).toNat).length = sp.elemBytes * i + j := by
        simp [Nat.mul_add]; omega
      rw [h1, ih i (by simpa using hi)]
      simp

/-! ### Generations -/

theorem Epochs.at_bump_ne (ep : Epochs) {sp sp' : Space} (h : sp'.limit ≤ sp.base ∨
    sp.limit ≤ sp'.base) (hbm : ¬ (sp = .bin ∧ sp' = .mag)) (hmb : ¬ (sp = .mag ∧ sp' = .bin)) :
    (ep.bump sp).at sp' = ep.at sp' := by
  cases sp <;> cases sp' <;> first | rfl | simp_all [Space.base, Space.limit, Space.elemBytes_eq, Space.count_eq]

/-- The generation at an offset changes only inside the space bumped (`BIN` and `MAG` share one). -/
theorem Epochs.atOffset_bump (ep : Epochs) (sp : Space) (off : Nat)
    (h : sp.holds off = false) (hs : sp = .bin → Space.mag.holds off = false)
    (hs' : sp = .mag → Space.bin.holds off = false) :
    (ep.bump sp).atOffset off = ep.atOffset off := by
  unfold Epochs.atOffset
  cases hsp : spaceAt off with
  | none => rfl
  | some sp' =>
    have h' := (spaceAt_eq_some sp' off).mp hsp
    cases sp <;> cases sp' <;> simp_all [Epochs.bump, Epochs.at]

/-! ### Bytes after a write -/

theorem Engine.byteAt_congr (k : InstanceId) {e e' : Engine} (off : Nat)
    (hm : e'.mem.get? off = e.mem.get? off)
    (he : e'.epochs.atOffset off = e.epochs.atOffset off) :
    e'.byteAt k off = e.byteAt k off := by
  unfold Engine.byteAt
  rw [hm, he]

/-- `fill` writes nothing outside its space. -/
theorem Engine.get?_fill_outside (e : Engine) (sp : Space) (vals : List Int) (off : Nat)
    (hlen : vals.length ≤ sp.count) (h : sp.holds off = false) :
    (e.fill sp vals).mem.get? off = e.mem.get? off := by
  rw [Engine.fill_mem, Memory.get?_replace, Space.bytesOf_length]
  have hle : sp.elemBytes * vals.length ≤ sp.elemBytes * sp.count := Nat.mul_le_mul_left _ hlen
  have hnot : ¬ (sp.base ≤ off ∧ off < sp.limit) := by
    rw [← Space.holds_iff, h]; simp
  unfold Space.limit at *
  split_ifs <;> first | rfl | (exfalso; omega)

/-- After `fill`, the bytes beyond the last element written are unspecified. -/
theorem Engine.get?_fill_beyond (e : Engine) (sp : Space) (vals : List Int) (off : Nat)
    (h1 : sp.base + sp.elemBytes * vals.length ≤ off) (h2 : off < sp.limit) :
    (e.fill sp vals).mem.get? off = none := by
  rw [Engine.fill_mem, Memory.get?_replace, Space.bytesOf_length]
  split_ifs <;> first | rfl | omega

/-- `fill` leaves every byte outside its space as it was. -/
theorem Engine.byteAt_fill_outside (k : InstanceId) (e : Engine) (sp : Space) (vals : List Int)
    (off : Nat) (hlen : vals.length ≤ sp.count) (h : sp.holds off = false)
    (hs : sp = .bin → Space.mag.holds off = false) (hs' : sp = .mag → Space.bin.holds off = false) :
    (e.fill sp vals).byteAt k off = e.byteAt k off :=
  Engine.byteAt_congr k off (Engine.get?_fill_outside e sp vals off hlen h)
    (by rw [Engine.fill_epochs]; exact Epochs.atOffset_bump _ sp off h hs hs')

/-- `writeFrom` leaves every byte outside the elements written as it was. -/
theorem Engine.byteAt_writeFrom_outside (k : InstanceId) (e : Engine) (sp : Space) (i : Nat)
    (vals : List Int) (off : Nat)
    (h : off < sp.base + sp.elemBytes * i ∨
      sp.base + sp.elemBytes * (i + vals.length) ≤ off) :
    (e.writeFrom sp i vals).byteAt k off = e.byteAt k off := by
  refine Engine.byteAt_congr k off ?_ rfl
  rw [Engine.writeFrom_mem, Memory.get?_store, Space.bytesOf_length]
  rw [Nat.mul_add] at h
  split_ifs <;> first | rfl | (exfalso; omega)

/-! ### Elements after a write -/

/-- If the listed bytes of element `i` are those of `v`, the element is `v`'s bit pattern. -/
theorem Engine.elem_of_bytes (k : InstanceId) (e : Engine) (sp : Space) (i : Nat) (v : Int)
    (h : ∀ j < sp.elemBytes, e.mem.get? (sp.base + sp.elemBytes * i + j) =
      (leBytes sp.elemBytes (v % 256 ^ sp.elemBytes).toNat)[j]?) :
    e.elem k sp i = (v % 256 ^ sp.elemBytes).toNat := by
  have hb : (v % 256 ^ sp.elemBytes).toNat < 256 ^ sp.elemBytes := by
    have h1 : (0 : Int) < 256 ^ sp.elemBytes := by positivity
    have h2 := Int.emod_lt_of_pos v h1
    have h3 := Int.emod_nonneg v h1.ne'
    have h4 : ((256 ^ sp.elemBytes : Nat) : Int) = 256 ^ sp.elemBytes := by push_cast; rfl
    omega
  have hl : (List.range sp.elemBytes).map
      (fun j => e.byteAt k (sp.base + sp.elemBytes * i + j)) =
      leBytes sp.elemBytes (v % 256 ^ sp.elemBytes).toNat := by
    apply List.ext_getElem (by simp)
    intro j h1 h2
    simp only [leBytes_length] at h2
    simp only [List.getElem_map, List.getElem_range, Engine.byteAt, h j h2]
    rw [List.getElem?_eq_getElem (by simpa using h2)]
    rfl
  unfold Engine.elem Engine.readNat
  rw [hl, leNat_leBytes _ _ hb]

/-- What element `i` reads as after `fill` wrote it. -/
theorem Engine.elem_fill (k : InstanceId) (e : Engine) (sp : Space) (vals : List Int) (i : Nat)
    (hi : i < vals.length) :
    (e.fill sp vals).elem k sp i = (vals[i] % 256 ^ sp.elemBytes).toNat := by
  apply Engine.elem_of_bytes
  intro j hj
  have h1 : sp.elemBytes * (i + 1) ≤ sp.elemBytes * vals.length := Nat.mul_le_mul_left _ hi
  rw [Nat.mul_add, Nat.mul_one] at h1
  rw [Engine.fill_mem, Memory.get?_replace, Space.bytesOf_length,
    if_neg (by omega), if_pos (by omega), ← Space.bytesOf_getElem? sp vals i j hi hj]
  congr 1
  omega

/-- What element `i + p` reads as after `writeFrom` wrote it. -/
theorem Engine.elem_writeFrom (k : InstanceId) (e : Engine) (sp : Space) (i : Nat)
    (vals : List Int) (p : Nat) (hp : p < vals.length) :
    (e.writeFrom sp i vals).elem k sp (i + p) = (vals[p] % 256 ^ sp.elemBytes).toNat := by
  apply Engine.elem_of_bytes
  intro j hj
  have h1 : sp.elemBytes * (p + 1) ≤ sp.elemBytes * vals.length := Nat.mul_le_mul_left _ hp
  rw [Nat.mul_add, Nat.mul_one] at h1
  rw [Engine.writeFrom_mem, Memory.get?_store, Space.bytesOf_length, Nat.mul_add,
    if_neg (by omega), if_pos (by omega), ← Space.bytesOf_getElem? sp vals p j hp hj]
  congr 1
  omega

/-- Elements read alike when their bytes do. -/
theorem Engine.elem_congr (k : InstanceId) {e e' : Engine} (sp : Space) (i : Nat)
    (h : ∀ j < sp.elemBytes, e'.byteAt k (sp.base + sp.elemBytes * i + j) =
      e.byteAt k (sp.base + sp.elemBytes * i + j)) :
    e'.elem k sp i = e.elem k sp i := by
  unfold Engine.elem Engine.readNat
  congr 1
  apply List.map_congr_left
  intro j hj
  exact h j (List.mem_range.mp hj)

/-- The offsets of an element lie in its space. -/
theorem Space.holds_elem (sp : Space) {i j : Nat} (hi : i < sp.count) (hj : j < sp.elemBytes) :
    sp.holds (sp.base + sp.elemBytes * i + j) = true := by
  rw [Space.holds_iff]
  have h1 : sp.elemBytes * (i + 1) ≤ sp.elemBytes * sp.count := Nat.mul_le_mul_left _ hi
  rw [Nat.mul_add, Nat.mul_one] at h1
  unfold Space.limit
  omega

/-- `fill` leaves the elements of the other spaces as they were (`BIN` and `MAG` share a
generation, so for those the element must be one that is listed or the space another one). -/
theorem Engine.elem_fill_other (k : InstanceId) (e : Engine) (sp sp' : Space) (vals : List Int)
    (i : Nat) (hlen : vals.length ≤ sp.count) (hi : i < sp'.count) (hne : sp' ≠ sp)
    (hbm : ¬ (sp = .bin ∧ sp' = .mag)) (hmb : ¬ (sp = .mag ∧ sp' = .bin)) :
    (e.fill sp vals).elem k sp' i = e.elem k sp' i := by
  apply Engine.elem_congr
  intro j hj
  have hh := Space.holds_elem sp' hi hj
  have hout : ∀ x : Space, sp' ≠ x → x.holds (sp'.base + sp'.elemBytes * i + j) = false := by
    intro x hx
    cases hb : x.holds (sp'.base + sp'.elemBytes * i + j) with
    | false => rfl
    | true => exact absurd (Space.disjoint hh hb) hx
  refine Engine.byteAt_fill_outside k e sp vals _ hlen (hout sp hne) ?_ ?_
  · intro h; exact hout .mag (fun h' => hbm ⟨h, h'⟩)
  · intro h; exact hout .bin (fun h' => hmb ⟨h, h'⟩)

/-- An element of `BIN` written before a `fill` of `MAG` stays. -/
theorem Engine.elem_fill_mag_fill_bin (k : InstanceId) (e : Engine) (bins mags : List Int) (i : Nat)
    (hi : i < bins.length) (hb : bins.length ≤ Space.bin.count)
    (hm : mags.length ≤ Space.mag.count) :
    ((e.fill .bin bins).fill .mag mags).elem k .bin i =
      (bins[i] % 256 ^ Space.bin.elemBytes).toNat := by
  apply Engine.elem_of_bytes
  intro j hj
  have hh := Space.holds_elem .bin (Nat.lt_of_lt_of_le hi hb) hj
  have hout : Space.mag.holds (Space.bin.base + Space.bin.elemBytes * i + j) = false := by
    cases hx : Space.mag.holds (Space.bin.base + Space.bin.elemBytes * i + j) with
    | false => rfl
    | true => exact absurd (Space.disjoint hh hx) (by decide)
  rw [Engine.get?_fill_outside _ .mag mags _ hm hout]
  have h1 : Space.bin.elemBytes * (i + 1) ≤ Space.bin.elemBytes * bins.length :=
    Nat.mul_le_mul_left _ hi
  rw [Nat.mul_add, Nat.mul_one] at h1
  have h2 : Space.bin.base + Space.bin.elemBytes * i + j - Space.bin.base =
      Space.bin.elemBytes * i + j := by omega
  rw [Engine.fill_mem, Memory.get?_replace, Space.bytesOf_length,
    if_neg (by omega), if_pos (by omega), ← Space.bytesOf_getElem? .bin bins i j hi hj, h2]

/-! ### Reads of several bytes -/

theorem leNat_append (as bs : List Byte) :
    leNat (as ++ bs) = leNat as + 256 ^ as.length * leNat bs := by
  induction as with
  | nil => simp [leNat]
  | cons a as ih =>
    simp only [List.cons_append, leNat, ih, List.length_cons, pow_succ]
    ring

/-- A wide read is its low part and its high part. -/
theorem Engine.readNat_add (k : InstanceId) (e : Engine) (off m n : Nat) :
    e.readNat k off (m + n) = e.readNat k off m + 256 ^ m * e.readNat k (off + m) n := by
  unfold Engine.readNat
  rw [List.range_add, List.map_append, leNat_append, List.map_map]
  simp only [List.length_map, List.length_range, Function.comp_def, Nat.add_assoc]

theorem Engine.readNat_lt (k : InstanceId) (e : Engine) (off n : Nat) :
    e.readNat k off n < 256 ^ n := by
  have := leNat_lt ((List.range n).map (fun j => e.byteAt k (off + j)))
  simpa [Engine.readNat] using this

theorem Engine.elem_lt (k : InstanceId) (e : Engine) (sp : Space) (i : Nat) :
    e.elem k sp i < 256 ^ sp.elemBytes := Engine.readNat_lt k e _ _

/-! ### Values -/

/-- A list sum over a range is the sum over that range. -/
theorem sum_map_range (n : Nat) (f : Nat → Int) :
    ((List.range n).map f).sum = ∑ i ∈ Finset.range n, f i := by
  induction n with
  | zero => simp
  | succ n ih => rw [List.range_succ, List.map_append, List.sum_append, ih, Finset.sum_range_succ]; simp

/-- An integer that fits 32 bits is stored exactly. -/
theorem toInt_ofInt_of_fits {v : Int} (h1 : -2 ^ 31 ≤ v) (h2 : v < 2 ^ 31) :
    (BitVec.ofInt 32 v).toInt = v := by
  rw [BitVec.toInt_ofInt]
  apply Int.bmod_eq_of_le <;> omega

/-- A signed value that fits its width is read back from its bit pattern. -/
theorem toInt_ofNat_emod (w : Nat) (v : Int) (hw : 0 < w) (h1 : -(2 ^ (w - 1) : Int) ≤ v)
    (h2 : v < 2 ^ (w - 1)) : (BitVec.ofNat w (v % 2 ^ w).toNat).toInt = v := by
  have hp : (2 : Int) ^ w = 2 * 2 ^ (w - 1) := by
    obtain ⟨u, rfl⟩ : ∃ u, w = u + 1 := ⟨w - 1, by omega⟩
    simp [pow_succ, mul_comm]
  have hpos : (0 : Int) < 2 ^ w := by positivity
  have h3 := Int.emod_nonneg v hpos.ne'
  have h4 : ((2 ^ w : Nat) : Int) = 2 ^ w := by push_cast; rfl
  rw [BitVec.toInt_ofNat', Int.toNat_of_nonneg h3, ← h4, Int.emod_bmod]
  apply Int.bmod_eq_of_le <;> omega

end Sys2Proof.Machine
end

