-- ==== Sys2Proof/Laws/Bus.lean ====
section
/-!
SUPPORT. The laws of the address map: what each address of an instance selects, as one lemma per kind
of location.
-/

namespace Sys2Proof.Machine

/-- The instances are `NINST` in number (spec/00_scope.md R7). -/
theorem InstanceId.number_lt (k : InstanceId) : k.number < Config.params.ninst := by
  cases k <;> decide

theorem InstanceId.exists_number {n : Nat} (h : n < Config.params.ninst) :
    ∃ k : InstanceId, k.number = n := by
  rw [Config.params_ninst] at h
  interval_cases n
  · exact ⟨.live, rfl⟩
  · exact ⟨.file, rfl⟩

theorem InstanceId.number_le (k : InstanceId) : k.number ≤ 1 := by cases k <;> decide

/-- The flat address of an offset inside an instance's window. -/
theorem InstanceId.address_toNat (k : InstanceId) {off : Nat} (h : off < 0x40000) :
    (k.address off).toNat = k.number * 0x40000 + off := by
  have := k.number_le
  unfold InstanceId.address
  rw [BitVec.toNat_ofNat, Nat.mod_eq_of_lt (by omega)]

theorem instanceAt_address (k : InstanceId) {off : Nat} (h : off < 0x40000) :
    instanceAt (k.number * 0x40000 + off) = k := by
  cases k <;> simp [instanceAt, InstanceId.number]
  omega

/-- Above the last register there is none. -/
theorem regAt_eq_none {off : Nat} (h : 0x50 ≤ off) : regAt off = none := by
  unfold regAt
  split <;> first | rfl | omega

/-- Each register is at its offset. -/
theorem regAt_offset (r : Reg) : regAt r.offset = some r := by
  cases r <;> try rfl
  rename_i o
  cases o <;> rfl

theorem Reg.offset_lt (r : Reg) : r.offset < 0x50 := by
  cases r <;> try decide
  rename_i o
  cases o <;> decide

theorem Reg.offset_mod (r : Reg) : r.offset % 4 = 0 := by
  cases r <;> try decide
  rename_i o
  cases o <;> decide

/-- A register is at no other offset. -/
theorem regAt_eq_some {off : Nat} {r : Reg} : regAt off = some r ↔ off = r.offset := by
  constructor
  · intro h
    unfold regAt at h
    split at h <;> first | (cases h; rfl) | cases h
  · rintro rfl
    exact regAt_offset r

/-- Below the data spaces lies no element of one. -/
theorem spaceAt_eq_none_iff (off : Nat) : spaceAt off = none ↔ ∀ sp : Space, sp.holds off = false := by
  constructor
  · intro h sp
    cases hb : sp.holds off with
    | false => rfl
    | true => rw [(spaceAt_eq_some sp off).mpr hb] at h; cases h
  · intro h
    cases hs : spaceAt off with
    | none => rfl
    | some sp =>
      have := (spaceAt_eq_some sp off).mp hs
      rw [h sp] at this; cases this

theorem Space.holds_bounds {sp : Space} {off : Nat} (h : sp.holds off = true) :
    0x2000 ≤ off ∧ off < 0x40000 := by
  rw [Space.holds_iff] at h
  cases sp <;> simp only [Space.base, Space.limit, Space.elemBytes_eq, Space.count_eq] at h <;> omega

/-- The address of a register selects it. -/
theorem locate_register (k : InstanceId) (r : Reg) :
    locate (k.address r.offset).toNat = .register k r := by
  have h := r.offset_lt
  have hk := k.number_le
  rw [InstanceId.address_toNat k (by omega)]
  unfold locate
  rw [if_pos (by omega), show (k.number * 0x40000 + r.offset) % 0x40000 = r.offset by omega,
    regAt_offset, instanceAt_address k (by omega)]

/-- The address of an offset in a data space selects it. -/
theorem locate_data (k : InstanceId) {sp : Space} {off : Nat} (h : sp.holds off = true) :
    locate (k.address off).toNat = .data k sp off := by
  have hb := Space.holds_bounds h
  have hk := k.number_le
  rw [InstanceId.address_toNat k (by omega)]
  unfold locate
  rw [if_pos (by omega), show (k.number * 0x40000 + off) % 0x40000 = off by omega,
    regAt_eq_none (by omega), (spaceAt_eq_some sp off).mpr h, instanceAt_address k (by omega)]

/-- What a location says of its address (spec/20_memory.md R75). -/
theorem locate_cases (a : Nat) :
    (∃ k : InstanceId, ∃ r : Reg, locate a = .register k r ∧ a = k.number * 0x40000 + r.offset) ∨
    (∃ k : InstanceId, ∃ sp : Space, ∃ off, locate a = .data k sp off ∧
      a = k.number * 0x40000 + off ∧ sp.holds off = true) ∨
    (∃ off, locate a = .romData off ∧ a = 0x80000 + off ∧ off < 0x800) ∨
    locate a = .nothing := by
  unfold locate
  by_cases h : a < 0x80000
  · rw [if_pos h]
    have hk : a = (instanceAt a).number * 0x40000 + a % 0x40000 := by
      unfold instanceAt
      split <;> simp only [InstanceId.number] <;> omega
    cases hr : regAt (a % 0x40000) with
    | some r => exact .inl ⟨_, r, rfl, by rw [← regAt_eq_some.mp hr]; exact hk⟩
    | none =>
      cases hs : spaceAt (a % 0x40000) with
      | some sp => exact .inr (.inl ⟨_, sp, _, rfl, hk, (spaceAt_eq_some _ _).mp hs⟩)
      | none => simp
  · rw [if_neg h]
    by_cases h2 : a < 0x80800
    · rw [if_pos h2]
      exact .inr (.inr (.inl ⟨_, rfl, by omega, by omega⟩))
    · rw [if_neg h2]; simp

/-- Everything else selects nothing. -/
theorem locate_nothing {a : Nat}
    (h : 0x80800 ≤ a ∨ (a < 0x80000 ∧ regAt (a % 0x40000) = none ∧
      ∀ sp : Space, sp.holds (a % 0x40000) = false)) : locate a = .nothing := by
  unfold locate
  rcases h with h | ⟨h, hr, hs⟩
  · rw [if_neg (by omega), if_neg (by omega)]
  · rw [if_pos h, hr, (spaceAt_eq_none_iff _).mpr hs]

theorem alignedWordAccess_iff (width : Nat) (addr : BitVec 20) :
    alignedWordAccess width addr = true ↔ width = 32 ∧ addr.toNat % 4 = 0 := by
  simp [alignedWordAccess]

/-- The flat address of a word offset is aligned. -/
theorem InstanceId.address_aligned (k : InstanceId) {off : Nat} (h : off < 0x40000)
    (h4 : off % 4 = 0) : alignedWordAccess 32 (k.address off) = true := by
  rw [alignedWordAccess_iff, InstanceId.address_toNat k h]
  have := k.number_le
  exact ⟨rfl, by omega⟩

/-- Distinct words of the map have distinct addresses. -/
theorem InstanceId.address_of_toNat (addr : BitVec 20) (k : InstanceId) {off : Nat}
    (h : addr.toNat = k.number * 0x40000 + off) (h' : off < 0x40000) : addr = k.address off := by
  apply BitVec.eq_of_toNat_eq
  rw [InstanceId.address_toNat k h', h]

/-! ### Host reads and writes, one lemma per kind of location -/

/-- A read of any register but `STATUS` of an idle instance. -/
theorem hostRead_register (s : State) (k : InstanceId) (r : Reg)
    (hb : (s.engine k).status.busy = false) :
    hostRead 32 (k.address r.offset) s =
      .next { s with readData := (s.engine k).readReg r } := by
  unfold hostRead
  rw [InstanceId.address_aligned k (by have := r.offset_lt; omega) r.offset_mod, locate_register]
  cases r <;> simp [hb, State.returning, Engine.readReg]

/-- A read of `STATUS` of a busy instance (spec/70_reset_and_hazards.md R237). -/
theorem hostRead_busyStatus (s : State) (k : InstanceId)
    (hb : (s.engine k).status.busy = true) :
    hostRead 32 (k.address 4) s = .next { s with
      readData := (s.engine k).status.busyWord (Config.busyStatusBits s.freeReads)
      freeReads := s.freeReads + 1 } := by
  have hl := locate_register k .status
  simp only [Reg.offset] at hl
  unfold hostRead
  rw [InstanceId.address_aligned k (by omega) (by omega), hl]
  simp [hb, State.returning]

/-- A read of a word of the sine ROM, whatever is in flight. -/
theorem hostRead_rom (s : State) {off : Nat} (h : off < 0x800) (h4 : off % 4 = 0) :
    hostRead 32 (BitVec.ofNat 20 (0x80000 + off)) s =
      .next { s with readData := romWord off } := by
  have hn : (BitVec.ofNat 20 (0x80000 + off)).toNat = 0x80000 + off := by
    rw [BitVec.toNat_ofNat, Nat.mod_eq_of_lt (by omega)]
  have hl : locate (0x80000 + off) = .romData off := by
    unfold locate
    rw [if_neg (by omega), if_pos (by omega), Nat.add_sub_cancel_left]
  unfold hostRead
  rw [(alignedWordAccess_iff _ _).mpr ⟨rfl, by rw [hn]; omega⟩, hn, hl]
  simp [State.returning]

/-- A read of a word of a data space of an idle instance. -/
theorem hostRead_data (s : State) (k : InstanceId) {sp : Space} {off : Nat}
    (h : sp.holds off = true) (h4 : off % 4 = 0) (hb : (s.engine k).status.busy = false) :
    hostRead 32 (k.address off) s =
      .next { s with readData := BitVec.ofNat 32 ((s.engine k).readNat k off 4) } := by
  have := Space.holds_bounds h
  unfold hostRead
  rw [InstanceId.address_aligned k (by omega) h4, locate_data k h]
  simp [hb, State.returning]

/-- A read that selects nothing returns 0. -/
theorem hostRead_nothing (s : State) (addr : BitVec 20) (h4 : addr.toNat % 4 = 0)
    (h : locate addr.toNat = .nothing) : hostRead 32 addr s = .next { s with readData := 0 } := by
  unfold hostRead
  rw [(alignedWordAccess_iff 32 addr).mpr ⟨rfl, h4⟩, h]
  simp [State.returning]

/-- Everything a host read can do: it stops by name, or it changes the read data and the count of
free reads and nothing else (spec/20_memory.md R74). -/
theorem hostRead_cases (width : Nat) (addr : BitVec 20) (s : State) :
    (hostRead width addr s = .refused .notAlignedWordAccess ∧
      (width ≠ 32 ∨ addr.toNat % 4 ≠ 0)) ∨
    (hostRead width addr s = .refused .readWhileBusy ∧ width = 32 ∧ addr.toNat % 4 = 0 ∧
      ∃ k : InstanceId, (s.engine k).status.busy = true ∧
        ((∃ r, r ≠ .status ∧ locate addr.toNat = .register k r) ∨
          ∃ sp off, locate addr.toNat = .data k sp off)) ∨
    ∃ w n, hostRead width addr s = .next { s with readData := w, freeReads := n } := by
  unfold hostRead
  cases ha : alignedWordAccess width addr with
  | false =>
    refine .inl ⟨rfl, ?_⟩
    by_contra hc
    rw [(alignedWordAccess_iff width addr).mpr (by tauto)] at ha
    cases ha
  | true =>
    obtain ⟨hw, h4⟩ := (alignedWordAccess_iff width addr).mp ha
    simp only [Bool.not_true, Bool.false_eq_true, if_false]
    split
    · exact .inr (.inr ⟨_, _, rfl⟩)
    · exact .inr (.inr ⟨_, _, rfl⟩)
    · split
      · exact .inr (.inr ⟨_, _, rfl⟩)
      · exact .inr (.inr ⟨_, _, rfl⟩)
    · rename_i hr hl
      split
      · exact .inr (.inl ⟨rfl, hw, h4, _, by assumption, .inl ⟨_, hr, hl⟩⟩)
      · exact .inr (.inr ⟨_, _, rfl⟩)
    · rename_i hl
      split
      · exact .inr (.inl ⟨rfl, hw, h4, _, by assumption, .inr ⟨_, _, hl⟩⟩)
      · exact .inr (.inr ⟨_, _, rfl⟩)

/-- Everything a host write can do: stop by name; or change nothing; or write `CMD`, an operand
register, `NOISE_THR` or a word of `RAW` of the instance its address names. -/
theorem hostWrite_cases (width : Nat) (addr : BitVec 20) (w : Word) (s : State) :
    (hostWrite width addr w s = .refused .notAlignedWordAccess ∧
      (width ≠ 32 ∨ addr.toNat % 4 ≠ 0)) ∨
    (width = 32 ∧ addr.toNat % 4 = 0 ∧
      ((hostWrite width addr w s = .next s ∧
          ∀ k : InstanceId, ∀ off, (Space.raw.holds off = true) → off % 4 = 0 →
            addr ≠ k.address off) ∨
        ∃ k : InstanceId, addr.toNat / 0x40000 = k.number ∧
          (hostWrite width addr w s = .next (s.setEngine k ((s.engine k).writeCmd w)) ∨
            (∃ r, hostWrite width addr w s = .next (s.setEngine k
              { s.engine k with operands := (s.engine k).operands.write r w }) ∧
              (s.engine k).inFlight ≠ some .init) ∨
            (hostWrite width addr w s = .next (s.setEngine k
              { s.engine k with noiseThr := w }) ∧ (s.engine k).inFlight ≠ some .init) ∨
            (∃ off, Space.raw.holds off = true ∧ off % 4 = 0 ∧ addr = k.address off ∧
              hostWrite width addr w s = .next (s.setEngine k ((s.engine k).writeRaw off w)) ∧
              ¬ ((s.engine k).inFlight = some .decode ∨ (s.engine k).inFlight = some .tick)) ∨
            (hostWrite width addr w s = .fault .initWriteRace ∧
              (s.engine k).inFlight = some .init ∧
              ((∃ r, locate addr.toNat = .register k (.operand r)) ∨
                locate addr.toNat = .register k .noiseThr)) ∨
            (hostWrite width addr w s = .fault .rawWriteRace ∧
              ((s.engine k).inFlight = some .decode ∨ (s.engine k).inFlight = some .tick) ∧
              ∃ off, locate addr.toNat = .data k .raw off)))) := by
  cases ha : alignedWordAccess width addr with
  | false =>
    refine .inl ⟨by unfold hostWrite; rw [ha]; rfl, ?_⟩
    by_contra hc
    rw [(alignedWordAccess_iff width addr).mpr (by tauto)] at ha
    cases ha
  | true =>
    obtain ⟨hw, h4⟩ := (alignedWordAccess_iff width addr).mp ha
    refine .inr ⟨hw, h4, ?_⟩
    have notRaw : ∀ (l : Location), locate addr.toNat = l →
        (∀ k off, l ≠ .data k .raw off) → ∀ k : InstanceId, ∀ off,
        (Space.raw.holds off = true) → off % 4 = 0 → addr ≠ k.address off := by
      intro l hl hn k off hh _ he
      rw [he, locate_data k hh] at hl
      exact hn k off hl.symm
    have div : ∀ (k : InstanceId) (off : Nat), off < 0x40000 →
        addr.toNat = k.number * 0x40000 + off → addr.toNat / 0x40000 = k.number := by
      intro k off h1 h2
      omega
    rcases locate_cases addr.toNat with ⟨k, r, hl, hn⟩ | ⟨k, sp, off, hl, hn, hh⟩ |
      ⟨off, hl, _⟩ | hl
    · have hd := div k _ (by have := r.offset_lt; omega) hn
      cases r with
      | cmd =>
        refine .inr ⟨k, hd, .inl ?_⟩
        unfold hostWrite; rw [ha, hl]; rfl
      | operand o =>
        refine .inr ⟨k, hd, ?_⟩
        unfold hostWrite; rw [ha, hl]
        by_cases hi : (s.engine k).inFlight = some .init
        · simp [hi]
        · simp only [Bool.not_true, Bool.false_eq_true, if_false, if_neg hi]
          exact .inr (.inl ⟨o, rfl, hi⟩)
      | noiseThr =>
        refine .inr ⟨k, hd, ?_⟩
        unfold hostWrite; rw [ha, hl]
        by_cases hi : (s.engine k).inFlight = some .init
        · simp [hi]
        · refine .inr (.inr (.inl ⟨?_, hi⟩))
          simp only [Bool.not_true, Bool.false_eq_true, if_false, if_neg hi]
      | _ =>
        refine .inl ⟨?_, notRaw _ hl (by intros; simp)⟩
        unfold hostWrite; rw [ha, hl]; rfl
    · cases sp with
      | raw =>
        refine .inr ⟨k, div k off (Space.holds_bounds hh).2 hn, ?_⟩
        unfold hostWrite; rw [ha, hl]
        by_cases hi : (s.engine k).inFlight = some .decode ∨ (s.engine k).inFlight = some .tick
        · simp [hi]
        · simp only [Bool.not_true, Bool.false_eq_true, if_false, if_neg hi]
          exact .inr (.inr (.inr (.inl ⟨off, hh, by omega,
            InstanceId.address_of_toNat addr k hn (Space.holds_bounds hh).2, rfl, hi⟩)))
      | _ =>
        refine .inl ⟨?_, notRaw _ hl (by intros; simp)⟩
        unfold hostWrite; rw [ha, hl]; rfl
    · refine .inl ⟨?_, notRaw _ hl (by intros; simp)⟩
      unfold hostWrite; rw [ha, hl]; rfl
    · refine .inl ⟨?_, notRaw _ hl (by intros; simp)⟩
      unfold hostWrite; rw [ha, hl]; rfl

/-- A write to `CMD`. -/
theorem hostWrite_cmd (s : State) (k : InstanceId) (w : Word) :
    hostWrite 32 (k.address 0) w s = .next (s.setEngine k ((s.engine k).writeCmd w)) := by
  have hl := locate_register k .cmd
  have ha := InstanceId.address_aligned k (off := 0) (by omega) (by omega)
  simp only [Reg.offset] at hl
  unfold hostWrite
  rw [ha, hl]
  rfl

/-- A write to an operand register while no INIT is in flight. -/
theorem hostWrite_operand (s : State) (k : InstanceId) (r : OperandReg) (w : Word)
    (h : (s.engine k).inFlight ≠ some .init) :
    hostWrite 32 (k.address (Reg.operand r).offset) w s = .next (s.setEngine k
      { s.engine k with operands := (s.engine k).operands.write r w }) := by
  unfold hostWrite
  rw [InstanceId.address_aligned k (by have := (Reg.operand r).offset_lt; omega)
    (Reg.offset_mod _), locate_register]
  simp [h]

/-- A write to `NOISE_THR` while no INIT is in flight. -/
theorem hostWrite_noiseThr (s : State) (k : InstanceId) (w : Word)
    (h : (s.engine k).inFlight ≠ some .init) :
    hostWrite 32 (k.address 0x2C) w s = .next (s.setEngine k
      { s.engine k with noiseThr := w }) := by
  have hl := locate_register k .noiseThr
  simp only [Reg.offset] at hl
  unfold hostWrite
  rw [InstanceId.address_aligned k (by omega) (by omega), hl]
  simp [h]

/-- A write to a word of `RAW` while no DECODE or TICK is in flight. -/
theorem hostWrite_raw (s : State) (k : InstanceId) {off : Nat} (w : Word)
    (h : Space.raw.holds off = true) (h4 : off % 4 = 0)
    (hf : ¬ ((s.engine k).inFlight = some .decode ∨ (s.engine k).inFlight = some .tick)) :
    hostWrite 32 (k.address off) w s = .next (s.setEngine k ((s.engine k).writeRaw off w)) := by
  have := Space.holds_bounds h
  unfold hostWrite
  rw [InstanceId.address_aligned k (by omega) h4, locate_data k h]
  simp [hf]

/-- An idle instance has no command in flight. -/
theorem Engine.inFlight_idle (e : Engine) (h : e.status.busy = false) : e.inFlight = none := by
  simp [Engine.inFlight, h]

/-- A busy instance with a legal command word has that command in flight. -/
theorem Engine.inFlight_eq_some (e : Engine) (i : Instr) :
    e.inFlight = some i ↔ e.status.busy = true ∧ decodeWord e.cmd = .ok i := by
  unfold Engine.inFlight
  split
  · rename_i hb
    cases h : decodeWord e.cmd <;> simp [hb]
  · rename_i hb
    simp [hb]

end Sys2Proof.Machine
end

