-- ==== Sys2Proof/Laws/Decode.lean ====
section
/-!
SUPPORT. The laws of the decoder and the encoder: a word is the concatenation of its fields and of its
bytes, and what each illegal encoding means for the bits of the word.
-/

namespace Sys2Proof

/-- The bytes of a word, put together again, are the word (spec/20_memory.md R72). -/
theorem wordOfBytes_bytesOfWord (w : Word) :
    wordOfBytes (w.extractLsb' 0 8) (w.extractLsb' 8 8) (w.extractLsb' 16 8)
      (w.extractLsb' 24 8) = w := by
  unfold wordOfBytes
  apply BitVec.eq_of_getLsbD_eq
  intro i hi
  simp only [BitVec.getLsbD_append, BitVec.getLsbD_extractLsb']
  interval_cases i <;> simp

/-- The decoder on the bytes of a word is the decoder on the word. -/
theorem decodeBytes_bytesOfWord (w : Word) : decodeBytes (bytesOfWord w) = decodeWord w := by
  simp only [bytesOfWord, decodeBytes, wordOfBytes_bytesOfWord]

/-- A word is the concatenation of the fields of format `C` (spec/30_encoding.md R101). -/
theorem wordOfFields_commandFields (w : Word) : wordOfFields (commandFields w) = w := by
  unfold wordOfFields commandFields
  apply BitVec.eq_of_getLsbD_eq
  intro i hi
  simp only [BitVec.getLsbD_append, BitVec.getLsbD_extractLsb', BitVec.getLsbD_ofBool]
  interval_cases i <;> simp

/-- Reading the fields back from the word they make. -/
theorem commandFields_wordOfFields (c : CommandWord) : commandFields (wordOfFields c) = c := by
  obtain ⟨opc, z0, m, z1⟩ := c
  unfold wordOfFields commandFields
  congr 1
  · apply BitVec.eq_of_getLsbD_eq
    intro i hi
    simp only [BitVec.getLsbD_append, BitVec.getLsbD_extractLsb', BitVec.getLsbD_ofBool]
    interval_cases i <;> simp
  · apply BitVec.eq_of_getLsbD_eq
    intro i hi
    simp only [BitVec.getLsbD_append, BitVec.getLsbD_extractLsb', BitVec.getLsbD_ofBool]
    interval_cases i <;> simp
  · simp only [BitVec.getLsbD_append, BitVec.getLsbD_ofBool]
    simp
  · apply BitVec.eq_of_getLsbD_eq
    intro i hi
    simp only [BitVec.getLsbD_append, BitVec.getLsbD_extractLsb', BitVec.getLsbD_ofBool]
    interval_cases i <;> simp

/-- The opcode map, read in both directions (spec/30_encoding.md R102). -/
theorem instrOf_eq_some (opc : BitVec 4) (m : Bool) (i : Instr) :
    instrOf opc m = some i ↔ opcodeOf i = (opc, m) := by
  revert opc m
  cases i <;> decide

/-- The decoder answers an instruction exactly on its word: nothing is dropped from a word. -/
theorem decodeWord_eq_ok (w : Word) (i : Instr) : decodeWord w = .ok i ↔ w = encode i := by
  constructor
  · intro h
    unfold decodeWord at h
    simp only at h
    split at h
    · cases h
    split at h
    · cases h
    split at h
    · cases h
    rename_i h0 h1
    simp only [CommandWord.z0Zero, CommandWord.z1Zero, Bool.not_eq_true, Bool.not_eq_false',
      beq_iff_eq] at h0 h1
    split at h
    · rename_i j hj
      cases h
      have hop := (instrOf_eq_some _ _ _).mp hj
      rw [← wordOfFields_commandFields w, encode, hop]
      unfold wordOfFields
      rw [h0, h1]
    · cases h
  · rintro rfl
    cases i <;> rfl

/-- Decoding an encoded instruction gives it back. -/
@[simp] theorem decodeWord_encode (i : Instr) : decodeWord (encode i) = .ok i :=
  (decodeWord_eq_ok _ i).mpr rfl

/-- Among the assigned operation codes, only the modifier can leave a word without an instruction. -/
theorem instrOf_eq_none (c : CommandWord) (h : c.opcodeAssigned = true) :
    instrOf c.opc c.m = none ↔ c.modifierAllowed = false := by
  have key : ∀ (opc : BitVec 4) (m : Bool), 1 ≤ opc.toNat → opc.toNat ≤ 9 →
      (instrOf opc m = none ↔ (!m || opc == 5 || opc == 6 || opc == 7) = false) := by decide
  simp only [CommandWord.opcodeAssigned, Bool.and_eq_true, decide_eq_true_eq] at h
  exact key c.opc c.m h.1 h.2

/-- A word is illegal exactly when one of the four tests of spec/30_encoding.md R105 says so. -/
theorem decodeWord_eq_error (w : Word) :
    (∃ r, decodeWord w = .error r) ↔ (commandFields w).wellFormed = false := by
  unfold decodeWord CommandWord.wellFormed
  have h := instrOf_eq_none (commandFields w)
  cases ho : (commandFields w).opcodeAssigned
  · exact ⟨fun _ => rfl, fun _ => ⟨.opcodeUnassigned, by simp [ho]⟩⟩
  cases h0 : (commandFields w).z0Zero
  · exact ⟨fun _ => rfl, fun _ => ⟨.z0NotZero, by simp [ho, h0]⟩⟩
  cases h1 : (commandFields w).z1Zero
  · exact ⟨fun _ => rfl, fun _ => ⟨.z1NotZero, by simp [ho, h0, h1]⟩⟩
  cases hm : (commandFields w).modifierAllowed
  · exact ⟨fun _ => rfl, fun _ => ⟨.modifierNotAllowed, by simp [ho, h0, h1, (h ho).mpr hm]⟩⟩
  · cases hi : instrOf (commandFields w).opc (commandFields w).m with
    | none => rw [(h ho).mp hi] at hm; cases hm
    | some i => simp [ho, h0, h1, hi]

/-- The four tests of spec/30_encoding.md R105 on the fields of a word. -/
theorem CommandWord.wellFormed_eq_false (c : CommandWord) :
    c.wellFormed = false ↔ (c.opc.toNat = 0 ∨ 10 ≤ c.opc.toNat) ∨ c.z0 ≠ 0 ∨ c.z1 ≠ 0 ∨
      (c.m = true ∧ c.opc ≠ 5 ∧ c.opc ≠ 6 ∧ c.opc ≠ 7) := by
  simp only [CommandWord.wellFormed, CommandWord.opcodeAssigned, CommandWord.z0Zero,
    CommandWord.z1Zero, CommandWord.modifierAllowed, Bool.and_eq_false_iff, Bool.or_eq_false_iff,
    Bool.not_eq_false', beq_eq_false_iff_ne, decide_eq_false_iff_not, Nat.not_le,
    or_assoc, and_assoc, Nat.succ_le_iff, Nat.not_lt, Nat.le_zero]

end Sys2Proof
end

