-- ==== Sys2Proof/Laws/Step.lean ====
section
/-!
SUPPORT. The laws of `exec` and `step`: `exec` is one total function of the active instance, and `step`
is read event by event.
-/

namespace Sys2Proof.Machine

/-- The state of instance `k` after command `i` completes on it: what `exec` does, without the
outcome around it. -/
def Engine.after (k : InstanceId) (e : Engine) : Instr → Engine
  | .decode => (e.decodeStage k).complete
  | .transform => (e.transformStage k).complete
  | .select => (e.selectStage k).complete
  | .emit => (e.emitStage k).done e.emits
  | .noteE => e.noteStage.complete
  | .noteF => (e.noteFor e.freqArgOp).complete
  | .synthE => (e.synthesize e.estimate).complete
  | .synthF => (e.synthesize (some e.freqArgOp)).complete
  | .setbandMin => (e.setBand (fun _ b => (b - clampDelta, b))).complete
  | .setbandMax => (e.setBand (fun a _ => (a, a + clampDelta))).complete
  | .tick => e.tickPass k
  | .init => { e.toReset with cmd := encode .init }.done false

/-- Every command completes, on the active instance alone. -/
theorem exec_eq (i : Instr) (s : State) :
    exec i s = .next (s.setEngine s.active ((s.engine s.active).after s.active i)) := by
  cases i <;> rfl

/-- `exec` answers this state only. -/
theorem exec_next {i : Instr} {s t : State} (h : exec i s = .next t) :
    t = s.setEngine s.active ((s.engine s.active).after s.active i) := by
  rw [exec_eq] at h
  exact (Host.Outcome.next.inj h).symm

/-- Replacing one instance by two engines alike means the engines are alike. -/
theorem State.setEngine_inj {s : State} {k : InstanceId} {e e' : Engine}
    (h : s.setEngine k e = s.setEngine k e') : e = e' := by
  have := congrArg (fun t => State.engine t k) h
  simpa using this

/-- The engine `exec` leaves is determined. -/
theorem exec_engine {i : Instr} {s : State} {T : Engine}
    (h : exec i s = .next (s.setEngine s.active T)) :
    T = (s.engine s.active).after s.active i := by
  rw [exec_eq] at h
  exact (State.setEngine_inj (Host.Outcome.next.inj h)).symm

/-- An illegal word's completion. -/
theorem execIllegal_eq (s : State) :
    execIllegal s = .next (s.setEngine s.active
      ((s.engine s.active).raise .illegalCommand 0 false)) := rfl

/-- The state of instance `k` after the command word it has accepted completes. -/
def Engine.completed (k : InstanceId) (e : Engine) : Engine :=
  match decodeWord e.cmd with
  | .ok i => e.after k i
  | .error _ => e.raise .illegalCommand 0 false

theorem runCommand_eq (k : InstanceId) (s : State) :
    runCommand k s = .next ({ s with active := k }.setEngine k ((s.engine k).completed k)) := by
  unfold runCommand State.fetch Engine.completed
  cases decodeWord (s.engine k).cmd with
  | ok i =>
    simp only [exec_eq]
    cases k <;> rfl
  | error r => cases k <;> rfl

/-! ### `step`, event by event -/

@[simp] theorem State.engine_schedule (s : State) (l : List Event) (k : InstanceId) :
    ({ s with schedule := l } : State).engine k = s.engine k := by cases k <;> rfl

@[simp] theorem State.engine_active (s : State) (j k : InstanceId) :
    ({ s with active := j } : State).engine k = s.engine k := by cases k <;> rfl

@[simp] theorem State.engine_readData (s : State) (w : Word) (k : InstanceId) :
    ({ s with readData := w } : State).engine k = s.engine k := by cases k <;> rfl

@[simp] theorem State.engine_reads (s : State) (w : Word) (n : Nat) (k : InstanceId) :
    ({ s with readData := w, freeReads := n } : State).engine k = s.engine k := by cases k <;> rfl

theorem step_read {s : State} {width : Nat} {addr : BitVec 20} {rest : List Event}
    (h : s.schedule = .read width addr :: rest) :
    step s = hostRead width addr { s with schedule := rest } := by
  simp only [step, State.nextEvent, h]

theorem step_write {s : State} {width : Nat} {addr : BitVec 20} {w : Word} {rest : List Event}
    (h : s.schedule = .write width addr w :: rest) :
    step s = hostWrite width addr w { s with schedule := rest } := by
  simp only [step, State.nextEvent, h]

theorem step_reset {s : State} {lost : Option (BitVec 20 × Word)} {rest : List Event}
    (h : s.schedule = .hardReset lost :: rest) :
    step s = .next (hardwareReset { s with schedule := rest }) := by
  simp only [step, State.nextEvent, h]

theorem step_complete {s : State} {k : InstanceId} {rest : List Event}
    (h : s.schedule = .complete k :: rest) :
    step s = if (s.engine k).status.busy then
        .next ({ s with schedule := rest, active := k }.setEngine k ((s.engine k).completed k))
      else .next { s with schedule := rest } := by
  simp only [step, State.nextEvent, h, State.engine_schedule, runCommand_eq]

theorem step_empty {s : State} (h : s.schedule = []) :
    step s = if s.live.status.busy then
        .next ({ s with active := .live }.setEngine .live (s.live.completed .live))
      else if s.file.status.busy then
        .next ({ s with active := .file }.setEngine .file (s.file.completed .file))
      else .next s := by
  by_cases h1 : s.live.status.busy = true
  · simp [step, State.nextEvent, h, h1, runCommand_eq]
  · by_cases h2 : s.file.status.busy = true
    · simp [step, State.nextEvent, h, h1, h2, runCommand_eq]
    · simp [step, State.nextEvent, h, h1, h2]

/-- A hardware reset resets both instances. -/
@[simp] theorem hardwareReset_engine (s : State) (k : InstanceId) :
    (hardwareReset s).engine k = (s.engine k).toReset := by cases k <;> rfl

@[simp] theorem State.setEngine_schedule_active (s : State) (j k : InstanceId) (l : List Event)
    (e : Engine) : ({ s.setEngine k e with schedule := l, active := j } : State) =
      { s with schedule := l, active := j }.setEngine k e := by cases k <;> rfl

theorem cmdEvent_eq (k : InstanceId) (i : Instr) :
    cmdEvent k i = .write 32 (k.address 0) (encode i) := rfl

@[simp] theorem andThen_next (s : State) (f : State → Host.Outcome State Fault Refusal) :
    andThen (.next s) f = f s := rfl

/-- A run that takes a step. -/
theorem runSteps_next {n : Nat} {s t : State} (h : step s = .next t) :
    runSteps (n + 1) s = runSteps n t := by
  rw [runSteps, h, andThen_next]

theorem runSteps_zero (s : State) : runSteps 0 s = .next s := rfl

/-- One command issued to an idle instance and waited for. -/
theorem State.call_eq (s : State) (k : InstanceId) (i : Instr)
    (hb : (s.engine k).status.busy = false) :
    s.call k i = .next ({ s with schedule := [], active := k }.setEngine k
      (((s.engine k).accept (encode i)).after k i)) := by
  have hc : ((s.engine k).accept (encode i)).completed k =
      ((s.engine k).accept (encode i)).after k i := by
    have hd : decodeWord ((s.engine k).accept (encode i)).cmd = .ok i := decodeWord_encode i
    simp only [Engine.completed, hd]
  generalize hu : ({ s with schedule := [.complete k] } : State).setEngine k
    ((s.engine k).accept (encode i)) = u
  have h1 : step { s with schedule := [cmdEvent k i, .complete k] } = .next u := by
    have hw : (({ s with schedule := [.complete k] } : State).engine k).writeCmd (encode i) =
        (s.engine k).accept (encode i) := by
      rw [State.engine_schedule, Engine.writeCmd, if_neg (by simp [hb])]
    rw [cmdEvent_eq]
    refine (step_write rfl).trans ((hostWrite_cmd _ k _).trans ?_)
    rw [hw, hu]
  have hs : u.schedule = [.complete k] := by rw [← hu, State.setEngine_schedule]
  have he : u.engine k = (s.engine k).accept (encode i) := by
    rw [← hu, State.engine_setEngine_same]
  have h2 : step u = .next ({ u with schedule := [], active := k }.setEngine k
      (((s.engine k).accept (encode i)).after k i)) := by
    rw [step_complete hs, if_pos (by rw [he]; rfl), he, hc]
  rw [State.call, State.runEvents]
  rw [show [cmdEvent k i, .complete k].length = 0 + 1 + 1 from rfl, runSteps_next h1,
    runSteps_next h2, runSteps_zero, ← hu, State.setEngine_schedule_active,
    State.setEngine_setEngine]

/-- A sequence of calls stops at the first error. -/
theorem State.callSequence_stop {s t : State} {k : InstanceId} {i : Instr} {is : List Instr}
    (h : s.call k i = .next t) (he : (t.engine k).status.err ≠ 0) :
    State.callSequence k (i :: is) s = .next t := by
  rw [State.callSequence, h, andThen_next]
  exact if_neg he

/-- A sequence of calls goes on after a success. -/
theorem State.callSequence_go {s t : State} {k : InstanceId} {i : Instr} {is : List Instr}
    (h : s.call k i = .next t) (he : (t.engine k).status.err = 0) :
    State.callSequence k (i :: is) s = State.callSequence k is t := by
  rw [State.callSequence, h, andThen_next]
  exact if_pos he

/-- Everything a step can do to one instance: leave it; reset it; complete its command; or take a host
write to it. Everything else of the state is the schedule, the read data and counters. -/
theorem step_engine_cases {s t : State} (h : step s = .next t) (k : InstanceId) :
    t.engine k = s.engine k ∨
    (s.resetting = true ∧ t.engine k = (s.engine k).toReset) ∨
    ((s.engine k).status.busy = true ∧ s.completing k = (s.engine k).inFlight ∧
      t.engine k = (s.engine k).completed k) ∨
    (∃ w addr rest, s.schedule = .write 32 addr w :: rest ∧
      (t.engine k = (s.engine k).writeCmd w ∨
        (∃ r, t.engine k = { s.engine k with operands := (s.engine k).operands.write r w }) ∨
        t.engine k = { s.engine k with noiseThr := w } ∨
        ∃ off, Space.raw.holds off = true ∧ off % 4 = 0 ∧ addr = k.address off ∧
          t.engine k = (s.engine k).writeRaw off w)) := by
  have done : ∀ (j : InstanceId) (l : List Event), (s.engine j).status.busy = true →
      s.nextEvent = (some (.complete j), { s with schedule := l }) →
      t = ({ s with schedule := l, active := j }.setEngine j ((s.engine j).completed j)) →
      t.engine k = s.engine k ∨ ((s.engine k).status.busy = true ∧
        s.completing k = (s.engine k).inFlight ∧ t.engine k = (s.engine k).completed k) := by
    intro j l hb hn ht
    by_cases hjk : k = j
    · subst hjk
      refine .inr ⟨hb, ?_, by rw [ht, State.engine_setEngine_same]⟩
      simp only [State.completing, hn, if_true]
    · refine .inl ?_
      rw [ht, State.engine_setEngine_ne _ _ hjk]
      cases k <;> rfl
  cases hs : s.schedule with
  | nil =>
    rw [step_empty hs] at h
    split at h
    · rename_i hb
      have := done .live [] hb (by simp [State.nextEvent, hs, hb]; rw [← hs])
        (by cases h; rw [← hs]; rfl)
      tauto
    · split at h
      · rename_i hb' hb
        have := done .file [] hb (by simp [State.nextEvent, hs, hb, hb']; rw [← hs])
          (by cases h; rw [← hs]; rfl)
        tauto
      · cases h; exact .inl rfl
  | cons ev rest =>
    cases ev with
    | read width addr =>
      rw [step_read hs] at h
      rcases hostRead_cases width addr { s with schedule := rest } with ⟨h', _⟩ | ⟨h', _⟩ | ⟨w, n, h'⟩ <;>
        rw [h'] at h <;> cases h
      exact .inl (by cases k <;> rfl)
    | write width addr w =>
      rw [step_write hs] at h
      rcases hostWrite_cases width addr w { s with schedule := rest } with ⟨h', _⟩ | ⟨hw, _, h'⟩
      · rw [h'] at h; cases h
      subst hw
      rcases h' with ⟨h', _⟩ | ⟨j, _, h'⟩
      · rw [h'] at h; cases h; exact .inl (by cases k <;> rfl)
      by_cases hjk : k = j
      · subst hjk
        refine .inr (.inr (.inr ⟨w, addr, rest, rfl, ?_⟩))
        simp only [State.engine_schedule] at h'
        rcases h' with h' | ⟨r, h', _⟩ | ⟨h', _⟩ | ⟨off, h1, h2, h3, h', _⟩ | ⟨h', _⟩ | ⟨h', _⟩ <;>
          rw [h'] at h <;> cases h <;> rw [State.engine_setEngine_same]
        · exact .inl rfl
        · exact .inr (.inl ⟨r, rfl⟩)
        · exact .inr (.inr (.inl rfl))
        · exact .inr (.inr (.inr ⟨off, h1, h2, h3, rfl⟩))
      · refine .inl ?_
        rcases h' with h' | ⟨r, h', _⟩ | ⟨h', _⟩ | ⟨off, _, _, _, h', _⟩ | ⟨h', _⟩ | ⟨h', _⟩ <;>
          rw [h'] at h <;> cases h <;> rw [State.engine_setEngine_ne _ _ hjk] <;>
          exact State.engine_schedule s rest k
    | hardReset lost =>
      rw [step_reset hs] at h
      cases h
      exact .inr (.inl ⟨by simp [State.resetting, State.nextEvent, hs],
        by rw [hardwareReset_engine, State.engine_schedule]⟩)
    | complete j =>
      rw [step_complete hs] at h
      split at h
      · rename_i hb
        have := done j rest hb (by simp [State.nextEvent, hs]) (by cases h; rfl)
        tauto
      · cases h; exact .inl (by cases k <;> rfl)

/-! ### A host write and the instance it concerns -/

theorem InstanceId.number_inj {j k : InstanceId} (h : j.number = k.number) : j = k := by
  cases j <;> cases k <;> first | rfl | exact absurd h (by decide)

/-- What a host write inside the window of an instance does depends on that instance alone. -/
theorem hostWrite_local {s s' t : State} {k : InstanceId} {width : Nat} {addr : BitVec 20} {w : Word}
    (h : addr.toNat / 0x40000 = k.number) (he : s.engine k = s'.engine k)
    (hx : hostWrite width addr w s = .next t) :
    ∃ T, t = s.setEngine k T ∧ hostWrite width addr w s' = .next (s'.setEngine k T) := by
  unfold hostWrite at hx ⊢
  cases ha : alignedWordAccess width addr with
  | false => rw [ha] at hx; cases hx
  | true =>
    rw [ha] at hx
    simp only [Bool.not_true, Bool.false_eq_true, if_false] at hx ⊢
    have same : ∀ x : Host.Outcome State Fault Refusal, x = .next s → x = .next t →
        ∃ T, t = s.setEngine k T ∧
          (.next s' : Host.Outcome State Fault Refusal) = .next (s'.setEngine k T) := by
      rintro _ rfl h; cases h; exact ⟨s.engine k, by simp, by rw [he]; simp⟩
    rcases locate_cases addr.toNat with ⟨j, r, hl, hn⟩ | ⟨j, sp, off, hl, hn, hh⟩ |
      ⟨off, hl, _⟩ | hl <;> rw [hl] at hx ⊢
    · have hj : j = k := by
        apply InstanceId.number_inj
        have := r.offset_lt
        omega
      subst hj
      cases r with
      | cmd => simp only at hx ⊢; cases hx; exact ⟨_, rfl, by rw [he]⟩
      | operand o =>
        simp only [← he] at hx ⊢
        split at hx
        · cases hx
        · rename_i hf; cases hx; rw [if_neg hf]; exact ⟨_, rfl, rfl⟩
      | noiseThr =>
        simp only [← he] at hx ⊢
        split at hx
        · cases hx
        · rename_i hf; cases hx; rw [if_neg hf]; exact ⟨_, rfl, rfl⟩
      | _ => exact same _ rfl hx
    · have hj : j = k := by
        apply InstanceId.number_inj
        have := Space.holds_bounds hh
        omega
      subst hj
      cases sp with
      | raw =>
        simp only [← he] at hx ⊢
        split at hx
        · cases hx
        · rename_i hf; cases hx; rw [if_neg hf]; exact ⟨_, rfl, rfl⟩
      | _ => exact same _ rfl hx
    · exact same _ rfl hx
    · exact same _ rfl hx

/-- A host write outside the window of an instance leaves it. -/
theorem hostWrite_foreign {s t : State} {k : InstanceId} {width : Nat} {addr : BitVec 20} {w : Word}
    (h : addr.toNat / 0x40000 ≠ k.number) (hx : hostWrite width addr w s = .next t) :
    t.engine k = s.engine k := by
  rcases hostWrite_cases width addr w s with ⟨h', _⟩ | ⟨_, _, ⟨h', _⟩ | ⟨j, hj, h'⟩⟩
  · rw [h'] at hx; cases hx
  · rw [h'] at hx; cases hx; rfl
  · have hne : k ≠ j := by rintro rfl; exact h hj
    rcases h' with h' | ⟨r, h', _⟩ | ⟨h', _⟩ | ⟨off, _, _, _, h', _⟩ |
      ⟨h', _⟩ | ⟨h', _⟩ <;> rw [h'] at hx <;> cases hx <;> exact State.engine_setEngine_ne _ _ hne

/-- A host write leaves the schedule. -/
theorem hostWrite_schedule {s t : State} {width : Nat} {addr : BitVec 20} {w : Word}
    (hx : hostWrite width addr w s = .next t) : t.schedule = s.schedule := by
  rcases hostWrite_cases width addr w s with ⟨h', _⟩ | ⟨_, _, ⟨h', _⟩ | ⟨j, hj, h'⟩⟩
  · rw [h'] at hx; cases hx
  · rw [h'] at hx; cases hx; rfl
  · rcases h' with h' | ⟨r, h', _⟩ | ⟨h', _⟩ | ⟨off, _, _, _, h', _⟩ |
      ⟨h', _⟩ | ⟨h', _⟩ <;> rw [h'] at hx <;> cases hx <;> exact State.setEngine_schedule _ _ _

/-- A step consumes the event it takes. -/
theorem step_schedule {s t : State} {ev : Event} {rest : List Event}
    (hs : s.schedule = ev :: rest) (h : step s = .next t) : t.schedule = rest := by
  cases ev with
  | read w a =>
    rw [step_read hs] at h
    rcases hostRead_cases w a { s with schedule := rest } with ⟨h', _⟩ | ⟨h', _⟩ | ⟨_, _, h'⟩ <;>
      rw [h'] at h <;> cases h
    rfl
  | write w a v => rw [step_write hs] at h; exact hostWrite_schedule h
  | hardReset l => rw [step_reset hs] at h; cases h; rfl
  | complete k =>
    rw [step_complete hs] at h
    split at h <;> cases h
    · exact State.setEngine_schedule _ _ _
    · rfl

/-- An event that does not concern an instance leaves it. -/
theorem step_foreign {s t : State} {ev : Event} {rest : List Event} {k : InstanceId}
    (hs : s.schedule = ev :: rest) (h : step s = .next t) (hc : ev.concerns k = false) :
    t.engine k = s.engine k := by
  cases ev with
  | read w a =>
    rw [step_read hs] at h
    rcases hostRead_cases w a { s with schedule := rest } with ⟨h', _⟩ | ⟨h', _⟩ | ⟨_, _, h'⟩ <;>
      rw [h'] at h <;> cases h
    cases k <;> rfl
  | write w a v =>
    rw [step_write hs] at h
    rw [hostWrite_foreign (by simpa [Event.concerns] using hc) h, State.engine_schedule]
  | hardReset l => cases hc
  | complete j =>
    have hne : k ≠ j := by rintro rfl; simp [Event.concerns] at hc
    rw [step_complete hs] at h; split at h <;> cases h
    · rw [State.engine_setEngine_ne _ _ hne]; cases k <;> rfl
    · cases k <;> rfl

end Sys2Proof.Machine
end

