-- ==== Sys2Proof/Laws/Stages.lean ====
section
/-!
SUPPORT. One lemma per operation of the data flow saying once everything it can do: when it raises
what, and what it writes. Proofs about commands cite these and unfold nothing.
-/

namespace Sys2Proof.Machine

/-! ### Completion -/

/-- The engine a stage leaves, done or raised. -/
def StageEnd.engine : StageEnd → Engine
  | .done e => e
  | .raised _ e => e

/-- The error code a stage ends with. -/
def StageEnd.code : StageEnd → BitVec 4
  | .done _ => 0
  | .raised kind _ => kind.code

@[simp] theorem StageEnd.engine_done (e : Engine) : (StageEnd.done e).engine = e := rfl
@[simp] theorem StageEnd.engine_raised (kind : ErrorKind) (e : Engine) :
    (StageEnd.raised kind e).engine = e := rfl
@[simp] theorem StageEnd.code_done (e : Engine) : (StageEnd.done e).code = 0 := rfl
@[simp] theorem StageEnd.code_raised (kind : ErrorKind) (e : Engine) :
    (StageEnd.raised kind e).code = kind.code := rfl

theorem ErrorKind.code_ne_zero (kind : ErrorKind) : kind.code ≠ 0 := by cases kind <;> decide

/-- Completion writes the status fields and nothing else. -/
theorem StageEnd.complete_eq (x : StageEnd) :
    x.complete = { x.engine with status := x.engine.status.completed x.code 0 false } := by
  cases x <;> rfl

/-! ### DECODE -/

theorem decodable_iff (L W C F : Nat) : decodable L W C F = true ↔
    (1 ≤ W ∧ W ≤ 4) ∧ (C = 1 ∨ C = 2) ∧ L ≤ 8192 ∧ L % (W * C * F) = 0 ∧
      L / (W * C) ≤ 1024 := by
  simp only [decodable, Bool.and_eq_true, Bool.or_eq_true, decide_eq_true_eq, beq_iff_eq, and_assoc]
  simp only [Config.params_rawCap, Config.params_frmCap]

/-- The number of samples a decodable buffer holds fits `FRM_LEN`. -/
theorem decodable_length {L W C F : Nat} (h : decodable L W C F = true) :
    (BitVec.ofNat 11 (L / (W * C))).toNat = L / (W * C) := by
  have := ((decodable_iff L W C F).mp h).2.2.2.2
  rw [BitVec.toNat_ofNat, Nat.mod_eq_of_lt (by omega)]

theorem Engine.decodeStage_done (k : InstanceId) (e : Engine)
    (h : decodable e.rawLenOp e.widthOp e.channelsOp e.frameLenOp = true) :
    e.decodeStage k = .done { e.fill .frm ((List.range (e.rawLenOp / (e.widthOp * e.channelsOp))).map
        (e.rawSample k e.widthOp e.channelsOp)) with
      frmLen := BitVec.ofNat 11 (e.rawLenOp / (e.widthOp * e.channelsOp)) } := by
  simp only [Engine.decodeStage, h, if_true]

theorem Engine.decodeStage_raised (k : InstanceId) (e : Engine)
    (h : decodable e.rawLenOp e.widthOp e.channelsOp e.frameLenOp = false) :
    e.decodeStage k = .raised .decodeError e := by
  simp only [Engine.decodeStage, h, Bool.false_eq_true, if_false]

/-- A sample of at most four bytes fits 32 bits (spec/40_decode.md R123). -/
theorem Engine.rawSample_bounds (k : InstanceId) (e : Engine) (W C i : Nat) (hW : W ≤ 4) :
    -(2 ^ 31) ≤ e.rawSample k W C i ∧ e.rawSample k W C i < 2 ^ 31 := by
  unfold Engine.rawSample
  dsimp only
  generalize BitVec.ofNat (8 * W) _ = b
  have h1 := b.toInt_lt
  have h2 := b.le_toInt
  have h3 : (2 : Int) ^ (8 * W - 1) ≤ 2 ^ 31 := pow_le_pow_right₀ (by norm_num) (by omega)
  constructor <;> omega

/-- The sample order of this machine is little-endian (spec/20_memory.md R72 (a)). -/
@[simp] theorem sampleBytes_eq (bs : List Byte) : sampleBytes bs = bs := rfl

/-! ### TRANSFORM -/

theorem supportedLength_iff (N : Nat) : supportedLength N = true ↔ ∃ g ≤ 10, N = 2 ^ g := by
  simp only [supportedLength, List.any_eq_true, List.mem_range, beq_iff_eq, Config.params_logNMax]
  constructor
  · rintro ⟨g, h, rfl⟩; exact ⟨g, by omega, rfl⟩
  · rintro ⟨g, h, rfl⟩; exact ⟨g, by omega, rfl⟩

theorem Engine.transformStage_empty (k : InstanceId) (e : Engine) (h : e.frmLen.toNat = 0) :
    e.transformStage k = .raised .invalidInput e := by
  simp only [Engine.transformStage, h, if_true]

theorem Engine.transformStage_unsupported (k : InstanceId) (e : Engine) (h : e.frmLen.toNat ≠ 0)
    (hs : supportedLength e.frmLen.toNat = false) :
    e.transformStage k = .raised .unsupportedLength e := by
  simp only [Engine.transformStage, h, hs, if_false, Bool.not_false, if_true]

theorem supportedLength_pos {N : Nat} (h : supportedLength N = true) : 0 < N ∧ N ≤ 1024 := by
  obtain ⟨g, hg, rfl⟩ := (supportedLength_iff N).mp h
  exact ⟨by positivity, (Nat.pow_le_pow_right (by norm_num) hg).trans (by norm_num)⟩

/-- The spectrum lists TRANSFORM writes. -/
def Engine.newBins (e : Engine) : List Int :=
  (List.range (e.frmLen.toNat / 2 + 1)).map (fun j => (binRaw e.rateOp e.frmLen.toNat j : Int))

/-- The spectrum lists TRANSFORM writes. -/
def Engine.newMags (k : InstanceId) (e : Engine) : List Int :=
  (List.range (e.frmLen.toNat / 2 + 1)).map (fun j => (dftMag (e.frame k) j : Int))

theorem Engine.transformStage_done (k : InstanceId) (e : Engine)
    (hs : supportedLength e.frmLen.toNat = true) :
    e.transformStage k = .done { (e.fill .bin e.newBins).fill .mag (e.newMags k) with
      specLen := BitVec.ofNat 10 (e.frmLen.toNat / 2 + 1) } := by
  have := supportedLength_pos hs
  simp only [Engine.transformStage, hs, if_neg (show e.frmLen.toNat ≠ 0 by omega), Bool.not_true,
    Bool.false_eq_true, if_false]
  rfl

theorem supportedLength_spectrum {N : Nat} (h : supportedLength N = true) :
    (BitVec.ofNat 10 (N / 2 + 1)).toNat = N / 2 + 1 := by
  have := supportedLength_pos h
  rw [BitVec.toNat_ofNat, Nat.mod_eq_of_lt (by omega)]

/-! ### SELECT -/

theorem Engine.selectStage_done (k : InstanceId) (e : Engine)
    (h : e.cbLen.toNat + (e.newCandidates k).length ≤ 1024) :
    e.selectStage k = .done { e.writeFrom .cb e.cbLen.toNat (e.newCandidates k) with
      cbLen := BitVec.ofNat 11 (e.cbLen.toNat + (e.newCandidates k).length) } := by
  unfold Engine.selectStage
  exact if_neg (by simp only [Config.params_cbCap]; omega)

theorem Engine.selectStage_raised (k : InstanceId) (e : Engine)
    (h : 1024 < e.cbLen.toNat + (e.newCandidates k).length) :
    e.selectStage k = .raised .capacityError e := by
  unfold Engine.selectStage
  exact if_pos h

/-! ### EMIT -/

theorem Engine.emits_iff (e : Engine) : e.emits = true ↔ 3 < e.cbLen.toNat := by
  simp only [Engine.emits, decide_eq_true_eq]
  simp only [Config.params_emitMin]

theorem Engine.emitStage_emit (k : InstanceId) (e : Engine) (h : e.emits = true) :
    e.emitStage k = { e.clearCandidates with
      fe := BitVec.ofInt 32 (e.candidateMean k), status := { e.status with feValid := true } } := by
  simp only [Engine.emitStage, h, if_true]

theorem Engine.emitStage_keep (k : InstanceId) (e : Engine) (h : e.emits = false) :
    e.emitStage k = e := by
  simp only [Engine.emitStage, h, Bool.false_eq_true, if_false]

/-! ### NOTE -/

theorem Engine.noteFor_raised (e : Engine) (f : Int) (h : f ≤ 0) :
    e.noteFor f = .raised .invalidInput (e.withNoteValid false) := if_pos h

theorem Engine.noteFor_done (e : Engine) (f : Int) (h : 0 < f) :
    e.noteFor f = .done ({ e with noteRes := noteWord (noteNumber f.toNat) }.withNoteValid true) :=
  if_neg (by omega)

theorem Engine.noteStage_absent (e : Engine) (h : e.status.feValid = false) :
    e.noteStage = .done (e.withNoteValid false) := by
  simp [Engine.noteStage, Engine.estimate, h]

theorem Engine.noteStage_present (e : Engine) (h : e.status.feValid = true) :
    e.noteStage = e.noteFor e.fe.toInt := by
  simp [Engine.noteStage, Engine.estimate, h]

/-- Everything a note stage can do. -/
theorem Engine.noteStage_cases (e : Engine) :
    (e.status.feValid = false ∧ e.noteStage = .done (e.withNoteValid false)) ∨
    (e.status.feValid = true ∧ e.fe.toInt ≤ 0 ∧
      e.noteStage = .raised .invalidInput (e.withNoteValid false)) ∨
    (e.status.feValid = true ∧ 0 < e.fe.toInt ∧ e.noteStage =
      .done ({ e with noteRes := noteWord (noteNumber e.fe.toInt.toNat) }.withNoteValid true)) := by
  cases h : e.status.feValid with
  | false => exact .inl ⟨rfl, e.noteStage_absent h⟩
  | true =>
    rw [e.noteStage_present h]
    by_cases hf : e.fe.toInt ≤ 0
    · exact .inr (.inl ⟨rfl, hf, e.noteFor_raised _ hf⟩)
    · exact .inr (.inr ⟨rfl, by omega, e.noteFor_done _ (by omega)⟩)

/-! ### SYNTH -/

theorem Engine.synthesize_absent (e : Engine) :
    e.synthesize none = .raised .noFundamentalError e := rfl

theorem Engine.synthesize_noRate (e : Engine) (f : Int) (h : e.synthRateOp = 0) :
    e.synthesize (some f) = .raised .invalidInput e := by
  simp only [Engine.synthesize, h, if_true]

theorem Engine.synthesize_done (e : Engine) (f : Int) (h : e.synthRateOp ≠ 0) :
    e.synthesize (some f) = .done { e.fill .tone ((List.range e.synthCountOp).map
        (toneValue (tuningWord f e.synthRateOp))) with
      toneLen := BitVec.ofNat 16 e.synthCountOp } := by
  simp only [Engine.synthesize, h, if_false]

theorem Engine.estimate_eq (e : Engine) :
    e.estimate = if e.status.feValid then some e.fe.toInt else none := rfl

/-! ### SETBAND -/

theorem Engine.setBand_done (e : Engine) (clamp : Int → Int → Int × Int)
    (h : e.reqMinOp < e.reqMaxOp) :
    e.setBand clamp = .done (e.withBand e.reqMinOp e.reqMaxOp) := if_pos h

theorem Engine.setBand_raised (e : Engine) (clamp : Int → Int → Int × Int)
    (h : e.reqMaxOp ≤ e.reqMinOp) :
    e.setBand clamp = .raised .rejectedClamp
      (e.withBand (clamp e.reqMinOp e.reqMaxOp).1 (clamp e.reqMinOp e.reqMaxOp).2) :=
  if_neg (by omega)

/-! ### TICK -/

/-- Everything a TICK can do: the five places it can end at (spec/47_tick.md R191, R192). -/
theorem Engine.tickPass_cases (k : InstanceId) (e : Engine) :
    (∃ kind e1, e.decodeStage k = .raised kind e1 ∧ e.tickPass k = e1.raise kind 1 false) ∨
    ∃ e1, e.decodeStage k = .done e1 ∧
      ((∃ kind e2, e1.transformStage k = .raised kind e2 ∧
          e.tickPass k = e2.raise kind 2 false) ∨
        ∃ e2, e1.transformStage k = .done e2 ∧
          ((∃ kind e3, e2.selectStage k = .raised kind e3 ∧
              e.tickPass k = e3.raise kind 3 false) ∨
            ∃ e3, e2.selectStage k = .done e3 ∧
              ((∃ kind e5, (e3.emitStage k).noteStage = .raised kind e5 ∧
                  e.tickPass k = e5.raise kind 5 e3.emits) ∨
                ∃ e5, (e3.emitStage k).noteStage = .done e5 ∧
                  e.tickPass k = e5.done e3.emits))) := by
  unfold Engine.tickPass Engine.tickTransform Engine.tickSelect Engine.tickEmitNote
  cases h1 : e.decodeStage k with
  | raised kind e1 => exact .inl ⟨kind, e1, rfl, rfl⟩
  | done e1 =>
    refine .inr ⟨e1, rfl, ?_⟩
    cases h2 : e1.transformStage k with
    | raised kind e2 => exact .inl ⟨kind, e2, rfl, by simp only [h2]⟩
    | done e2 =>
      refine .inr ⟨e2, rfl, ?_⟩
      cases h3 : e2.selectStage k with
      | raised kind e3 => exact .inl ⟨kind, e3, rfl, by simp only [h2, h3]⟩
      | done e3 =>
        refine .inr ⟨e3, rfl, ?_⟩
        cases h5 : (e3.emitStage k).noteStage with
        | raised kind e5 => exact .inl ⟨kind, e5, rfl, by simp only [h2, h3, h5]⟩
        | done e5 => exact .inr ⟨e5, rfl, by simp only [h2, h3, h5]⟩

/-! ### Why an operation raises -/

/-- What a raise of the decode operation says. -/
theorem Engine.decodeStage_raises {k : InstanceId} {e e1 : Engine} {kind : ErrorKind}
    (h : e.decodeStage k = .raised kind e1) : kind = .decodeError ∧ e1 = e ∧
      decodable e.rawLenOp e.widthOp e.channelsOp e.frameLenOp = false := by
  cases hd : decodable e.rawLenOp e.widthOp e.channelsOp e.frameLenOp with
  | true => rw [e.decodeStage_done k hd] at h; cases h
  | false => rw [e.decodeStage_raised k hd] at h; cases h; exact ⟨rfl, rfl, rfl⟩

/-- What a success of the decode operation says. -/
theorem Engine.decodeStage_succeeds {k : InstanceId} {e e1 : Engine}
    (h : e.decodeStage k = .done e1) :
    decodable e.rawLenOp e.widthOp e.channelsOp e.frameLenOp = true ∧
      e1.frmLen.toNat = e.rawLenOp / (e.widthOp * e.channelsOp) := by
  cases hd : decodable e.rawLenOp e.widthOp e.channelsOp e.frameLenOp with
  | true =>
    rw [e.decodeStage_done k hd] at h
    cases h
    exact ⟨rfl, decodable_length hd⟩
  | false => rw [e.decodeStage_raised k hd] at h; cases h

/-- What a raise of the transform operation says. -/
theorem Engine.transformStage_raises {k : InstanceId} {e e1 : Engine} {kind : ErrorKind}
    (h : e.transformStage k = .raised kind e1) : e1 = e ∧
      ((kind = .invalidInput ∧ e.frmLen.toNat = 0) ∨
        (kind = .unsupportedLength ∧ e.frmLen.toNat ≠ 0 ∧
          supportedLength e.frmLen.toNat = false)) := by
  by_cases h0 : e.frmLen.toNat = 0
  · rw [e.transformStage_empty k h0] at h; cases h; exact ⟨rfl, .inl ⟨rfl, h0⟩⟩
  · cases hs : supportedLength e.frmLen.toNat with
    | false =>
      rw [e.transformStage_unsupported k h0 hs] at h
      cases h
      exact ⟨rfl, .inr ⟨rfl, h0, rfl⟩⟩
    | true => rw [e.transformStage_done k hs] at h; cases h

/-- What a success of the transform operation says. -/
theorem Engine.transformStage_succeeds {k : InstanceId} {e e1 : Engine}
    (h : e.transformStage k = .done e1) : supportedLength e.frmLen.toNat = true ∧
      e1.specLen.toNat = e.frmLen.toNat / 2 + 1 ∧ e1.specLen.toNat ≤ 513 := by
  by_cases h0 : e.frmLen.toNat = 0
  · rw [e.transformStage_empty k h0] at h; cases h
  · cases hs : supportedLength e.frmLen.toNat with
    | false => rw [e.transformStage_unsupported k h0 hs] at h; cases h
    | true =>
      rw [e.transformStage_done k hs] at h
      cases h
      have hl : (BitVec.ofNat 10 (e.frmLen.toNat / 2 + 1)).toNat = e.frmLen.toNat / 2 + 1 :=
        supportedLength_spectrum hs
      have := supportedLength_pos hs
      exact ⟨rfl, hl, by rw [hl]; omega⟩

/-- The scan takes no more candidates than it sees bins. -/
theorem risingPeaks_length_le (cnt tot m : Nat) (l : List (Int × Nat)) :
    (risingPeaks cnt tot m l).length ≤ l.length := by
  induction l generalizing m with
  | nil => simp [risingPeaks]
  | cons p l ih =>
    obtain ⟨f, a⟩ := p
    rw [risingPeaks]
    split
    · simpa using ih a
    · exact (ih m).trans (by simp)

/-- One SELECT takes at most one candidate a bin. -/
theorem Engine.newCandidates_length_le (k : InstanceId) (e : Engine) :
    (e.newCandidates k).length ≤ e.specLen.toNat := by
  unfold Engine.newCandidates Engine.inBand
  refine (risingPeaks_length_le _ _ _ _).trans ?_
  rw [List.length_map]
  exact (List.length_filter_le _ _).trans (by simp)

/-- What a raise of the select operation says. -/
theorem Engine.selectStage_raises {k : InstanceId} {e e1 : Engine} {kind : ErrorKind}
    (h : e.selectStage k = .raised kind e1) : kind = .capacityError ∧ e1 = e ∧
      1024 < e.cbLen.toNat + (e.newCandidates k).length := by
  by_cases hc : e.cbLen.toNat + (e.newCandidates k).length ≤ 1024
  · rw [e.selectStage_done k hc] at h; cases h
  · rw [e.selectStage_raised k (by omega)] at h; cases h; exact ⟨rfl, rfl, by omega⟩

/-- What a success of the select operation says. -/
theorem Engine.selectStage_succeeds {k : InstanceId} {e e1 : Engine}
    (h : e.selectStage k = .done e1) : e.cbLen.toNat + (e.newCandidates k).length ≤ 1024 ∧
      e1.cbLen.toNat = e.cbLen.toNat + (e.newCandidates k).length := by
  by_cases hc : e.cbLen.toNat + (e.newCandidates k).length ≤ 1024
  · rw [e.selectStage_done k hc] at h
    cases h
    exact ⟨hc, by show (BitVec.ofNat 11 _).toNat = _; rw [BitVec.toNat_ofNat]; omega⟩
  · rw [e.selectStage_raised k (by omega)] at h; cases h

/-! ### What each operation can write -/

/-- The decode operation writes the frame. -/
theorem Engine.decodeStage_frame (k : InstanceId) (e : Engine) :
    ∃ (n : BitVec 11) (m : Memory) (ep : Epochs),
      (e.decodeStage k).engine = { e with frmLen := n, mem := m, epochs := ep } := by
  cases h : decodable e.rawLenOp e.widthOp e.channelsOp e.frameLenOp with
  | true => rw [e.decodeStage_done k h]; exact ⟨_, _, _, rfl⟩
  | false => rw [e.decodeStage_raised k h]; exact ⟨_, _, _, rfl⟩

/-- The transform operation writes the spectrum. -/
theorem Engine.transformStage_frame (k : InstanceId) (e : Engine) :
    ∃ (n : BitVec 10) (m : Memory) (ep : Epochs),
      (e.transformStage k).engine = { e with specLen := n, mem := m, epochs := ep } := by
  by_cases h0 : e.frmLen.toNat = 0
  · rw [e.transformStage_empty k h0]; exact ⟨_, _, _, rfl⟩
  · cases h : supportedLength e.frmLen.toNat with
    | false => rw [e.transformStage_unsupported k h0 h]; exact ⟨_, _, _, rfl⟩
    | true => rw [e.transformStage_done k h]; exact ⟨_, _, _, rfl⟩

/-- The select operation writes the Candidate Buffer. -/
theorem Engine.selectStage_frame (k : InstanceId) (e : Engine) :
    ∃ (n : BitVec 11) (m : Memory),
      (e.selectStage k).engine = { e with cbLen := n, mem := m } := by
  by_cases h : e.cbLen.toNat + (e.newCandidates k).length ≤ 1024
  · rw [e.selectStage_done k h]; exact ⟨_, _, rfl⟩
  · rw [e.selectStage_raised k (by omega)]; exact ⟨_, _, rfl⟩

/-- The emit operation writes the estimate and the Candidate Buffer. -/
theorem Engine.emitStage_frame (k : InstanceId) (e : Engine) :
    ∃ (f : Word) (n : BitVec 11) (m : Memory) (ep : Epochs) (v : Bool),
      e.emitStage k = { e with
        fe := f, cbLen := n, mem := m, epochs := ep, status := { e.status with feValid := v } } := by
  cases h : e.emits with
  | true => rw [e.emitStage_emit k h]; exact ⟨_, _, _, _, _, rfl⟩
  | false => rw [e.emitStage_keep k h]; exact ⟨_, _, _, _, _, rfl⟩

/-- The note operation writes its result. -/
theorem Engine.noteFor_frame (e : Engine) (f : Int) :
    ∃ (r : Word) (v : Bool),
      (e.noteFor f).engine = { e with noteRes := r, status := { e.status with noteValid := v } } := by
  by_cases h : f ≤ 0
  · rw [e.noteFor_raised f h]; exact ⟨_, _, rfl⟩
  · rw [e.noteFor_done f (by omega)]; exact ⟨_, _, rfl⟩

theorem Engine.noteStage_frame (e : Engine) :
    ∃ (r : Word) (v : Bool),
      e.noteStage.engine = { e with noteRes := r, status := { e.status with noteValid := v } } := by
  cases h : e.status.feValid with
  | false => rw [e.noteStage_absent h]; exact ⟨_, _, rfl⟩
  | true => rw [e.noteStage_present h]; exact e.noteFor_frame _

/-- The synthesis writes the tone. -/
theorem Engine.synthesize_frame (e : Engine) (f : Option Int) :
    ∃ (n : BitVec 16) (m : Memory) (ep : Epochs),
      (e.synthesize f).engine = { e with toneLen := n, mem := m, epochs := ep } := by
  cases f with
  | none => exact ⟨_, _, _, rfl⟩
  | some f =>
    by_cases h : e.synthRateOp = 0
    · rw [e.synthesize_noRate f h]; exact ⟨_, _, _, rfl⟩
    · rw [e.synthesize_done f h]; exact ⟨_, _, _, rfl⟩

/-- SETBAND writes the band. -/
theorem Engine.setBand_frame (e : Engine) (clamp : Int → Int → Int × Int) :
    ∃ a b : Int, (e.setBand clamp).engine = e.withBand a b := by
  by_cases h : e.reqMinOp < e.reqMaxOp
  · rw [e.setBand_done clamp h]; exact ⟨_, _, rfl⟩
  · rw [e.setBand_raised clamp (by omega)]; exact ⟨_, _, rfl⟩

/-- TICK writes what its stages write. -/
theorem Engine.tickPass_frame (k : InstanceId) (e : Engine) :
    ∃ (n : BitVec 11) (l : BitVec 10) (b : BitVec 11) (f r : Word) (m : Memory) (ep : Epochs)
      (err : BitVec 4) (j : BitVec 3) (em fv nv : Bool),
      e.tickPass k = { e with
        frmLen := n, specLen := l, cbLen := b, fe := f, noteRes := r, mem := m, epochs := ep
        status := { e.status with
          busy := false, err := err, stage := j, emitted := em, feValid := fv
          noteValid := nv } } := by
  obtain ⟨n, m, ep, hd⟩ := e.decodeStage_frame k
  rcases e.tickPass_cases k with ⟨_, e1, h1, h⟩ | ⟨e1, h1, h⟩ <;> rw [h1] at hd <;>
    simp only [StageEnd.engine_done, StageEnd.engine_raised] at hd <;> subst hd
  · exact ⟨_, _, _, _, _, _, _, _, _, _, _, _, h⟩
  obtain ⟨l, m', ep', hd⟩ := Engine.transformStage_frame k { e with frmLen := n, mem := m, epochs := ep }
  rcases h with ⟨_, e2, h2, h⟩ | ⟨e2, h2, h⟩ <;> rw [h2] at hd <;>
    simp only [StageEnd.engine_done, StageEnd.engine_raised] at hd <;> subst hd
  · exact ⟨_, _, _, _, _, _, _, _, _, _, _, _, h⟩
  obtain ⟨b, m2, hd⟩ := Engine.selectStage_frame k
    { e with frmLen := n, specLen := l, mem := m', epochs := ep' }
  rcases h with ⟨_, e3, h3, h⟩ | ⟨e3, h3, h⟩ <;> rw [h3] at hd <;>
    simp only [StageEnd.engine_done, StageEnd.engine_raised] at hd <;> subst hd
  · exact ⟨_, _, _, _, _, _, _, _, _, _, _, _, h⟩
  obtain ⟨f, b', m3, ep3, v, he⟩ := Engine.emitStage_frame k
    { e with frmLen := n, specLen := l, cbLen := b, mem := m2, epochs := ep' }
  rw [he] at h
  obtain ⟨r, v', hd⟩ := Engine.noteStage_frame { e with
    frmLen := n, specLen := l, cbLen := b', fe := f, mem := m3, epochs := ep3
    status := { e.status with feValid := v } }
  rcases h with ⟨_, e5, h5, h⟩ | ⟨e5, h5, h⟩ <;> rw [h5] at hd <;>
    simp only [StageEnd.engine_done, StageEnd.engine_raised] at hd <;> subst hd
  · exact ⟨_, _, _, _, _, _, _, _, _, _, _, _, h⟩
  · exact ⟨_, _, _, _, _, _, _, _, _, _, _, _, h⟩

/-! ### Every command -/

/-- Completion clears `BUSY`. -/
@[simp] theorem Engine.after_busy (k : InstanceId) (e : Engine) (i : Instr) :
    (e.after k i).status.busy = false := by
  cases i with
  | tick =>
    simp only [Engine.after]
    rcases e.tickPass_cases k with ⟨_, _, _, h⟩ | ⟨_, _, ⟨_, _, _, h⟩ | ⟨_, _, ⟨_, _, _, h⟩ |
      ⟨_, _, ⟨_, _, _, h⟩ | ⟨_, _, h⟩⟩⟩⟩ <;> rw [h] <;> rfl
  | init => rfl
  | emit => rfl
  | _ => simp only [Engine.after, StageEnd.complete_eq, Status.completed_busy]

/-- What no command but INIT writes: `CMD`, the operand registers, their latches, `NOISE_THR` and
`OVERRUN`. -/
theorem Engine.after_frame (k : InstanceId) (e : Engine) (i : Instr) (h : i ≠ .init) :
    (e.after k i).cmd = e.cmd ∧ (e.after k i).operands = e.operands ∧
      (e.after k i).latched = e.latched ∧ (e.after k i).noiseThr = e.noiseThr ∧
      (e.after k i).status.overrun = e.status.overrun := by
  cases i with
  | init => exact absurd rfl h
  | decode =>
    obtain ⟨_, _, _, hd⟩ := e.decodeStage_frame k
    simp [Engine.after, StageEnd.complete_eq, hd]
  | transform =>
    obtain ⟨_, _, _, hd⟩ := e.transformStage_frame k
    simp [Engine.after, StageEnd.complete_eq, hd]
  | select =>
    obtain ⟨_, _, hd⟩ := e.selectStage_frame k
    simp [Engine.after, StageEnd.complete_eq, hd]
  | emit =>
    obtain ⟨_, _, _, _, _, hd⟩ := e.emitStage_frame k
    simp [Engine.after, hd]
  | noteE =>
    obtain ⟨_, _, hd⟩ := e.noteStage_frame
    simp [Engine.after, StageEnd.complete_eq, hd]
  | noteF =>
    obtain ⟨_, _, hd⟩ := e.noteFor_frame e.freqArgOp
    simp [Engine.after, StageEnd.complete_eq, hd]
  | synthE =>
    obtain ⟨_, _, _, hd⟩ := e.synthesize_frame e.estimate
    simp [Engine.after, StageEnd.complete_eq, hd]
  | synthF =>
    obtain ⟨_, _, _, hd⟩ := e.synthesize_frame (some e.freqArgOp)
    simp [Engine.after, StageEnd.complete_eq, hd]
  | setbandMin =>
    obtain ⟨_, _, hd⟩ := e.setBand_frame (fun _ b => (b - clampDelta, b))
    simp [Engine.after, StageEnd.complete_eq, hd]
  | setbandMax =>
    obtain ⟨_, _, hd⟩ := e.setBand_frame (fun a _ => (a, a + clampDelta))
    simp [Engine.after, StageEnd.complete_eq, hd]
  | tick =>
    obtain ⟨_, _, _, _, _, _, _, _, _, _, _, _, hd⟩ := e.tickPass_frame k
    simp [Engine.after, hd]

@[simp] theorem Engine.completed_busy (k : InstanceId) (e : Engine) :
    (e.completed k).status.busy = false := by
  unfold Engine.completed
  split
  · exact Engine.after_busy k e _
  · rfl

end Sys2Proof.Machine
end

