-- ==== Sys2Proof/Laws/Bytes.lean ====
section
/-!
SUPPORT. What each operation of the data flow leaves of the bytes and of the elements of the data
spaces.
-/

namespace Sys2Proof.Machine

/-- Only the memory and its generations decide what a byte reads as. -/
theorem Engine.byteAt_eq (k : InstanceId) {e e' : Engine} (off : Nat) (hm : e'.mem = e.mem)
    (he : e'.epochs = e.epochs) : e'.byteAt k off = e.byteAt k off := by
  unfold Engine.byteAt
  rw [hm, he]

theorem Engine.elem_eq (k : InstanceId) {e e' : Engine} (sp : Space) (i : Nat)
    (hm : e'.mem = e.mem) (he : e'.epochs = e.epochs) : e'.elem k sp i = e.elem k sp i :=
  Engine.elem_congr k sp i (fun _ _ => Engine.byteAt_eq k _ hm he)

/-! ### The lists the operations write fit their spaces -/

theorem decodable_count {L W C F : Nat} (h : decodable L W C F = true) :
    L / (W * C) ≤ Space.frm.count := ((decodable_iff L W C F).mp h).2.2.2.2

@[simp] theorem Engine.newBins_length (e : Engine) : e.newBins.length = e.frmLen.toNat / 2 + 1 := by
  simp [Engine.newBins]

@[simp] theorem Engine.newMags_length (k : InstanceId) (e : Engine) :
    (e.newMags k).length = e.frmLen.toNat / 2 + 1 := by
  simp [Engine.newMags]

theorem supportedLength_count {N : Nat} (h : supportedLength N = true) : N / 2 + 1 ≤ 513 := by
  have := supportedLength_pos h
  omega

/-! ### Bytes -/

/-- An offset outside the window of a space lies in no element of it. -/
theorem Space.holds_eq_false {sp : Space} {off : Nat} (h : off < sp.base ∨ sp.limit ≤ off) :
    sp.holds off = false := by
  cases hb : sp.holds off with
  | false => rfl
  | true => rw [Space.holds_iff] at hb; omega

/-- An offset of one space lies in no other. -/
theorem Space.holds_other {sp sp' : Space} {off : Nat} (h : sp.holds off = true) (hne : sp' ≠ sp) :
    sp'.holds off = false := by
  cases hb : sp'.holds off with
  | false => rfl
  | true => exact absurd (Space.disjoint hb h) hne

theorem Engine.decodeStage_byteAt (k : InstanceId) (e : Engine) (off : Nat)
    (h : Space.frm.holds off = false) : (e.decodeStage k).engine.byteAt k off = e.byteAt k off := by
  cases hd : decodable e.rawLenOp e.widthOp e.channelsOp e.frameLenOp with
  | false => rw [e.decodeStage_raised k hd]; rfl
  | true =>
    rw [e.decodeStage_done k hd]
    refine (Engine.byteAt_eq k off rfl rfl).trans (Engine.byteAt_fill_outside k e .frm
      ((List.range (e.rawLenOp / (e.widthOp * e.channelsOp))).map
        (e.rawSample k e.widthOp e.channelsOp)) off ?_ h (by simp) (by simp))
    simpa using decodable_count hd

theorem Engine.transformStage_byteAt (k : InstanceId) (e : Engine) (off : Nat)
    (hb : Space.bin.holds off = false) (hm : Space.mag.holds off = false) :
    (e.transformStage k).engine.byteAt k off = e.byteAt k off := by
  by_cases h0 : e.frmLen.toNat = 0
  · rw [e.transformStage_empty k h0]; rfl
  · cases h : supportedLength e.frmLen.toNat with
    | false => rw [e.transformStage_unsupported k h0 h]; rfl
    | true =>
      rw [e.transformStage_done k h]
      have hc := supportedLength_count h
      refine (Engine.byteAt_eq k off rfl rfl).trans
        ((Engine.byteAt_fill_outside k (e.fill .bin e.newBins) .mag (e.newMags k) off ?_ hm
          (fun _ => hm) (fun _ => hb)).trans
          (Engine.byteAt_fill_outside k e .bin e.newBins off ?_ hb (fun _ => hm) (fun _ => hb)))
      · simpa [Space.count_eq] using hc
      · simpa [Space.count_eq] using hc

theorem Engine.selectStage_byteAt (k : InstanceId) (e : Engine) (off : Nat)
    (h : Space.cb.holds off = false) : (e.selectStage k).engine.byteAt k off = e.byteAt k off := by
  by_cases hc : e.cbLen.toNat + (e.newCandidates k).length ≤ 1024
  · rw [e.selectStage_done k hc]
    refine (Engine.byteAt_eq k off rfl rfl).trans
      (Engine.byteAt_writeFrom_outside k e .cb e.cbLen.toNat (e.newCandidates k) off ?_)
    have hn : ¬ (Space.cb.base ≤ off ∧ off < Space.cb.limit) := by
      rw [← Space.holds_iff, h]; simp
    simp only [Space.base, Space.limit, Space.elemBytes_eq, Space.count_eq] at hn ⊢
    omega
  · rw [e.selectStage_raised k (by omega)]; rfl

theorem Engine.emitStage_byteAt (k : InstanceId) (e : Engine) (off : Nat)
    (h : Space.cb.holds off = false) : (e.emitStage k).byteAt k off = e.byteAt k off := by
  cases he : e.emits with
  | true =>
    rw [e.emitStage_emit k he]
    exact (Engine.byteAt_eq k off rfl rfl).trans (Engine.byteAt_fill_outside k e .cb [] off
      (by simp) h (by simp) (by simp))
  | false => rw [e.emitStage_keep k he]

theorem Engine.noteStage_byteAt (k : InstanceId) (e : Engine) (off : Nat) :
    e.noteStage.engine.byteAt k off = e.byteAt k off := by
  obtain ⟨_, _, h⟩ := e.noteStage_frame
  rw [h]; rfl

theorem Engine.noteFor_byteAt (k : InstanceId) (e : Engine) (f : Int) (off : Nat) :
    (e.noteFor f).engine.byteAt k off = e.byteAt k off := by
  obtain ⟨_, _, h⟩ := e.noteFor_frame f
  rw [h]; rfl

theorem Engine.setBand_byteAt (k : InstanceId) (e : Engine) (clamp : Int → Int → Int × Int)
    (off : Nat) : (e.setBand clamp).engine.byteAt k off = e.byteAt k off := by
  obtain ⟨_, _, h⟩ := e.setBand_frame clamp
  rw [h]; rfl

theorem Engine.synthesize_byteAt (k : InstanceId) (e : Engine) (f : Option Int) (off : Nat)
    (h : Space.tone.holds off = false) : (e.synthesize f).engine.byteAt k off = e.byteAt k off := by
  cases f with
  | none => rfl
  | some f =>
    by_cases hr : e.synthRateOp = 0
    · rw [e.synthesize_noRate f hr]; rfl
    · rw [e.synthesize_done f hr]
      refine (Engine.byteAt_eq k off rfl rfl).trans (Engine.byteAt_fill_outside k e .tone
        ((List.range e.synthCountOp).map (toneValue (tuningWord f e.synthRateOp))) off ?_ h
        (by simp) (by simp))
      have := e.latched.synthCount.isLt
      simp only [List.length_map, List.length_range, Space.count_eq, Engine.synthCountOp]
      omega

/-- TICK leaves every byte outside `FRM`, `BIN`, `MAG` and `CB`. -/
theorem Engine.tickPass_byteAt (k : InstanceId) (e : Engine) (off : Nat)
    (hn : ∀ sp ∈ [Space.frm, .bin, .mag, .cb], sp.holds off = false) :
    (e.tickPass k).byteAt k off = e.byteAt k off := by
  have h1 := e.decodeStage_byteAt k off (hn .frm (by simp))
  rcases e.tickPass_cases k with ⟨kind, e1, hd, h⟩ | ⟨e1, hd, h⟩ <;> rw [hd] at h1
  · rw [h]; exact h1
  have h2 := e1.transformStage_byteAt k off (hn .bin (by simp)) (hn .mag (by simp))
  rcases h with ⟨kind, e2, hd, h⟩ | ⟨e2, hd, h⟩ <;> rw [hd] at h2
  · rw [h]; exact h2.trans h1
  have h3 := e2.selectStage_byteAt k off (hn .cb (by simp))
  rcases h with ⟨kind, e3, hd, h⟩ | ⟨e3, hd, h⟩ <;> rw [hd] at h3
  · rw [h]; exact h3.trans (h2.trans h1)
  have h4 := e3.emitStage_byteAt k off (hn .cb (by simp))
  have h5 := (e3.emitStage k).noteStage_byteAt k off
  rcases h with ⟨kind, e5, hd, h⟩ | ⟨e5, hd, h⟩ <;> rw [hd] at h5
  · rw [h]; exact h5.trans (h4.trans (h3.trans (h2.trans h1)))
  · rw [h]; exact h5.trans (h4.trans (h3.trans (h2.trans h1)))

/-- The offsets below `FRM` and above `CB` lie in none of the spaces TICK writes. -/
theorem tickSpaces_outside {off : Nat} (h : ¬ (0x4000 ≤ off ∧ off < 0x9000)) :
    ∀ sp ∈ [Space.frm, .bin, .mag, .cb], sp.holds off = false := by
  intro sp hsp
  cases hb : sp.holds off with
  | false => rfl
  | true =>
    rw [Space.holds_iff] at hb
    fin_cases hsp <;> simp only [Space.base, Space.limit, Space.elemBytes_eq, Space.count_eq] at hb <;>
      omega

/-- Completing a stand-alone command touches no byte. -/
theorem StageEnd.complete_byteAt (k : InstanceId) (x : StageEnd) (off : Nat) :
    x.complete.byteAt k off = x.engine.byteAt k off := by cases x <;> rfl

/-- The spaces a command can write. -/
def writtenBy : Instr → List Space
  | .decode => [.frm]
  | .transform => [.bin, .mag]
  | .select => [.cb]
  | .emit => [.cb]
  | .noteE => []
  | .noteF => []
  | .synthE => [.tone]
  | .synthF => [.tone]
  | .setbandMin => []
  | .setbandMax => []
  | .tick => [.frm, .bin, .mag, .cb]
  | .init => [.raw, .frm, .bin, .mag, .cb, .tone]

/-- A command other than INIT leaves every byte outside the spaces it writes. -/
theorem Engine.after_byteAt (k : InstanceId) (e : Engine) (i : Instr) (off : Nat) (hi : i ≠ .init)
    (h : ∀ sp ∈ writtenBy i, sp.holds off = false) :
    (e.after k i).byteAt k off = e.byteAt k off := by
  cases i with
  | init => exact absurd rfl hi
  | tick => exact e.tickPass_byteAt k off h
  | emit => exact e.emitStage_byteAt k off (h _ (by simp [writtenBy]))
  | decode =>
    exact (StageEnd.complete_byteAt k _ off).trans
      (e.decodeStage_byteAt k off (h _ (by simp [writtenBy])))
  | transform =>
    exact (StageEnd.complete_byteAt k _ off).trans (e.transformStage_byteAt k off
      (h .bin (by simp [writtenBy])) (h .mag (by simp [writtenBy])))
  | select =>
    exact (StageEnd.complete_byteAt k _ off).trans
      (e.selectStage_byteAt k off (h _ (by simp [writtenBy])))
  | noteE => exact (StageEnd.complete_byteAt k _ off).trans (e.noteStage_byteAt k off)
  | noteF => exact (StageEnd.complete_byteAt k _ off).trans (e.noteFor_byteAt k _ off)
  | synthE =>
    exact (StageEnd.complete_byteAt k _ off).trans
      (e.synthesize_byteAt k _ off (h _ (by simp [writtenBy])))
  | synthF =>
    exact (StageEnd.complete_byteAt k _ off).trans
      (e.synthesize_byteAt k _ off (h _ (by simp [writtenBy])))
  | setbandMin => exact (StageEnd.complete_byteAt k _ off).trans (e.setBand_byteAt k _ off)
  | setbandMax => exact (StageEnd.complete_byteAt k _ off).trans (e.setBand_byteAt k _ off)

/-! ### Elements -/

/-- Completing a stand-alone command touches no element. -/
theorem StageEnd.complete_elem (k : InstanceId) (x : StageEnd) (sp : Space) (i : Nat) :
    x.complete.elem k sp i = x.engine.elem k sp i := by cases x <;> rfl

theorem StageEnd.complete_sample (k : InstanceId) (x : StageEnd) (i : Nat) :
    x.complete.sample k i = x.engine.sample k i := by cases x <;> rfl

theorem StageEnd.complete_binFreq (k : InstanceId) (x : StageEnd) (i : Nat) :
    x.complete.binFreq k i = x.engine.binFreq k i := by cases x <;> rfl

theorem StageEnd.complete_magnitude (k : InstanceId) (x : StageEnd) (i : Nat) :
    x.complete.magnitude k i = x.engine.magnitude k i := by cases x <;> rfl

theorem StageEnd.complete_candidate (k : InstanceId) (x : StageEnd) (i : Nat) :
    x.complete.candidate k i = x.engine.candidate k i := by cases x <;> rfl

theorem StageEnd.complete_toneSample (k : InstanceId) (x : StageEnd) (i : Nat) :
    x.complete.toneSample k i = x.engine.toneSample k i := by cases x <;> rfl

/-- The samples a DECODE writes. -/
theorem Engine.decodeStage_sample (k : InstanceId) (e : Engine)
    (h : decodable e.rawLenOp e.widthOp e.channelsOp e.frameLenOp = true) (i : Nat)
    (hi : i < e.rawLenOp / (e.widthOp * e.channelsOp)) :
    (e.decodeStage k).engine.sample k i = e.rawSample k e.widthOp e.channelsOp i := by
  rw [e.decodeStage_done k h]
  have hW := ((decodable_iff _ _ _ _).mp h).1.2
  have hb := e.rawSample_bounds k e.widthOp e.channelsOp i hW
  have he := Engine.elem_fill k e .frm ((List.range (e.rawLenOp / (e.widthOp * e.channelsOp))).map
    (e.rawSample k e.widthOp e.channelsOp)) i (by simpa using hi)
  simp only [List.getElem_map, List.getElem_range, Space.elemBytes_eq] at he
  rw [Engine.sample_eq]
  refine (congrArg (fun x => (BitVec.ofNat 32 x).toInt)
    ((Engine.elem_eq k .frm i rfl rfl).trans he)).trans ?_
  rw [show (256 : Int) ^ 4 = 2 ^ 32 by norm_num]
  exact toInt_ofNat_emod 32 _ (by norm_num) (by norm_num; exact hb.1) (by norm_num; exact hb.2)

/-- `BIN[k]` is below `2^31` (spec/41_transform.md R133). -/
theorem binRaw_lt (R N j : Nat) (hN : 0 < N) (hR : R < 2 ^ 20) (hj : j ≤ N / 2) :
    binRaw R N j < 2 ^ 31 := by
  unfold binRaw
  rw [Config.params_frac, Nat.div_lt_iff_lt_mul hN]
  have h1 : j * 2 ≤ N := by omega
  nlinarith

/-- For a supported length the division of R133 is exact. -/
theorem binRaw_mul (R N j : Nat) (h : supportedLength N = true) :
    binRaw R N j * N = j * R * 4096 := by
  obtain ⟨g, hg, rfl⟩ := (supportedLength_iff N).mp h
  unfold binRaw
  rw [Config.params_frac]
  apply Nat.div_mul_cancel
  exact Dvd.dvd.mul_left (Nat.pow_dvd_pow 2 (by omega)) _

theorem Engine.rateOp_lt (e : Engine) : e.rateOp < 2 ^ 20 := e.latched.rate.isLt

/-- The bins a TRANSFORM writes. -/
theorem Engine.transformStage_binFreq (k : InstanceId) (e : Engine)
    (h : supportedLength e.frmLen.toNat = true) (j : Nat) (hj : j ≤ e.frmLen.toNat / 2) :
    (e.transformStage k).engine.binFreq k j = binRaw e.rateOp e.frmLen.toNat j := by
  rw [e.transformStage_done k h]
  have hc := supportedLength_count h
  have hp := supportedLength_pos h
  have he := Engine.elem_fill_mag_fill_bin k e e.newBins (e.newMags k) j
    (by simp; omega) (by simpa [Space.count_eq] using hc) (by simpa [Space.count_eq] using hc)
  have hl := binRaw_lt e.rateOp e.frmLen.toNat j hp.1 e.rateOp_lt hj
  unfold Engine.binFreq
  refine (congrArg (fun x => (BitVec.ofNat 32 x).toInt)
    ((Engine.elem_eq k .bin j rfl rfl).trans he)).trans ?_
  simp only [Engine.newBins, List.getElem_map, List.getElem_range, Space.elemBytes_eq]
  rw [show (256 : Int) ^ 4 = 2 ^ 32 by norm_num]
  exact toInt_ofNat_emod 32 _ (by norm_num) (by norm_num) (by norm_num; omega)

/-- The magnitudes a TRANSFORM writes, as bit patterns. -/
theorem Engine.transformStage_magnitude (k : InstanceId) (e : Engine)
    (h : supportedLength e.frmLen.toNat = true) (j : Nat) (hj : j ≤ e.frmLen.toNat / 2)
    (hb : dftMag (e.frame k) j < 2 ^ 64) :
    (e.transformStage k).engine.magnitude k j = dftMag (e.frame k) j := by
  rw [e.transformStage_done k h]
  have he := Engine.elem_fill k (e.fill .bin e.newBins) .mag (e.newMags k) j (by simp; omega)
  unfold Engine.magnitude
  refine ((Engine.elem_eq k .mag j rfl rfl).trans he).trans ?_
  simp only [Engine.newMags, List.getElem_map, List.getElem_range, Space.elemBytes_eq]
  rw [show (256 : Int) ^ 8 = 2 ^ 64 by norm_num]
  omega

/-- The tone samples are bounded by the amplitude. -/
theorem Engine.synthesize_toneSample (k : InstanceId) (e : Engine) (f : Int)
    (h : e.synthRateOp ≠ 0) (n : Nat) (hn : n < e.synthCountOp)
    (hb : -16384 ≤ toneValue (tuningWord f e.synthRateOp) n ∧
      toneValue (tuningWord f e.synthRateOp) n ≤ 16384) :
    (e.synthesize (some f)).engine.toneSample k n =
      toneValue (tuningWord f e.synthRateOp) n := by
  rw [e.synthesize_done f h]
  have he := Engine.elem_fill k e .tone ((List.range e.synthCountOp).map
    (toneValue (tuningWord f e.synthRateOp))) n (by simpa using hn)
  simp only [List.getElem_map, List.getElem_range, Space.elemBytes_eq] at he
  rw [Engine.toneSample_eq]
  refine (congrArg (fun x => (BitVec.ofNat 16 x).toInt)
    ((Engine.elem_eq k .tone n rfl rfl).trans he)).trans ?_
  rw [show (256 : Int) ^ 2 = 2 ^ 16 by norm_num]
  exact toInt_ofNat_emod 16 _ (by norm_num) (by norm_num; omega) (by norm_num; omega)

/-- An element keeps its value when the bytes of its space do. -/
theorem Engine.elem_keep (k : InstanceId) {e e' : Engine} {sp : Space} {i : Nat} (hi : i < sp.count)
    (h : ∀ off, sp.holds off = true → e'.byteAt k off = e.byteAt k off) :
    e'.elem k sp i = e.elem k sp i :=
  Engine.elem_congr k sp i (fun _ hj => h _ (Space.holds_elem sp hi hj))

/-- The decode operation leaves the elements of the other spaces. -/
theorem Engine.decodeStage_elem (k : InstanceId) (e : Engine) {sp : Space} {i : Nat}
    (hi : i < sp.count) (hne : sp ≠ .frm) :
    (e.decodeStage k).engine.elem k sp i = e.elem k sp i :=
  Engine.elem_keep k hi (fun off h => e.decodeStage_byteAt k off (Space.holds_other h hne.symm))

/-- The transform operation leaves the elements of the other spaces. -/
theorem Engine.transformStage_elem (k : InstanceId) (e : Engine) {sp : Space} {i : Nat}
    (hi : i < sp.count) (hb : sp ≠ .bin) (hm : sp ≠ .mag) :
    (e.transformStage k).engine.elem k sp i = e.elem k sp i :=
  Engine.elem_keep k hi (fun off h => e.transformStage_byteAt k off
    (Space.holds_other h hb.symm) (Space.holds_other h hm.symm))

/-- The select operation leaves the elements of the other spaces. -/
theorem Engine.selectStage_elem (k : InstanceId) (e : Engine) {sp : Space} {i : Nat}
    (hi : i < sp.count) (hne : sp ≠ .cb) :
    (e.selectStage k).engine.elem k sp i = e.elem k sp i :=
  Engine.elem_keep k hi (fun off h => e.selectStage_byteAt k off (Space.holds_other h hne.symm))

/-- The emit operation leaves the elements of the other spaces. -/
theorem Engine.emitStage_elem (k : InstanceId) (e : Engine) {sp : Space} {i : Nat}
    (hi : i < sp.count) (hne : sp ≠ .cb) :
    (e.emitStage k).elem k sp i = e.elem k sp i :=
  Engine.elem_keep k hi (fun off h => e.emitStage_byteAt k off (Space.holds_other h hne.symm))

/-- The note operation leaves every element. -/
theorem Engine.noteStage_elem (k : InstanceId) (e : Engine) (sp : Space) (i : Nat) :
    e.noteStage.engine.elem k sp i = e.elem k sp i :=
  Engine.elem_congr k sp i (fun _ _ => e.noteStage_byteAt k _)

/-- The synthesis leaves the elements of the other spaces. -/
theorem Engine.synthesize_elem (k : InstanceId) (e : Engine) (f : Option Int) {sp : Space} {i : Nat}
    (hi : i < sp.count) (hne : sp ≠ .tone) :
    (e.synthesize f).engine.elem k sp i = e.elem k sp i :=
  Engine.elem_keep k hi (fun off h => e.synthesize_byteAt k f off (Space.holds_other h hne.symm))

/-! ### The mean of the Candidate Buffer -/

theorem Engine.candidate_bounds (k : InstanceId) (e : Engine) (i : Nat) :
    -2 ^ 31 ≤ e.candidate k i ∧ e.candidate k i < 2 ^ 31 := by
  have h1 := (BitVec.ofNat 32 (e.elem k .cb i)).toInt_lt
  have h2 := (BitVec.ofNat 32 (e.elem k .cb i)).le_toInt
  norm_num at h1 h2 ⊢
  exact ⟨h2, h1⟩

theorem Engine.candidates_sum (k : InstanceId) (e : Engine) :
    (e.candidates k).sum = ∑ i ∈ Finset.range e.cbLen.toNat, e.candidate k i :=
  sum_map_range _ _

/-- Bounds on every candidate bound their floor mean. -/
theorem Engine.candidateMean_bounds (k : InstanceId) (e : Engine) (lo hi : Int)
    (hn : 0 < e.cbLen.toNat) (h : ∀ i < e.cbLen.toNat, lo ≤ e.candidate k i ∧ e.candidate k i < hi) :
    lo ≤ e.candidateMean k ∧ e.candidateMean k < hi := by
  unfold Engine.candidateMean
  rw [e.candidates_sum k]
  have hp : (0 : Int) < (e.cbLen.toNat : Int) := by exact_mod_cast hn
  have hne : (Finset.range e.cbLen.toNat).Nonempty := Finset.nonempty_range_iff.mpr (by omega)
  constructor
  · rw [Int.le_ediv_iff_mul_le hp]
    have := Finset.card_nsmul_le_sum (Finset.range e.cbLen.toNat) (e.candidate k) lo
      (fun i hi => (h i (Finset.mem_range.mp hi)).1)
    simpa [mul_comm] using this
  · rw [Int.ediv_lt_iff_lt_mul hp]
    have : ∑ i ∈ Finset.range e.cbLen.toNat, e.candidate k i <
        ∑ _i ∈ Finset.range e.cbLen.toNat, hi :=
      Finset.sum_lt_sum_of_nonempty hne (fun i hi => (h i (Finset.mem_range.mp hi)).2)
    simpa [mul_comm] using this

/-- The mean is stored exactly. -/
theorem Engine.candidateMean_stored (k : InstanceId) (e : Engine) (hn : 0 < e.cbLen.toNat) :
    (BitVec.ofInt 32 (e.candidateMean k)).toInt = e.candidateMean k := by
  obtain ⟨h1, h2⟩ := e.candidateMean_bounds k (-2 ^ 31) (2 ^ 31) hn
    (fun i _ => e.candidate_bounds k i)
  exact toInt_ofInt_of_fits h1 h2

end Sys2Proof.Machine
end

