-- ==== Sys2Proof/Laws/Rom.lean ====
section
/-!
SUPPORT. The laws of the sine ROM (spec/45_synth.md R176): its period, its half-wave symmetry and its
bounds.
-/

namespace Sys2Proof.Machine

/-- The ROM in terms of its half wave. -/
theorem rom_eq (i : Nat) :
    rom i = if i % 1024 < 512 then halfSine (i % 1024) else - halfSine (i % 1024 - 512) := by
  unfold rom
  rw [Config.params_romL]
  rfl

/-- One period is 1024 entries. -/
theorem rom_mod (i : Nat) : rom (i % 1024) = rom i := by
  rw [rom_eq, rom_eq, Nat.mod_mod]

theorem rom_add_period (i : Nat) : rom (i + 1024) = rom i := by
  rw [rom_eq, rom_eq, Nat.add_mod_right]

/-- Half a period changes the sign. -/
theorem rom_add_half (i : Nat) : rom (i + 512) = - rom i := by
  rw [rom_eq, rom_eq]
  by_cases h : i % 1024 < 512
  · rw [if_pos h, show (i + 512) % 1024 = i % 1024 + 512 by omega, if_neg (by omega),
      Nat.add_sub_cancel]
  · rw [if_neg h, show (i + 512) % 1024 = i % 1024 - 512 by omega, if_pos (by omega), neg_neg]

theorem quarterSine_bounds : ∀ i < 257, 0 ≤ quarterSine i ∧ quarterSine i ≤ 16384 := by
  decide +kernel

theorem halfSine_bounds (i : Nat) (h : i < 512) : 0 ≤ halfSine i ∧ halfSine i ≤ 16384 := by
  unfold halfSine
  split
  · exact quarterSine_bounds i (by omega)
  · exact quarterSine_bounds (512 - i) (by omega)

/-- No entry exceeds the amplitude. -/
theorem rom_bounds (i : Nat) : -16384 ≤ rom i ∧ rom i ≤ 16384 := by
  rw [rom_eq]
  split
  · have := halfSine_bounds (i % 1024) (by assumption); omega
  · have := halfSine_bounds (i % 1024 - 512) (by omega); omega

/-- The quarter points. -/
theorem rom_zero : rom 0 = 0 := by decide +kernel
theorem rom_quarter : rom 256 = 16384 := by decide +kernel

/-- `ROM_AMP` (spec/00_scope.md R7) is the value of the quarter point, and the peak of a tone:
`TONE_AMP` (R6) of the full scale of a `TONE_W`-bit sample. -/
theorem rom_quarter_eq_romAmp : rom 256 = Config.params.romAmp := rom_quarter

theorem romAmp_eq_toneAmp :
    (Config.params.romAmp : Rat) = Config.params.toneAmp * 2 ^ (Config.params.toneW - 1) := by
  simp; norm_num

theorem romWord_eq (off : Nat) :
    romWord off = BitVec.ofInt 16 (rom (off / 2 + 1)) ++ BitVec.ofInt 16 (rom (off / 2)) := rfl

/-- The two elements of a word of the ROM. -/
theorem romWord_low (off : Nat) : ((romWord off).extractLsb' 0 16).toInt = rom (off / 2) := by
  have h := rom_bounds (off / 2)
  have hx : (romWord off).extractLsb' 0 16 = BitVec.ofInt 16 (rom (off / 2)) := by
    rw [romWord_eq]
    apply BitVec.eq_of_getLsbD_eq
    intro i hi
    simp only [BitVec.getLsbD_extractLsb', BitVec.getLsbD_append]
    simp [hi]
  rw [hx, BitVec.toInt_ofInt]
  apply Int.bmod_eq_of_le <;> omega

theorem romWord_high (off : Nat) :
    ((romWord off).extractLsb' 16 16).toInt = rom (off / 2 + 1) := by
  have h := rom_bounds (off / 2 + 1)
  have hx : (romWord off).extractLsb' 16 16 = BitVec.ofInt 16 (rom (off / 2 + 1)) := by
    rw [romWord_eq]
    apply BitVec.eq_of_getLsbD_eq
    intro i hi
    simp only [BitVec.getLsbD_extractLsb', BitVec.getLsbD_append]
    simp [hi]
  rw [hx, BitVec.toInt_ofInt]
  apply Int.bmod_eq_of_le <;> omega

end Sys2Proof.Machine
end

