-- ==== Sys2Proof/Laws/Numbers.lean ====
section
/-!
SUPPORT. The laws of the exact arithmetic: the integer square root, the note number as the one of
spec/44_note.md R161, and the phase accumulator of spec/45_synth.md R172.
-/

namespace Sys2Proof.Machine

/-! ### The integer square root -/

theorem isqrtFrom_spec (p b r : Nat) (h1 : r * r ≤ p) (h2 : p < (r + 2 ^ b) * (r + 2 ^ b)) :
    isqrtFrom p b r * isqrtFrom p b r ≤ p ∧
      p < (isqrtFrom p b r + 1) * (isqrtFrom p b r + 1) := by
  induction b generalizing r with
  | zero => exact ⟨h1, by simpa [isqrtFrom] using h2⟩
  | succ b ih =>
    rw [isqrtFrom]
    split
    · rename_i h
      refine ih _ h ?_
      rw [show r + 2 ^ b + 2 ^ b = r + 2 ^ (b + 1) by ring]
      exact h2
    · rename_i h
      exact ih _ h1 (by omega)

/-- `isqrt p` is the largest root (spec/00_scope.md R8). -/
theorem isqrt_spec (p : Nat) : isqrt p * isqrt p ≤ p ∧ p < (isqrt p + 1) * (isqrt p + 1) := by
  unfold isqrt
  refine isqrtFrom_spec p _ 0 (by omega) ?_
  rw [Nat.zero_add, ← pow_add]
  exact Nat.lt_log2_self.trans_le (Nat.pow_le_pow_right (by norm_num) (by omega))

/-- The root of a square. -/
theorem isqrt_sq (r : Nat) : isqrt (r * r) = r := by
  obtain ⟨h1, h2⟩ := isqrt_spec (r * r)
  have h3 : isqrt (r * r) ≤ r := Nat.mul_self_le_mul_self_iff.mp h1
  have h4 : r < isqrt (r * r) + 1 := Nat.mul_self_lt_mul_self_iff.mp h2
  omega

/-- A bound on the argument bounds the root. -/
theorem isqrt_lt {p m : Nat} (h : p < m * m) : isqrt p < m := by
  have h1 := (isqrt_spec p).1
  exact Nat.mul_self_lt_mul_self_iff.mp (h1.trans_lt h)

/-! ### The note number -/

theorem scaledLe_iff (x : Int) (b a : Nat) :
    scaledLe x b a = true ↔ (2 : ℚ) ^ x * b ≤ a := by
  unfold scaledLe
  split
  · rename_i h
    rw [decide_eq_true_iff]
    obtain ⟨n, rfl⟩ := Int.eq_ofNat_of_zero_le h
    rw [Int.toNat_natCast, zpow_natCast]
    exact_mod_cast Iff.rfl
  · rename_i h
    rw [decide_eq_true_iff]
    obtain ⟨n, hn⟩ := Int.eq_ofNat_of_zero_le (show 0 ≤ -x by omega)
    obtain rfl : x = -n := by omega
    rw [neg_neg, Int.toNat_natCast, zpow_neg, zpow_natCast, inv_mul_le_iff₀ (by positivity)]
    exact_mod_cast Iff.rfl

/-- The test of the search is the lower bound of R161. -/
theorem reachesNote_iff (f : Nat) (n : Int) :
    reachesNote f n = true ↔ (2 : ℚ) ^ (2 * n - 99) * (1802240 : ℚ) ^ 24 ≤ (f : ℚ) ^ 24 := by
  unfold reachesNote
  have hb : refRaw = 1802240 := by decide
  rw [scaledLe_iff, hb, Config.params_noteBase,
    show 2 * (n - 49) - 1 = 2 * n - 99 by ring]
  push_cast
  exact Iff.rfl

/-- The bounds of R161 rise with the note number. -/
theorem noteBound_lt {n m : Int} (h : n < m) : (2 : ℚ) ^ (2 * n - 99) * (1802240 : ℚ) ^ 24 <
    (2 : ℚ) ^ (2 * m - 99) * (1802240 : ℚ) ^ 24 := by
  have : (2 : ℚ) ^ (2 * n - 99) < (2 : ℚ) ^ (2 * m - 99) := by
    apply zpow_lt_zpow_right₀ (by norm_num)
    omega
  exact mul_lt_mul_of_pos_right this (by positivity)

/-- A note reached makes every lower one reached. -/
theorem reachesNote_mono {f : Nat} {n m : Int} (h : n ≤ m) (hr : reachesNote f m = true) :
    reachesNote f n = true := by
  rw [reachesNote_iff] at hr ⊢
  rcases h.lt_or_eq with h | rfl
  · exact (noteBound_lt h).le.trans hr
  · exact hr

/-- A higher frequency reaches what a lower one reaches. -/
theorem reachesNote_freq {f g : Nat} {n : Int} (h : f ≤ g) (hr : reachesNote f n = true) :
    reachesNote g n = true := by
  rw [reachesNote_iff] at hr ⊢
  exact hr.trans (pow_le_pow_left₀ (by positivity) (by exact_mod_cast h) 24)

/-- The search sees the input range: the lowest note is always reached, the one above the highest
never. -/
theorem reachesNote_lowest {f : Nat} (h : 0 < f) : reachesNote f (-200) = true :=
  reachesNote_freq (f := 1) h (by decide +kernel)

theorem not_reachesNote_above {f : Nat} (h : f < 2 ^ 31) : reachesNote f 173 = false := by
  cases hr : reachesNote f 173 with
  | false => rfl
  | true =>
    have := reachesNote_freq (g := 2 ^ 31 - 1) (by omega) hr
    rw [show reachesNote (2 ^ 31 - 1) 173 = false by decide +kernel] at this
    cases this

/-- What the search finds. -/
theorem noteNumber_spec {f : Nat} (h : 0 < f) (h' : f < 2 ^ 31) :
    reachesNote f (noteNumber f) = true ∧ reachesNote f (noteNumber f + 1) = false ∧
      -200 ≤ noteNumber f ∧ noteNumber f ≤ 172 := by
  unfold noteNumber noteNumbers
  rw [List.find?_map]
  cases hs : (List.range 373).find? (reachesNote f ∘ fun j : Nat => 172 - (j : Int)) with
  | none =>
    have := List.find?_eq_none.mp hs 372 (by simp)
    rw [Function.comp_apply] at this
    exact absurd (reachesNote_lowest h) this
  | some j =>
    obtain ⟨hj, hm, hlt⟩ := List.find?_range_eq_some.mp hs
    rw [List.mem_range] at hm
    rw [Option.map_some, Option.getD_some]
    refine ⟨hj, ?_, by omega, by omega⟩
    cases j with
    | zero => simpa using not_reachesNote_above h'
    | succ j =>
      have := hlt j (by omega)
      rw [Function.comp_apply, Bool.not_eq_true'] at this
      rw [show (172 : Int) - (j + 1 : Nat) + 1 = 172 - (j : Int) by push_cast; ring]
      exact this

/-- The note number is the one of R161 ... -/
theorem noteNumber_isNoteNumber {f : Nat} (h : 0 < f) (h' : f < 2 ^ 31) :
    IsNoteNumber f (noteNumber f) := by
  obtain ⟨h1, h2, _⟩ := noteNumber_spec h h'
  refine ⟨by exact_mod_cast (reachesNote_iff f _).mp h1, ?_⟩
  by_contra hc
  rw [not_lt, show 2 * noteNumber f - 97 = 2 * (noteNumber f + 1) - 99 by ring] at hc
  rw [(reachesNote_iff f _).mpr (by exact_mod_cast hc)] at h2
  cases h2

/-- ... and there is no other. -/
theorem IsNoteNumber_unique {f n m : Int} (hn : IsNoteNumber f n) (hm : IsNoteNumber f m) :
    n = m := by
  have key : ∀ {n m : Int}, IsNoteNumber f n → IsNoteNumber f m → ¬ n < m := by
    intro n m hn hm hlt
    have h1 := hn.2
    rw [show 2 * n - 97 = 2 * (n + 1) - 99 by ring] at h1
    have h2 := hm.1
    rcases (show n + 1 ≤ m by omega).lt_or_eq with h | h
    · exact absurd ((noteBound_lt h).trans_le h2) (not_lt.mpr h1.le)
    · rw [h] at h1; exact absurd h2 (not_le.mpr h1)
  have h1 := key hn hm
  have h2 := key hm hn
  omega

/-- The note number rises with the frequency. -/
theorem noteNumber_mono {f g : Nat} (h : 0 < f) (hfg : f ≤ g) (hg : g < 2 ^ 31) :
    noteNumber f ≤ noteNumber g := by
  obtain ⟨h1, _⟩ := noteNumber_spec h (by omega)
  obtain ⟨_, h2, _⟩ := noteNumber_spec (by omega : 0 < g) hg
  by_contra hc
  have := reachesNote_mono (show noteNumber g + 1 ≤ noteNumber f by omega) (reachesNote_freq hfg h1)
  rw [h2] at this
  cases this

/-- The fields of `NOTE_RES` (spec/10_state.md R32). -/
theorem noteWord_fields (n : Int) :
    (noteWord n).extractLsb' 16 16 = BitVec.ofInt 16 n ∧
      (noteWord n).extractLsb' 8 8 = BitVec.ofInt 8 (noteOctave n) ∧
      (noteWord n).extractLsb' 4 4 = 0 ∧
      (noteWord n).extractLsb' 0 4 = BitVec.ofInt 4 (noteIndex n) := by
  unfold noteWord
  generalize BitVec.ofInt 16 n = a
  generalize BitVec.ofInt 8 (noteOctave n) = b
  generalize BitVec.ofInt 4 (noteIndex n) = c
  refine ⟨?_, ?_, ?_, ?_⟩ <;>
  · apply BitVec.eq_of_getLsbD_eq
    intro i hi
    simp only [BitVec.getLsbD_extractLsb', BitVec.getLsbD_append]
    interval_cases i <;> simp

theorem noteIndex_bounds (n : Int) : 0 ≤ noteIndex n ∧ noteIndex n ≤ 11 := by
  unfold noteIndex
  omega

theorem noteOctave_eq (n : Int) : noteOctave n = (n + 8) / 12 := by
  unfold noteOctave
  rw [Config.params_octBase]

/-! ### The phase accumulator -/

theorem tuningWord_lt (f : Int) (Rs : Nat) : tuningWord f Rs < 2 ^ 32 := by
  unfold tuningWord
  rw [Config.params_phaseW]
  omega

/-- The tuning word is the floor of R172, taken modulo one turn. -/
theorem tuningWord_spec (f : Int) (Rs : Nat) (h : 0 < Rs) :
    ∃ q : Int, q * (4096 * Rs) ≤ f * 2 ^ 32 ∧ f * 2 ^ 32 < (q + 1) * (4096 * Rs) ∧
      (2 ^ 32 : Int) ∣ q - tuningWord f Rs := by
  refine ⟨(f * 2 ^ 32) / (4096 * Rs), ?_, ?_, ?_⟩
  · exact Int.ediv_mul_le _ (by positivity)
  · exact Int.lt_ediv_add_one_mul_self _ (by positivity)
  · unfold tuningWord
    rw [Config.params_phaseW, Config.params_frac]
    push_cast
    rw [Int.toNat_of_nonneg (Int.emod_nonneg _ (by norm_num))]
    exact Int.dvd_self_sub_emod

/-- A tone sample is a ROM entry. -/
theorem toneValue_eq (ftw n : Nat) : toneValue ftw n = rom (n * ftw % 2 ^ 32 / 2 ^ 22) := by
  unfold toneValue
  rw [Config.params_phaseW, Config.params_romL]

theorem toneValue_bounds (ftw n : Nat) : -16384 ≤ toneValue ftw n ∧ toneValue ftw n ≤ 16384 := by
  rw [toneValue_eq]
  exact rom_bounds _

end Sys2Proof.Machine
end

