-- ==== Sys2Proof/Laws/Select.lean ====
section
/-!
SUPPORT. The laws of the peak scan of spec/42_select.md R143.
-/

namespace Sys2Proof.Machine

/-- One step of the scan. -/
theorem risingPeaks_cons (cnt tot m : Nat) (f : Int) (a : Nat) (rest : List (Int × Nat)) :
    risingPeaks cnt tot m ((f, a) :: rest) =
      if m < a ∧ 3 * tot < a * cnt then f :: risingPeaks cnt tot a rest
      else risingPeaks cnt tot m rest := rfl

/-- The scan without its running maximum: over bins of ascending index, a bin is taken exactly when it
is loud, exceeds the starting maximum, and exceeds every loud bin before it. -/
theorem risingPeaks_eq_filter (cnt tot : Nat) (b : Nat → Int) (a : Nat → Nat) (F : List Nat)
    (hF : F.Pairwise (· < ·)) (m : Nat) :
    risingPeaks cnt tot m (F.map (fun i => (b i, a i))) =
      (F.filter (fun i => 3 * tot < a i * cnt ∧ m < a i ∧
        ∀ j ∈ F, j < i → 3 * tot < a j * cnt → a j < a i)).map b := by
  induction F generalizing m with
  | nil => rfl
  | cons i F ih =>
    obtain ⟨hi, hF⟩ := List.pairwise_cons.mp hF
    have none : ∀ j ∈ i :: F, ¬ j < i := by
      intro j hj
      rcases List.mem_cons.mp hj with rfl | hj
      · exact Nat.lt_irrefl _
      · exact Nat.lt_asymm (hi j hj)
    rw [List.map_cons, risingPeaks_cons, List.filter_cons]
    by_cases hc : m < a i ∧ 3 * tot < a i * cnt
    · rw [if_pos hc, ih hF (a i), if_pos (by
        rw [decide_eq_true_iff]
        exact ⟨hc.2, hc.1, fun j hj hlt => absurd hlt (none j hj)⟩), List.map_cons]
      congr 2
      apply List.filter_congr
      intro x hx
      rw [decide_eq_decide]
      constructor
      · rintro ⟨h1, h2, h3⟩
        refine ⟨h1, hc.1.trans h2, fun j hj hlt hl => ?_⟩
        rcases List.mem_cons.mp hj with rfl | hj
        · exact h2
        · exact h3 j hj hlt hl
      · rintro ⟨h1, _, h3⟩
        exact ⟨h1, h3 i (List.mem_cons_self ..) (hi x hx) hc.2,
          fun j hj => h3 j (List.mem_cons_of_mem _ hj)⟩
    · rw [if_neg hc, ih hF m, if_neg (by
        rw [decide_eq_true_iff]
        exact fun h => hc ⟨h.2.1, h.1⟩)]
      congr 1
      apply List.filter_congr
      intro x hx
      rw [decide_eq_decide]
      constructor
      · rintro ⟨h1, h2, h3⟩
        refine ⟨h1, h2, fun j hj hlt hl => ?_⟩
        rcases List.mem_cons.mp hj with rfl | hj
        · by_contra h
          exact hc ⟨by omega, hl⟩
        · exact h3 j hj hlt hl
      · rintro ⟨h1, h2, h3⟩
        exact ⟨h1, h2, fun j hj => h3 j (List.mem_cons_of_mem _ hj)⟩

/-- The pairs the scan takes: loud, louder than the starting maximum, and rising. -/
theorem risingPeaks_picked (cnt tot m : Nat) (pairs : List (Int × Nat)) :
    ∃ picked : List (Int × Nat), picked.Sublist pairs ∧
      picked.map Prod.fst = risingPeaks cnt tot m pairs ∧
      (∀ p ∈ picked, m < p.2 ∧ 3 * tot < p.2 * cnt) ∧ picked.Pairwise (fun p q => p.2 < q.2) := by
  induction pairs generalizing m with
  | nil => exact ⟨[], .slnil, rfl, by simp, .nil⟩
  | cons p pairs ih =>
    obtain ⟨f, a⟩ := p
    rw [risingPeaks_cons]
    split
    · rename_i hc
      obtain ⟨l, h1, h2, h3, h4⟩ := ih a
      refine ⟨(f, a) :: l, h1.cons_cons _, by rw [List.map_cons, h2], ?_, ?_⟩
      · intro q hq
        rcases List.mem_cons.mp hq with rfl | hq
        · exact hc
        · exact ⟨hc.1.trans (h3 q hq).1, (h3 q hq).2⟩
      · exact List.pairwise_cons.mpr ⟨fun q hq => (h3 q hq).1, h4⟩
    · obtain ⟨l, h1, h2, h3, h4⟩ := ih m
      exact ⟨l, h1.cons _, h2, h3, h4⟩

/-- The scan does not see a common positive factor of the magnitudes. -/
theorem risingPeaks_scale (cnt tot m c : Nat) (hc : 0 < c) (pairs : List (Int × Nat)) :
    risingPeaks cnt (c * tot) (c * m) (pairs.map (fun p => (p.1, c * p.2))) =
      risingPeaks cnt tot m pairs := by
  induction pairs generalizing m with
  | nil => rfl
  | cons p pairs ih =>
    obtain ⟨f, a⟩ := p
    rw [List.map_cons, risingPeaks_cons, risingPeaks_cons, ih, ih]
    have h1 : c * m < c * a ↔ m < a := Nat.mul_lt_mul_left hc
    have h2 : 3 * (c * tot) < c * a * cnt ↔ 3 * tot < a * cnt := by
      rw [show 3 * (c * tot) = c * (3 * tot) by ring, show c * a * cnt = c * (a * cnt) by ring]
      exact Nat.mul_lt_mul_left hc
    simp only [h1, h2]

/-- The bins of the band come in ascending order. -/
theorem Engine.inBand_sorted (k : InstanceId) (e : Engine) : (e.inBand k).Pairwise (· < ·) := by
  unfold Engine.inBand
  exact List.Pairwise.filter _ List.pairwise_lt_range

/-- What lies in the band (spec/42_select.md R141). -/
theorem Engine.mem_inBand (k : InstanceId) (e : Engine) (i : Nat) : i ∈ e.inBand k ↔
    i < e.specLen.toNat ∧ e.minFreq.toInt ≤ e.binFreq k i ∧ e.binFreq k i ≤ e.maxFreq.toInt := by
  unfold Engine.inBand
  rw [List.mem_filter, List.mem_range, Bool.and_eq_true, decide_eq_true_iff, decide_eq_true_iff]

/-- The new candidates are the frequencies of bins of the band, of ascending index. -/
theorem Engine.newCandidates_eq_map (k : InstanceId) (e : Engine) :
    ∃ l : List Nat, e.newCandidates k = l.map (e.binFreq k) ∧ l.Pairwise (· < ·) ∧
      ∀ i ∈ l, i ∈ e.inBand k := by
  unfold Engine.newCandidates
  rw [risingPeaks_eq_filter _ _ _ _ _ (e.inBand_sorted k)]
  exact ⟨_, rfl, (e.inBand_sorted k).filter _, fun i hi => (List.mem_filter.mp hi).1⟩

/-- Every new candidate is the frequency of a bin of the band. -/
theorem Engine.newCandidates_mem (k : InstanceId) (e : Engine) {v : Int}
    (h : v ∈ e.newCandidates k) : ∃ i ∈ e.inBand k, v = e.binFreq k i := by
  obtain ⟨l, hl, _, hb⟩ := e.newCandidates_eq_map k
  rw [hl] at h
  obtain ⟨i, hi, rfl⟩ := List.mem_map.mp h
  exact ⟨i, hb i hi, rfl⟩

/-- An ascending list of numbers is at every place at least the number of that place. -/
theorem le_getElem_of_pairwise_lt {l : List Nat} (h : l.Pairwise (· < ·)) (p : Nat)
    (hp : p < l.length) : p ≤ l[p] := by
  induction p with
  | zero => exact Nat.zero_le _
  | succ p ih =>
    have h1 := ih (Nat.lt_of_succ_lt hp)
    have h2 := List.pairwise_iff_getElem.mp h p (p + 1) (Nat.lt_of_succ_lt hp) hp (Nat.lt_succ_self p)
    omega

/-- Where bin `i` of the band is at least `c * i`, new candidate `p` is at least `c * p`. -/
theorem Engine.newCandidates_ge (k : InstanceId) (e : Engine) (c : Nat)
    (hc : ∀ i ∈ e.inBand k, ((c * i : Nat) : Int) ≤ e.binFreq k i) (p : Nat)
    (hp : p < (e.newCandidates k).length) : ((c * p : Nat) : Int) ≤ (e.newCandidates k)[p] := by
  obtain ⟨l, hl, hs, hb⟩ := e.newCandidates_eq_map k
  have hp' : p < l.length := by rw [hl] at hp; simpa using hp
  have hv : (e.newCandidates k)[p] = e.binFreq k l[p] := by simp [hl]
  rw [hv]
  refine le_trans ?_ (hc _ (hb _ (List.getElem_mem hp')))
  exact_mod_cast Nat.mul_le_mul_left c (le_getElem_of_pairwise_lt hs p hp')

theorem Engine.binFreq_bounds (k : InstanceId) (e : Engine) (i : Nat) :
    -2 ^ 31 ≤ e.binFreq k i ∧ e.binFreq k i < 2 ^ 31 := by
  have h1 := (BitVec.ofNat 32 (e.elem k .bin i)).toInt_lt
  have h2 := (BitVec.ofNat 32 (e.elem k .bin i)).le_toInt
  norm_num at h1 h2 ⊢
  exact ⟨h2, h1⟩

/-- The elements a SELECT appends. -/
theorem Engine.selectStage_candidate_new (k : InstanceId) (e : Engine)
    (h : e.cbLen.toNat + (e.newCandidates k).length ≤ 1024) (p : Nat)
    (hp : p < (e.newCandidates k).length) :
    (e.selectStage k).engine.candidate k (e.cbLen.toNat + p) = (e.newCandidates k)[p] := by
  rw [e.selectStage_done k h]
  obtain ⟨i, _, hv⟩ := e.newCandidates_mem k (List.getElem_mem hp)
  have hb := e.binFreq_bounds k i
  rw [← hv] at hb
  have he := Engine.elem_writeFrom k e .cb e.cbLen.toNat (e.newCandidates k) p hp
  unfold Engine.candidate
  refine (congrArg (fun x => (BitVec.ofNat 32 x).toInt)
    ((Engine.elem_eq k .cb _ rfl rfl).trans he)).trans ?_
  simp only [Space.elemBytes_eq]
  rw [show (256 : Int) ^ 4 = 2 ^ 32 by norm_num]
  exact toInt_ofNat_emod 32 _ (by norm_num) (by norm_num at hb ⊢; exact hb.1)
    (by norm_num at hb ⊢; exact hb.2)

/-- The elements a SELECT leaves. -/
theorem Engine.selectStage_candidate_old (k : InstanceId) (e : Engine) (i : Nat)
    (hi : i < e.cbLen.toNat) : (e.selectStage k).engine.candidate k i = e.candidate k i := by
  by_cases h : e.cbLen.toNat + (e.newCandidates k).length ≤ 1024
  · rw [e.selectStage_done k h]
    unfold Engine.candidate
    congr 2
    apply Engine.elem_congr
    intro j hj
    refine (Engine.byteAt_eq k _ rfl rfl).trans
      (Engine.byteAt_writeFrom_outside k e .cb e.cbLen.toNat (e.newCandidates k) _ (.inl ?_))
    simp only [Space.base, Space.elemBytes_eq] at *
    omega
  · rw [e.selectStage_raised k (by omega)]; rfl

end Sys2Proof.Machine
end

