-- ==== Sys2Proof/Laws/Spectrum.lean ====
section
/-!
SUPPORT. The laws of the transform: its sums as sums over the samples, their bounds, and the magnitudes
that follow (spec/41_transform.md R132, R134).
-/

namespace Sys2Proof.Machine

@[simp] theorem Engine.frame_length (k : InstanceId) (e : Engine) :
    (e.frame k).length = e.frmLen.toNat := by simp [Engine.frame]

/-- A sum over the samples of a list that a range makes. -/
theorem sum_zipIdx_range (n : Nat) (f : Nat → Int) (g : Nat → Int) :
    ((((List.range n).map f).zipIdx.map (fun p => p.1 * g p.2))).sum =
      ∑ i ∈ Finset.range n, f i * g i := by
  rw [← sum_map_range]
  congr 1
  apply List.ext_getElem
  · simp
  · intro i h1 h2
    simp

theorem twiddleIndex_eq (N k n : Nat) : twiddleIndex N k n = ((k * n) % N) * (1024 / N) := by
  unfold twiddleIndex
  rw [Config.params_romL, show 2 ^ 10 = 1024 by norm_num]

/-- `RE[k]` as the sum of R132. -/
theorem dftRe_frame (k : InstanceId) (e : Engine) (j : Nat) :
    dftRe (e.frame k) j = ∑ n ∈ Finset.range e.frmLen.toNat,
      e.sample k n * rom ((((j * n) % e.frmLen.toNat) * (1024 / e.frmLen.toNat) + 256) % 1024) := by
  unfold dftRe
  rw [Engine.frame_length, Engine.frame, sum_zipIdx_range e.frmLen.toNat (e.sample k)
    (fun n => romCos (twiddleIndex e.frmLen.toNat j n))]
  simp only [romCos, twiddleIndex_eq, rom_mod]

/-- `IM[k]` as the sum of R132. -/
theorem dftIm_frame (k : InstanceId) (e : Engine) (j : Nat) :
    dftIm (e.frame k) j = - ∑ n ∈ Finset.range e.frmLen.toNat,
      e.sample k n * rom (((j * n) % e.frmLen.toNat) * (1024 / e.frmLen.toNat)) := by
  unfold dftIm
  rw [Engine.frame_length, Engine.frame, sum_zipIdx_range e.frmLen.toNat (e.sample k)
    (fun n => romSin (twiddleIndex e.frmLen.toNat j n))]
  simp only [romSin, twiddleIndex_eq]

theorem Engine.sample_bounds (k : InstanceId) (e : Engine) (i : Nat) :
    -2 ^ 31 ≤ e.sample k i ∧ e.sample k i < 2 ^ 31 := by
  have h1 := (BitVec.ofNat 32 (e.elem k .frm i)).toInt_lt
  have h2 := (BitVec.ofNat 32 (e.elem k .frm i)).le_toInt
  norm_num at h1 h2 ⊢
  exact ⟨h2, h1⟩

/-- A sum of at most 1024 products of a sample and a ROM entry (spec/41_transform.md R132). -/
theorem abs_dft_le (k : InstanceId) (e : Engine) (N : Nat) (hN : N ≤ 1024) (g : Nat → Nat) :
    |∑ n ∈ Finset.range N, e.sample k n * rom (g n)| ≤ 2 ^ 55 := by
  have h : ∀ n ∈ Finset.range N, |e.sample k n * rom (g n)| ≤ 2 ^ 45 := by
    intro n _
    have h1 := e.sample_bounds k n
    have h2 := rom_bounds (g n)
    have h3 : |e.sample k n| ≤ 2 ^ 31 := abs_le.mpr ⟨h1.1, h1.2.le⟩
    have h4 : |rom (g n)| ≤ 2 ^ 14 := abs_le.mpr (by norm_num; exact h2)
    rw [abs_mul]
    calc |e.sample k n| * |rom (g n)| ≤ 2 ^ 31 * 2 ^ 14 :=
          mul_le_mul h3 h4 (abs_nonneg _) (by norm_num)
      _ = 2 ^ 45 := by norm_num
  calc |∑ n ∈ Finset.range N, e.sample k n * rom (g n)|
      ≤ ∑ n ∈ Finset.range N, |e.sample k n * rom (g n)| := Finset.abs_sum_le_sum_abs _ _
    _ ≤ (Finset.range N).card • 2 ^ 45 := Finset.sum_le_card_nsmul _ _ _ h
    _ ≤ 2 ^ 55 := by
      rw [Finset.card_range, nsmul_eq_mul]
      have : (N : Int) ≤ 1024 := by exact_mod_cast hN
      nlinarith

/-- The magnitude is the root of R134, exactly. -/
theorem dftMag_spec (xs : List Int) (j : Nat) :
    (dftMag xs j : Int) ^ 2 ≤ dftRe xs j ^ 2 + dftIm xs j ^ 2 ∧
      dftRe xs j ^ 2 + dftIm xs j ^ 2 < ((dftMag xs j : Int) + 1) ^ 2 := by
  have h0 : 0 ≤ dftRe xs j * dftRe xs j + dftIm xs j * dftIm xs j :=
    add_nonneg (mul_self_nonneg _) (mul_self_nonneg _)
  obtain ⟨h1, h2⟩ := isqrt_spec (dftRe xs j * dftRe xs j + dftIm xs j * dftIm xs j).toNat
  have h3 : (((dftRe xs j * dftRe xs j + dftIm xs j * dftIm xs j).toNat : Nat) : Int) =
      dftRe xs j * dftRe xs j + dftIm xs j * dftIm xs j := Int.toNat_of_nonneg h0
  have h1' : ((dftMag xs j * dftMag xs j : Nat) : Int) ≤ _ := Int.ofNat_le.mpr h1
  have h2' : _ < (((dftMag xs j + 1) * (dftMag xs j + 1) : Nat) : Int) := Int.ofNat_lt.mpr h2
  rw [h3] at h1' h2'
  push_cast at h1' h2'
  constructor <;> nlinarith

/-- The magnitudes of a frame fit 56 bits (spec/41_transform.md R134). -/
theorem dftMag_lt (k : InstanceId) (e : Engine) (h : e.frmLen.toNat ≤ 1024) (j : Nat) :
    dftMag (e.frame k) j < 2 ^ 56 := by
  have h1 := abs_dft_le k e e.frmLen.toNat h
    (fun n => (((j * n) % e.frmLen.toNat) * (1024 / e.frmLen.toNat) + 256) % 1024)
  have h2 := abs_dft_le k e e.frmLen.toNat h
    (fun n => ((j * n) % e.frmLen.toNat) * (1024 / e.frmLen.toNat))
  rw [← dftRe_frame] at h1
  rw [← abs_neg, ← dftIm_frame] at h2
  rw [abs_le] at h1 h2
  unfold dftMag
  apply isqrt_lt
  rw [Int.toNat_lt (add_nonneg (mul_self_nonneg _) (mul_self_nonneg _))]
  push_cast
  nlinarith

/-- The magnitude of a sum without an imaginary part. -/
theorem dftMag_of_real (xs : List Int) (j : Nat) (r : Int) (h1 : dftRe xs j = r)
    (h2 : dftIm xs j = 0) : (dftMag xs j : Int) = |r| := by
  unfold dftMag
  rw [h1, h2]
  have : (r * r + 0 * 0).toNat = r.natAbs * r.natAbs := by
    rw [zero_mul, add_zero, ← Int.natAbs_mul_self, Int.toNat_natCast]
  rw [this, isqrt_sq]
  simp

/-- The magnitudes a TRANSFORM writes. -/
theorem Engine.transformStage_mag (k : InstanceId) (e : Engine)
    (h : supportedLength e.frmLen.toNat = true) (j : Nat) (hj : j ≤ e.frmLen.toNat / 2) :
    (e.transformStage k).engine.magnitude k j = dftMag (e.frame k) j := by
  have := supportedLength_pos h
  exact e.transformStage_magnitude k h j hj ((dftMag_lt k e this.2 j).trans (by norm_num))

end Sys2Proof.Machine
end

