-- ==== Sys2Proof/Laws/Invariant.lean ====
section
/-!
SUPPORT. The memory operations keep the canonical form and list only offsets of the data spaces, and
each operation of the data flow keeps the invariants of spec/10_state.md R39.
-/

namespace Sys2Proof.Machine

/-! ### The memory keeps its form -/

/-- The canonical form, and only offsets of the data spaces listed. -/
abbrev Memory.Placed (m : Memory) : Prop := m.wf ∧ ∀ c ∈ m, (spaceAt c.1).isSome = true

theorem Memory.Placed.nil : Memory.Placed [] := ⟨List.Pairwise.nil, (fun _ hc => nomatch hc)⟩

/-- A write inside one space. -/
theorem Memory.Placed.replace {m : Memory} (h : m.Placed) (sp : Space) (lo hi : Nat)
    (vs : List Byte) (h1 : sp.base ≤ lo) (h2 : lo + vs.length ≤ sp.limit) :
    (m.replace lo hi vs).Placed := by
  refine ⟨Memory.replace_wf _ _ _ _ h.1, fun c hc => ?_⟩
  rcases Memory.mem_replace _ _ _ _ _ hc with hc | hc
  · exact h.2 c hc
  · rw [(spaceAt_eq_some sp c.1).mpr ((Space.holds_iff _ _).mpr ⟨by omega, by omega⟩)]
    rfl

theorem Engine.fill_placed {e : Engine} (h : e.mem.Placed) (sp : Space) (vals : List Int)
    (hl : vals.length ≤ sp.count) : (e.fill sp vals).mem.Placed := by
  rw [Engine.fill_mem]
  refine h.replace sp _ _ _ (le_refl _) ?_
  rw [Space.bytesOf_length]
  exact Nat.add_le_add_left (Nat.mul_le_mul_left _ hl) _

theorem Engine.writeFrom_placed {e : Engine} (h : e.mem.Placed) (sp : Space) (i : Nat)
    (vals : List Int) (hl : i + vals.length ≤ sp.count) :
    (e.writeFrom sp i vals).mem.Placed := by
  rw [Engine.writeFrom_mem]
  refine h.replace sp _ _ _ (Nat.le_add_right _ _) ?_
  rw [Space.bytesOf_length, Nat.add_assoc, ← Nat.mul_add]
  exact Nat.add_le_add_left (Nat.mul_le_mul_left _ hl) _

theorem Engine.writeRaw_placed {e : Engine} (h : e.mem.Placed) {off : Nat} (w : Word)
    (ho : Space.raw.holds off = true) (h4 : off % 4 = 0) : (e.writeRaw off w).mem.Placed := by
  have hw := (Space.holds_iff _ _).mp ho
  have hlen : (bytesOfWord w).length = 4 := rfl
  refine h.replace .raw _ _ _ hw.1 ?_
  rw [hlen]
  simp only [Space.limit, Space.base, Space.elemBytes_eq, Space.count_eq] at hw ⊢
  omega

/-- The reset state's memories have the form. -/
theorem State.reset_placed (k : InstanceId) : (State.reset.engine k).mem.Placed := by
  cases k <;> exact Memory.Placed.nil

/-! ### What the invariants depend on -/

theorem spectrumLengths_le {n : Nat} (h : n ∈ spectrumLengths) : n ≤ 513 := by
  simp only [spectrumLengths, List.mem_cons, List.not_mem_nil, or_false] at h
  omega

theorem Engine.Inv.placed {k : InstanceId} {e : Engine} (h : e.Inv k) : e.mem.Placed :=
  ⟨h.memory_canonical, h.memory_mapped⟩

/-- The invariants read the band, the estimate, the lengths, the note and the elements of `BIN`, `MAG`
and `CB`. -/
theorem Engine.Inv.congr {k : InstanceId} {e e' : Engine} (h : e.Inv k)
    (h1 : e'.minFreq = e.minFreq) (h2 : e'.maxFreq = e.maxFreq) (h3 : e'.cbLen = e.cbLen)
    (h4 : e'.fe = e.fe) (h5 : e'.status.feValid = e.status.feValid) (h6 : e'.frmLen.toNat ≤ 1024)
    (h7 : e'.specLen = e.specLen)
    (h8 : e'.status.noteValid = true → (e'.noteRes.extractLsb' 0 4).toNat ≤ 11)
    (hm : e'.mem.Placed)
    (he : ∀ sp ∈ [Space.bin, .mag, .cb], ∀ i < sp.count, e'.elem k sp i = e.elem k sp i) :
    e'.Inv k := by
  have hsp := spectrumLengths_le h.spectrum_length
  have hbin : ∀ i < e.specLen.toNat, e'.binFreq k i = e.binFreq k i := fun i hi => by
    unfold Engine.binFreq
    rw [he .bin (by simp) i (show i < 513 by omega)]
  refine ⟨by rw [h1, h2]; exact h.band_ordered, by rw [h3]; exact h.cb_capacity, ?_,
    by rw [h5, h4]; exact h.fe_absent, by rw [h4]; exact h.fe_nonneg, h6,
    by rw [h7]; exact h.spectrum_length, ?_, ?_, ?_, h8, hm.1, hm.2⟩
  · rw [h3]
    intro i hi
    unfold Engine.candidate
    rw [he .cb (by simp) i (Nat.lt_of_lt_of_le hi h.cb_capacity)]
    exact h.cb_nonneg i hi
  · rw [h7]
    rcases h.bins_ordered with ho | ho
    · exact .inl fun i j hij hj => by rw [hbin i (by omega), hbin j hj]; exact ho i j hij hj
    · exact .inr fun i hi => by rw [hbin i hi]; exact ho i hi
  · rw [h7]
    exact fun i hi => by rw [hbin i hi]; exact h.bins_nonneg i hi
  · rw [h7]
    intro i hi
    unfold Engine.magnitude
    rw [he .mag (by simp) i (show i < 513 by omega)]
    exact h.magnitudes_bounded i hi

/-- What keeps the memory, the band, the lengths, the estimate and the note keeps the invariants. -/
theorem Engine.Inv.report {k : InstanceId} {e : Engine} (h : e.Inv k) (cmd : Word)
    (op la : Operands) (busy overrun emitted : Bool) (err : BitVec 4) (stage : BitVec 3)
    (nt : Word) :
    Engine.Inv k { e with
      cmd := cmd, operands := op, latched := la, noiseThr := nt
      status := { e.status with
        busy := busy, overrun := overrun, err := err, stage := stage, emitted := emitted } } :=
  h.congr rfl rfl rfl rfl rfl h.frame_capacity rfl h.note_index_legal h.placed
    (fun _ _ _ _ => rfl)

theorem Engine.Inv.done {k : InstanceId} {e : Engine} (h : e.Inv k) (em : Bool) :
    (e.done em).Inv k := h.report _ _ _ _ _ _ _ _ _

theorem Engine.Inv.raise {k : InstanceId} {e : Engine} (h : e.Inv k) (kind : ErrorKind)
    (j : BitVec 3) (em : Bool) : (e.raise kind j em).Inv k := h.report _ _ _ _ _ _ _ _ _

theorem Engine.Inv.accept {k : InstanceId} {e : Engine} (h : e.Inv k) (w : Word) :
    (e.accept w).Inv k := h.report _ _ _ _ _ _ _ _ _

theorem StageEnd.complete_inv {k : InstanceId} {x : StageEnd} (h : x.engine.Inv k) :
    x.complete.Inv k := by
  cases x
  · exact Engine.Inv.done h _
  · exact Engine.Inv.raise h _ _ _

/-- `ResetState`, whatever `CMD` holds, has the invariants. -/
theorem Engine.resetIn_inv (k : InstanceId) (ep : Epochs) (c : Word) :
    Engine.Inv k { Engine.resetIn ep with cmd := c } :=
  ⟨show (0 : Word).toInt < (90316800 : Word).toInt by decide, Nat.zero_le _,
    fun _ hi => absurd hi (Nat.not_lt_zero _), fun _ => rfl,
    show 0 ≤ (0 : Word).toInt by decide, Nat.zero_le _, show 0 ∈ spectrumLengths by decide,
    .inr fun _ hi => absurd hi (Nat.not_lt_zero _), fun _ hi => absurd hi (Nat.not_lt_zero _),
    fun _ hi => absurd hi (Nat.not_lt_zero _), (fun h => nomatch h), Memory.Placed.nil.1,
    Memory.Placed.nil.2⟩

/-! ### The operations of the data flow -/

theorem Engine.decodeStage_inv {k : InstanceId} {e : Engine} (h : e.Inv k) :
    (e.decodeStage k).engine.Inv k := by
  cases hd : decodable e.rawLenOp e.widthOp e.channelsOp e.frameLenOp with
  | false => rw [e.decodeStage_raised k hd]; exact h
  | true =>
    have c := fun sp i hi hne => e.decodeStage_elem k (sp := sp) (i := i) hi hne
    rw [e.decodeStage_done k hd] at c ⊢
    refine h.congr rfl rfl rfl rfl rfl ?_ rfl h.note_index_legal
      (Engine.fill_placed h.placed .frm
        ((List.range (e.rawLenOp / (e.widthOp * e.channelsOp))).map
          (e.rawSample k e.widthOp e.channelsOp)) (by simpa using decodable_count hd))
      (fun sp hsp i hi => c sp i hi (by rintro rfl; simp at hsp))
    show (BitVec.ofNat 11 (e.rawLenOp / (e.widthOp * e.channelsOp))).toNat ≤ 1024
    rw [decodable_length hd]
    exact decodable_count hd

theorem Engine.transformStage_inv {k : InstanceId} {e : Engine} (h : e.Inv k) :
    (e.transformStage k).engine.Inv k := by
  by_cases h0 : e.frmLen.toNat = 0
  · rw [e.transformStage_empty k h0]; exact h
  cases hs : supportedLength e.frmLen.toNat with
  | false => rw [e.transformStage_unsupported k h0 hs]; exact h
  | true =>
    have hp := supportedLength_pos hs
    have hc := supportedLength_count hs
    have hcb := h.cb_capacity
    have c := fun i (hi : i < 1024) =>
      e.transformStage_elem k (sp := .cb) (i := i) hi (by decide) (by decide)
    have b := fun j hj => e.transformStage_binFreq k hs j hj
    have m := fun j hj => e.transformStage_mag k hs j hj
    have hl : (e.transformStage k).engine.specLen.toNat = e.frmLen.toNat / 2 + 1 := by
      rw [e.transformStage_done k hs]
      exact supportedLength_spectrum hs
    have hmem : (e.transformStage k).engine.mem.Placed := by
      rw [e.transformStage_done k hs]
      exact Engine.fill_placed (e := e.fill .bin e.newBins)
        (Engine.fill_placed h.placed .bin _ (by simpa [Space.count_eq] using hc)) .mag _
        (by simpa [Space.count_eq] using hc)
    obtain ⟨n, mm, ep, hf⟩ := e.transformStage_frame k
    generalize (e.transformStage k).engine = e' at *
    refine ⟨by rw [hf]; exact h.band_ordered, by rw [hf]; exact h.cb_capacity, ?_,
      by rw [hf]; exact h.fe_absent, by rw [hf]; exact h.fe_nonneg,
      by rw [hf]; exact h.frame_capacity, ?_, ?_, ?_, ?_, by rw [hf]; exact h.note_index_legal,
      hmem.1, hmem.2⟩
    · rw [show e'.cbLen = e.cbLen by rw [hf]]
      intro i hi
      unfold Engine.candidate
      rw [c i (by omega)]
      exact h.cb_nonneg i hi
    · rw [hl]
      obtain ⟨g, hg, he⟩ := (supportedLength_iff _).mp hs
      rw [he]
      interval_cases g <;> decide
    · rw [hl]
      by_cases hr : e.rateOp = 0
      · exact .inr fun i hi => by rw [b i (by omega), hr]; simp [binRaw]
      · refine .inl fun i j hij hj => ?_
        rw [b i (by omega), b j (by omega)]
        have hlt : binRaw e.rateOp e.frmLen.toNat i < binRaw e.rateOp e.frmLen.toNat j := by
          apply Nat.lt_of_mul_lt_mul_right (a := e.frmLen.toNat)
          rw [binRaw_mul e.rateOp _ i hs, binRaw_mul e.rateOp _ j hs]
          exact Nat.mul_lt_mul_of_pos_right
            (Nat.mul_lt_mul_of_pos_right hij (Nat.pos_of_ne_zero hr)) (by norm_num)
        exact_mod_cast hlt
    · rw [hl]
      exact fun i hi => by rw [b i (by omega)]; exact Int.natCast_nonneg _
    · rw [hl]
      exact fun i hi => by rw [m i (by omega)]; exact dftMag_lt k e hp.2 i

theorem Engine.selectStage_inv {k : InstanceId} {e : Engine} (h : e.Inv k) :
    (e.selectStage k).engine.Inv k := by
  by_cases hc : e.cbLen.toNat + (e.newCandidates k).length ≤ 1024
  · have hsp := spectrumLengths_le h.spectrum_length
    have c := fun sp i hi hne => e.selectStage_elem k (sp := sp) (i := i) hi hne
    have co := fun i hi => e.selectStage_candidate_old k i hi
    have cn := fun p hp => e.selectStage_candidate_new k hc p hp
    have hl : (e.selectStage k).engine.cbLen.toNat =
        e.cbLen.toNat + (e.newCandidates k).length := by
      rw [e.selectStage_done k hc]
      show (BitVec.ofNat 11 _).toNat = _
      rw [BitVec.toNat_ofNat]
      omega
    have hmem : (e.selectStage k).engine.mem.Placed := by
      rw [e.selectStage_done k hc]
      exact Engine.writeFrom_placed h.placed .cb _ _ hc
    obtain ⟨n, mm, hf⟩ := e.selectStage_frame k
    generalize (e.selectStage k).engine = e' at *
    have hs : e'.specLen = e.specLen := by rw [hf]
    have hb : ∀ i < e.specLen.toNat, e'.binFreq k i = e.binFreq k i := fun i hi => by
      unfold Engine.binFreq
      rw [c .bin i (show i < 513 by omega) (by decide)]
    refine ⟨by rw [hf]; exact h.band_ordered, by rw [hl]; exact hc, ?_,
      by rw [hf]; exact h.fe_absent, by rw [hf]; exact h.fe_nonneg,
      by rw [hf]; exact h.frame_capacity, by rw [hf]; exact h.spectrum_length, ?_, ?_, ?_,
      by rw [hf]; exact h.note_index_legal, hmem.1, hmem.2⟩
    · intro i hi
      by_cases ho : i < e.cbLen.toNat
      · rw [co i ho]
        exact h.cb_nonneg i ho
      · obtain ⟨p, rfl⟩ := Nat.exists_eq_add_of_le (Nat.le_of_not_lt ho)
        rw [cn p (by omega)]
        obtain ⟨b, hb, hv⟩ := e.newCandidates_mem k
          (List.getElem_mem (by omega : p < (e.newCandidates k).length))
        rw [hv]
        exact h.bins_nonneg b ((e.mem_inBand k b).mp hb).1
    · rw [hs]
      rcases h.bins_ordered with ho | ho
      · exact .inl fun i j hij hj => by rw [hb i (by omega), hb j hj]; exact ho i j hij hj
      · exact .inr fun i hi => by rw [hb i hi]; exact ho i hi
    · rw [hs]
      exact fun i hi => by rw [hb i hi]; exact h.bins_nonneg i hi
    · rw [hs]
      intro i hi
      unfold Engine.magnitude
      rw [c .mag i (show i < 513 by omega) (by decide)]
      exact h.magnitudes_bounded i hi
  · rw [e.selectStage_raised k (by omega)]; exact h

theorem Engine.emitStage_inv {k : InstanceId} {e : Engine} (h : e.Inv k) :
    (e.emitStage k).Inv k := by
  cases he : e.emits with
  | false => rw [e.emitStage_keep k he]; exact h
  | true =>
    have hsp := spectrumLengths_le h.spectrum_length
    have hgt := e.emits_iff.mp he
    have c := fun sp i hi hne => e.emitStage_elem k (sp := sp) (i := i) hi hne
    rw [e.emitStage_emit k he] at c ⊢
    have hmem : (e.fill .cb []).mem.Placed := Engine.fill_placed h.placed .cb [] (by simp)
    have hb : ∀ i < e.specLen.toNat, _ = e.binFreq k i := fun i hi =>
      congrArg (fun x => (BitVec.ofNat 32 x).toInt)
        (c .bin i (show i < 513 by omega) (by decide))
    refine ⟨h.band_ordered, Nat.zero_le _, fun i hi => absurd hi (Nat.not_lt_zero _),
      (fun hf => nomatch hf), ?_, h.frame_capacity, h.spectrum_length, ?_, ?_, ?_,
      h.note_index_legal, hmem.1, hmem.2⟩
    · show 0 ≤ (BitVec.ofInt 32 _).toInt
      rw [e.candidateMean_stored k (by omega)]
      exact (e.candidateMean_bounds k 0 (2 ^ 31) (by omega)
        (fun i hi => ⟨h.cb_nonneg i hi, (e.candidate_bounds k i).2⟩)).1
    · rcases h.bins_ordered with ho | ho
      · exact .inl fun i j hij hj => (hb i (Nat.lt_trans hij hj)).le.trans_lt
          ((ho i j hij hj).trans_eq (hb j hj).symm)
      · exact .inr fun i hi => (hb i hi).trans (ho i hi)
    · exact fun i hi => (h.bins_nonneg i hi).trans_eq (hb i hi).symm
    · intro i hi
      exact lt_of_eq_of_lt (c .mag i (Nat.lt_of_lt_of_le hi hsp) (by decide))
        (h.magnitudes_bounded i hi)

/-- The name index of a result word is below 12 (I8). -/
theorem noteWord_index_legal (n : Int) : ((noteWord n).extractLsb' 0 4).toNat ≤ 11 := by
  rw [(noteWord_fields n).2.2.2]
  have := noteIndex_bounds n
  rw [BitVec.toNat_ofInt]
  omega

theorem Engine.noteFor_inv {k : InstanceId} {e : Engine} (h : e.Inv k) (f : Int) :
    (e.noteFor f).engine.Inv k := by
  by_cases hf : f ≤ 0
  · rw [e.noteFor_raised f hf]
    exact h.congr rfl rfl rfl rfl rfl h.frame_capacity rfl (fun h => nomatch h) h.placed
      (fun _ _ _ _ => rfl)
  · rw [e.noteFor_done f (by omega)]
    exact h.congr rfl rfl rfl rfl rfl h.frame_capacity rfl (fun _ => noteWord_index_legal _)
      h.placed (fun _ _ _ _ => rfl)

theorem Engine.noteStage_inv {k : InstanceId} {e : Engine} (h : e.Inv k) :
    e.noteStage.engine.Inv k := by
  cases hv : e.status.feValid with
  | false =>
    rw [e.noteStage_absent hv]
    exact h.congr rfl rfl rfl rfl rfl h.frame_capacity rfl (fun h => nomatch h) h.placed
      (fun _ _ _ _ => rfl)
  | true => rw [e.noteStage_present hv]; exact Engine.noteFor_inv h _

theorem Engine.synthesize_inv {k : InstanceId} {e : Engine} (h : e.Inv k) (f : Option Int) :
    (e.synthesize f).engine.Inv k := by
  have c := fun sp i hi hne => e.synthesize_elem k f (sp := sp) (i := i) hi hne
  have hmem : (e.synthesize f).engine.mem.Placed := by
    cases f with
    | none => exact h.placed
    | some f =>
      by_cases hr : e.synthRateOp = 0
      · rw [e.synthesize_noRate f hr]; exact h.placed
      · rw [e.synthesize_done f hr]
        refine Engine.fill_placed h.placed .tone _ ?_
        have := e.latched.synthCount.isLt
        simp only [List.length_map, List.length_range, Space.count_eq, Engine.synthCountOp]
        omega
  obtain ⟨_, _, _, hf⟩ := e.synthesize_frame f
  exact h.congr (by rw [hf]) (by rw [hf]) (by rw [hf]) (by rw [hf]) (by rw [hf])
    (by rw [hf]; exact h.frame_capacity) (by rw [hf]) (by rw [hf]; exact h.note_index_legal) hmem
    (fun sp hsp i hi => c sp i hi (by rintro rfl; simp at hsp))

theorem Engine.withBand_inv {k : InstanceId} {e : Engine} (h : e.Inv k) (a b : Int) (hab : a < b)
    (ha : -2 ^ 31 ≤ a) (hb : b < 2 ^ 31) : (e.withBand a b).Inv k := by
  have h1 : (BitVec.ofInt 32 a).toInt = a := toInt_ofInt_of_fits ha (by omega)
  have h2 : (BitVec.ofInt 32 b).toInt = b := toInt_ofInt_of_fits (by omega) hb
  have hx : (e.withBand a b).minFreq.toInt < (e.withBand a b).maxFreq.toInt := by
    show (BitVec.ofInt 32 a).toInt < (BitVec.ofInt 32 b).toInt
    omega
  exact ⟨hx, h.cb_capacity, h.cb_nonneg, h.fe_absent, h.fe_nonneg, h.frame_capacity,
    h.spectrum_length, h.bins_ordered, h.bins_nonneg, h.magnitudes_bounded, h.note_index_legal,
    h.memory_canonical, h.memory_mapped⟩

theorem Engine.tickPass_inv {k : InstanceId} {e : Engine} (h : e.Inv k) :
    (e.tickPass k).Inv k := by
  have i1 := Engine.decodeStage_inv h
  rcases e.tickPass_cases k with ⟨kind, e1, q, h⟩ | ⟨e1, q, h⟩ <;> rw [q] at i1
  · rw [h]; exact Engine.Inv.raise i1 _ _ _
  have i2 := Engine.transformStage_inv i1
  rcases h with ⟨kind, e2, q, h⟩ | ⟨e2, q, h⟩ <;> simp only [StageEnd.engine_done] at i2 <;>
    rw [q] at i2
  · rw [h]; exact Engine.Inv.raise i2 _ _ _
  have i3 := Engine.selectStage_inv i2
  rcases h with ⟨kind, e3, q, h⟩ | ⟨e3, q, h⟩ <;> simp only [StageEnd.engine_done] at i3 <;>
    rw [q] at i3
  · rw [h]; exact Engine.Inv.raise i3 _ _ _
  have i5 := Engine.noteStage_inv (Engine.emitStage_inv i3)
  rcases h with ⟨kind, e5, q, h⟩ | ⟨e5, q, h⟩ <;> simp only [StageEnd.engine_done] at i5 <;>
    rw [q] at i5
  · rw [h]; exact Engine.Inv.raise i5 _ _ _
  · rw [h]; exact Engine.Inv.done i5 _

end Sys2Proof.Machine
end

