-- ==== Sys2Proof/Laws/PerInstr.lean ====
section
/-!
SUPPORT. What holds of every instruction as syntax, one lemma per constructor.
-/

namespace Sys2Proof.Laws.RoundTrip

/-- The instruction is well-formed, its word (as a word, as bytes, and as the opcode table's number)
decodes to it, and its word is a legal one (spec/30_encoding.md R102, R105, R106). -/
def Statement (i : Instr) : Prop :=
  i.wellFormed = true ∧ (commandFields (encode i)).wellFormed = true ∧
    decodeWord (encode i) = .ok i ∧ decodeBytes (encodeBytes i) = .ok i ∧
    decodeTableWord 32 (encode i).toNat = some i

theorem decode : Statement .decode := ⟨rfl, rfl, rfl, rfl, rfl⟩

theorem transform : Statement .transform := ⟨rfl, rfl, rfl, rfl, rfl⟩

theorem select : Statement .select := ⟨rfl, rfl, rfl, rfl, rfl⟩

theorem emit : Statement .emit := ⟨rfl, rfl, rfl, rfl, rfl⟩

theorem noteE : Statement .noteE := ⟨rfl, rfl, rfl, rfl, rfl⟩

theorem noteF : Statement .noteF := ⟨rfl, rfl, rfl, rfl, rfl⟩

theorem synthE : Statement .synthE := ⟨rfl, rfl, rfl, rfl, rfl⟩

theorem synthF : Statement .synthF := ⟨rfl, rfl, rfl, rfl, rfl⟩

theorem setbandMin : Statement .setbandMin := ⟨rfl, rfl, rfl, rfl, rfl⟩

theorem setbandMax : Statement .setbandMax := ⟨rfl, rfl, rfl, rfl, rfl⟩

theorem tick : Statement .tick := ⟨rfl, rfl, rfl, rfl, rfl⟩

theorem init : Statement .init := ⟨rfl, rfl, rfl, rfl, rfl⟩

end Sys2Proof.Laws.RoundTrip
end

