-- ==== Sys2Proof/Laws/Relabel.lean ====
section
/-!
SUPPORT. No operation of the data flow reads `CMD`, the operand registers (it reads their latches),
`NOISE_THR`, or a status field other than `FE_VALID`: changing those first and operating gives what
operating and changing them then gives.
-/

namespace Sys2Proof.Machine

/-- Change what no operation reads: `CMD`, the operand registers, `NOISE_THR`, and the status fields
but `FE_VALID` and `NOTE_VALID`. -/
def Engine.relabel (e : Engine) (c : Word) (o : Operands) (n : Word) (st : Status) : Engine :=
  { e with
    cmd := c, operands := o, noiseThr := n
    status := { st with feValid := e.status.feValid, noteValid := e.status.noteValid } }

/-- Change `CMD`, the operand registers, `NOISE_THR` and `OVERRUN`. -/
def Engine.retag (e : Engine) (c : Word) (o : Operands) (n : Word) (ov : Bool) : Engine :=
  { e with cmd := c, operands := o, noiseThr := n, status := { e.status with overrun := ov } }

/-- Apply a change to the engine a stage leaves. -/
def StageEnd.map (f : Engine → Engine) : StageEnd → StageEnd
  | .done e => .done (f e)
  | .raised kind e => .raised kind (f e)

@[simp] theorem StageEnd.map_done (f : Engine → Engine) (e : Engine) :
    (StageEnd.done e).map f = .done (f e) := rfl
@[simp] theorem StageEnd.map_raised (f : Engine → Engine) (kind : ErrorKind) (e : Engine) :
    (StageEnd.raised kind e).map f = .raised kind (f e) := rfl

section

variable (k : InstanceId) (e : Engine) (c : Word) (o : Operands) (n : Word) (st : Status)

@[simp] theorem Engine.relabel_done (em : Bool) :
    (e.relabel c o n st).done em = (e.done em).retag c o n st.overrun := rfl

@[simp] theorem Engine.relabel_raise (kind : ErrorKind) (j : BitVec 3) (em : Bool) :
    (e.relabel c o n st).raise kind j em = (e.raise kind j em).retag c o n st.overrun := rfl

theorem StageEnd.complete_relabel (x : StageEnd) :
    (x.map (fun e => e.relabel c o n st)).complete = x.complete.retag c o n st.overrun := by
  cases x <;> rfl

theorem Engine.decodeStage_relabel :
    (e.relabel c o n st).decodeStage k = (e.decodeStage k).map (fun e => e.relabel c o n st) := by
  cases h : decodable e.rawLenOp e.widthOp e.channelsOp e.frameLenOp with
  | true => rw [e.decodeStage_done k h, Engine.decodeStage_done k (e.relabel c o n st) h]; rfl
  | false => rw [e.decodeStage_raised k h, Engine.decodeStage_raised k (e.relabel c o n st) h]; rfl

theorem Engine.transformStage_relabel :
    (e.relabel c o n st).transformStage k =
      (e.transformStage k).map (fun e => e.relabel c o n st) := by
  by_cases h0 : e.frmLen.toNat = 0
  · rw [e.transformStage_empty k h0, Engine.transformStage_empty k (e.relabel c o n st) h0]; rfl
  · cases h : supportedLength e.frmLen.toNat with
    | false =>
      rw [e.transformStage_unsupported k h0 h, Engine.transformStage_unsupported k (e.relabel c o n st) h0 h]; rfl
    | true => rw [e.transformStage_done k h, Engine.transformStage_done k (e.relabel c o n st) h]; rfl

theorem Engine.newCandidates_relabel :
    (e.relabel c o n st).newCandidates k = e.newCandidates k := rfl

theorem Engine.selectStage_relabel :
    (e.relabel c o n st).selectStage k = (e.selectStage k).map (fun e => e.relabel c o n st) := by
  by_cases h : e.cbLen.toNat + (e.newCandidates k).length ≤ 1024
  · rw [e.selectStage_done k h, Engine.selectStage_done k (e.relabel c o n st) h]; rfl
  · rw [e.selectStage_raised k (by omega), Engine.selectStage_raised k (e.relabel c o n st)
      (Nat.lt_of_not_le h)]; rfl

theorem Engine.emits_relabel : (e.relabel c o n st).emits = e.emits := rfl

theorem Engine.emitStage_relabel :
    (e.relabel c o n st).emitStage k = (e.emitStage k).relabel c o n st := by
  cases h : e.emits with
  | true => rw [e.emitStage_emit k h, Engine.emitStage_emit k (e.relabel c o n st) h]; rfl
  | false => rw [e.emitStage_keep k h, Engine.emitStage_keep k (e.relabel c o n st) h]

theorem Engine.noteFor_relabel (f : Int) :
    (e.relabel c o n st).noteFor f = (e.noteFor f).map (fun e => e.relabel c o n st) := by
  by_cases h : f ≤ 0
  · rw [Engine.noteFor_raised e f h, Engine.noteFor_raised (e.relabel c o n st) f h]; rfl
  · rw [Engine.noteFor_done e f (by omega), Engine.noteFor_done (e.relabel c o n st) f (by omega)]; rfl

theorem Engine.noteStage_relabel :
    (e.relabel c o n st).noteStage = e.noteStage.map (fun e => e.relabel c o n st) := by
  cases h : e.status.feValid with
  | false => rw [e.noteStage_absent h, Engine.noteStage_absent (e.relabel c o n st) h]; rfl
  | true =>
    rw [e.noteStage_present h, Engine.noteStage_present (e.relabel c o n st) h, ← Engine.noteFor_relabel]; rfl

theorem Engine.synthesize_relabel (f : Option Int) :
    (e.relabel c o n st).synthesize f = (e.synthesize f).map (fun e => e.relabel c o n st) := by
  cases f with
  | none => rfl
  | some f =>
    by_cases h : e.synthRateOp = 0
    · rw [e.synthesize_noRate f h, Engine.synthesize_noRate (e.relabel c o n st) f h]; rfl
    · rw [e.synthesize_done f h, Engine.synthesize_done (e.relabel c o n st) f h]; rfl

theorem Engine.setBand_relabel (clamp : Int → Int → Int × Int) :
    (e.relabel c o n st).setBand clamp = (e.setBand clamp).map (fun e => e.relabel c o n st) := by
  by_cases h : e.reqMinOp < e.reqMaxOp
  · rw [e.setBand_done clamp h, Engine.setBand_done (e.relabel c o n st) clamp h]; rfl
  · rw [e.setBand_raised clamp (by omega), Engine.setBand_raised (e.relabel c o n st) clamp
      (Int.not_lt.mp h)]; rfl

theorem Engine.tickEmitNote_relabel :
    (e.relabel c o n st).tickEmitNote k = (e.tickEmitNote k).retag c o n st.overrun := by
  unfold Engine.tickEmitNote
  rw [Engine.emitStage_relabel, Engine.noteStage_relabel]
  cases (e.emitStage k).noteStage <;> rfl

theorem Engine.tickSelect_relabel :
    (e.relabel c o n st).tickSelect k = (e.tickSelect k).retag c o n st.overrun := by
  unfold Engine.tickSelect
  rw [Engine.selectStage_relabel]
  cases e.selectStage k with
  | done e' => exact Engine.tickEmitNote_relabel k e' c o n st
  | raised kind e' => rfl

theorem Engine.tickTransform_relabel :
    (e.relabel c o n st).tickTransform k = (e.tickTransform k).retag c o n st.overrun := by
  unfold Engine.tickTransform
  rw [Engine.transformStage_relabel]
  cases e.transformStage k with
  | done e' => exact Engine.tickSelect_relabel k e' c o n st
  | raised kind e' => rfl

theorem Engine.tickPass_relabel :
    (e.relabel c o n st).tickPass k = (e.tickPass k).retag c o n st.overrun := by
  unfold Engine.tickPass
  rw [Engine.decodeStage_relabel]
  cases e.decodeStage k with
  | done e' => exact Engine.tickTransform_relabel k e' c o n st
  | raised kind e' => rfl

/-- What every command but INIT makes of a relabelled state. -/
theorem Engine.after_relabel (i : Instr) (h : i ≠ .init) :
    (e.relabel c o n st).after k i = (e.after k i).retag c o n st.overrun := by
  cases i with
  | init => exact absurd rfl h
  | decode =>
    simp only [Engine.after, Engine.decodeStage_relabel, StageEnd.complete_relabel]
  | transform =>
    simp only [Engine.after, Engine.transformStage_relabel, StageEnd.complete_relabel]
  | select =>
    simp only [Engine.after, Engine.selectStage_relabel, StageEnd.complete_relabel]
  | emit =>
    simp only [Engine.after, Engine.emitStage_relabel, Engine.emits_relabel, Engine.relabel_done]
  | noteE =>
    simp only [Engine.after, Engine.noteStage_relabel, StageEnd.complete_relabel]
  | noteF =>
    simp only [Engine.after]
    rw [show (e.relabel c o n st).freqArgOp = e.freqArgOp from rfl, Engine.noteFor_relabel,
      StageEnd.complete_relabel]
  | synthE =>
    simp only [Engine.after]
    rw [show (e.relabel c o n st).estimate = e.estimate from rfl, Engine.synthesize_relabel,
      StageEnd.complete_relabel]
  | synthF =>
    simp only [Engine.after]
    rw [show (e.relabel c o n st).freqArgOp = e.freqArgOp from rfl, Engine.synthesize_relabel,
      StageEnd.complete_relabel]
  | setbandMin =>
    simp only [Engine.after, Engine.setBand_relabel, StageEnd.complete_relabel]
  | setbandMax =>
    simp only [Engine.after, Engine.setBand_relabel, StageEnd.complete_relabel]
  | tick => simp only [Engine.after, Engine.tickPass_relabel]

/-- No command but INIT reads the operand registers themselves. -/
theorem Engine.after_operands (i : Instr) (h : i ≠ .init) :
    ({ e with operands := o } : Engine).after k i = { e.after k i with operands := o } := by
  obtain ⟨hc, _, _, hn, hv⟩ := e.after_frame k i h
  refine (e.after_relabel k e.cmd o e.noiseThr e.status i h).trans ?_
  rw [← hc, ← hn, ← hv]
  rfl

/-- No command but INIT reads `NOISE_THR`. -/
theorem Engine.after_noiseThr (i : Instr) (h : i ≠ .init) :
    ({ e with noiseThr := n } : Engine).after k i = { e.after k i with noiseThr := n } := by
  obtain ⟨hc, ho, _, _, hv⟩ := e.after_frame k i h
  refine (e.after_relabel k e.cmd e.operands n e.status i h).trans ?_
  rw [← hc, ← ho, ← hv]
  rfl

/-- A command accepted by an instance, in terms of the instance before the acceptance, if its latches
already hold the operands. -/
theorem Engine.after_accept (i : Instr) (h : i ≠ .init) (hl : e.latched = e.operands) (w : Word) :
    (e.accept w).after k i = { e.after k i with cmd := w } := by
  obtain ⟨_, ho, _, hn, hv⟩ := e.after_frame k i h
  have : e.accept w = e.relabel w e.operands e.noiseThr e.status.accepted := by
    unfold Engine.accept
    rw [← hl]
    rfl
  rw [this, e.after_relabel k w _ _ _ i h, ← ho, ← hn, Status.accepted_overrun, ← hv]
  rfl

end

end Sys2Proof.Machine
end

