-- ==== Sys2Proof/Tests/Slice0.lean ====
section
/-!
SUPPORT. Tests. Every expected value is the spec's own: the words are written out bit by bit from
spec/30_encoding.md R101 and R102, the results are rows of spec/95_test_vectors.md (section named at
each test). After them, for each statement with hypotheses, a witness that meets them.
-/

namespace Sys2Proof.Tests

open Sys2Proof Sys2Proof.Machine

/-! ### Well-formedness: each check of R105 refuses an ill-formed word -/

theorem test_wf_opcode_zero :
    ({ opc := 0x0, z0 := 0, m := false, z1 := 0 } : CommandWord).opcodeAssigned = false := by decide
theorem test_wf_opcode_ten :
    ({ opc := 0xA, z0 := 0, m := false, z1 := 0 } : CommandWord).opcodeAssigned = false := by decide
theorem test_wf_z0 :
    ({ opc := 0x1, z0 := 1, m := false, z1 := 0 } : CommandWord).z0Zero = false := by decide
theorem test_wf_z1 :
    ({ opc := 0x5, z0 := 0, m := false, z1 := 1 } : CommandWord).z1Zero = false := by decide
theorem test_wf_modifier :
    ({ opc := 0x8, z0 := 0, m := true, z1 := 0 } : CommandWord).modifierAllowed = false := by decide
theorem test_wf_refused :
    ([{ opc := 0x0, z0 := 0, m := false, z1 := 0 }, { opc := 0xF, z0 := 0, m := false, z1 := 0 },
      { opc := 0x1, z0 := 8, m := false, z1 := 0 }, { opc := 0x5, z0 := 0, m := false, z1 := 1 },
      { opc := 0x9, z0 := 0, m := true, z1 := 0 }] : List CommandWord).all
      (fun c => !c.wellFormed) = true := by decide

/-! ### Decoding: the word of every command, bit by bit from R101 and R102 -/

theorem test_word_decode :
    decodeWord 0b00000000000000000000000000000001 = .ok .decode := by decide
theorem test_word_transform :
    decodeWord 0b00000000000000000000000000000010 = .ok .transform := by decide
theorem test_word_select :
    decodeWord 0b00000000000000000000000000000011 = .ok .select := by decide
theorem test_word_emit :
    decodeWord 0b00000000000000000000000000000100 = .ok .emit := by decide
theorem test_word_noteE :
    decodeWord 0b00000000000000000000000000000101 = .ok .noteE := by decide
theorem test_word_noteF :
    decodeWord 0b00000000000000000000000100000101 = .ok .noteF := by decide
theorem test_word_synthE :
    decodeWord 0b00000000000000000000000000000110 = .ok .synthE := by decide
theorem test_word_synthF :
    decodeWord 0b00000000000000000000000100000110 = .ok .synthF := by decide
theorem test_word_setbandMin :
    decodeWord 0b00000000000000000000000000000111 = .ok .setbandMin := by decide
theorem test_word_setbandMax :
    decodeWord 0b00000000000000000000000100000111 = .ok .setbandMax := by decide
theorem test_word_tick :
    decodeWord 0b00000000000000000000000000001000 = .ok .tick := by decide
theorem test_word_init :
    decodeWord 0b00000000000000000000000000001001 = .ok .init := by decide

/-- The illegal words of 2.1 and the test of R105 each fails. -/
theorem test_illegal_words :
    [0x00000000, 0x0000000A, 0x0000000F, 0x00000011, 0x000000F8, 0x00000101, 0x00000108, 0x00000109,
      0x00000205, 0x80000001, 0xFFFFFFFF].map decodeWord =
    [.error .opcodeUnassigned, .error .opcodeUnassigned, .error .opcodeUnassigned, .error .z0NotZero,
      .error .z0NotZero, .error .modifierNotAllowed, .error .modifierNotAllowed,
      .error .modifierNotAllowed, .error .z1NotZero, .error .z1NotZero,
      .error .opcodeUnassigned] := by decide

/-- One command is one word of four bytes. -/
theorem test_one_word : decodeBytes [0x01, 0x00] = .error .notOneWord := by decide

/-! ### Helpers -/

/-- The reset machine with instance `k` prepared by `f`, `k` active, and the events `evs` to come. -/
def prepared (k : InstanceId) (f : Engine → Engine) (evs : List Event) : State :=
  { State.reset.setEngine k (f (State.reset.engine k)) with active := k, schedule := evs }

/-- The same, with the word `w` accepted and its completion next. -/
def ready (k : InstanceId) (w : Word) (f : Engine → Engine) : State :=
  prepared k (fun e => (f e).accept w) [.complete k]

/-- What holds of the next state, if there is one. -/
def nextHas (s : State) (p : State → Bool) : Bool :=
  match step s with
  | .next t => p t
  | _ => false

/-- The operands of a DECODE. -/
def withFormat (L W C F : Nat) (e : Engine) : Engine :=
  { e with operands := { e.operands with
      rawLen := BitVec.ofNat 14 L, fmtWidth := BitVec.ofNat 4 W, fmtChannels := BitVec.ofNat 4 C
      frameLen := BitVec.ofNat 16 F } }

/-- Bytes in `RAW`. -/
def withRaw (bs : List Byte) (e : Engine) : Engine := { e with mem := e.mem.store 0x2000 bs }

/-- A decoded frame and the rate. -/
def withFrame (xs : List Int) (R : Nat) (e : Engine) : Engine :=
  { e.fill .frm xs with
    frmLen := BitVec.ofNat 11 xs.length
    operands := { e.operands with rate := BitVec.ofNat 20 R } }

/-- A spectrum of bins 500 Hz apart, and a band. -/
def withSpectrum (mags : List Int) (lo hi : Int) (e : Engine) : Engine :=
  { (e.fill .bin ((List.range mags.length).map (fun i : Nat => (i : Int) * 2048000))).fill .mag mags with
    specLen := BitVec.ofNat 10 mags.length
    minFreq := BitVec.ofInt 32 lo, maxFreq := BitVec.ofInt 32 hi }

/-- Buffered candidates. -/
def withCandidates (cs : List Int) (e : Engine) : Engine :=
  { e.writeFrom .cb 0 cs with cbLen := BitVec.ofNat 11 cs.length }

/-- A present estimate. -/
def withEstimate (f : Int) (e : Engine) : Engine :=
  { e with fe := BitVec.ofInt 32 f, status := { e.status with feValid := true } }

/-- The operands of a SYNTH and of NOTE.F. -/
def withTone (f : Int) (cnt Rs : Nat) (e : Engine) : Engine :=
  { e with operands := { e.operands with
      freqArg := BitVec.ofInt 32 f, synthCount := BitVec.ofNat 16 cnt
      synthRate := BitVec.ofNat 20 Rs } }

/-- A requested band. -/
def withRequest (a b : Int) (e : Engine) : Engine :=
  { e with operands := { e.operands with reqMin := BitVec.ofInt 31 a, reqMax := BitVec.ofInt 31 b } }

/-- The raw bytes and the operands of program A. -/
def programA (e : Engine) : Engine :=
  withRaw [0, 0, 0xE8, 3, 0, 0, 0x18, 0xFC, 0, 0, 0xE8, 3, 0, 0, 0x18, 0xFC]
    (withFormat 16 2 1 8 { e with operands := { e.operands with rate := 8000 } })

/-! ### One step of each command -/

/-- 2.4: three-byte samples, signed, little-endian. -/
theorem test_decode_three_bytes :
    nextHas (ready .live 1 (fun e => withRaw
      [0x56, 0x34, 0x12, 0x00, 0x00, 0x80, 0xFF, 0xFF, 0xFF, 0xFF, 0xFF, 0x7F]
      (withFormat 12 3 1 4 e)))
      (fun t => t.live.frame .live == [1193046, -8388608, -1, 8388607] &&
        t.live.status.word == 0) = true := by decide +kernel

/-- S1: channel 0 of two. -/
theorem test_decode_stereo :
    nextHas (ready .file 1 (fun e => withRaw
      [0x34, 0x12, 0xFF, 0xFF, 0x00, 0x80, 0xFE, 0xFF] (withFormat 8 2 2 2 e)))
      (fun t => t.file.frame .file == [4660, -32768] && t.live == State.reset.live) = true := by
  decide +kernel

/-- 2.5: four samples. -/
theorem test_transform_four :
    nextHas (ready .live 2 (withFrame [1, 2, 3, 4] 8000))
      (fun t => (t.live.observe .live).spectrum ==
        [(0, 163840), (8192000, 46340), (16384000, 32768)]) = true := by decide +kernel

/-- 2.5: the rounding of the ROM shows. -/
theorem test_transform_impulse :
    nextHas (ready .live 2 (withFrame [0, 1, 0, 0, 0, 0, 0, 0] 8000))
      (fun t => (t.live.observe .live).spectrum.map Prod.snd ==
        [16384, 16383, 16384, 16383, 16384]) = true := by decide +kernel

/-- 2.6: two rising peaks. -/
theorem test_select_rising :
    nextHas (ready .live 3 (withSpectrum [0, 10, 400, 10, 0, 10, 600, 10, 0] 0 90316800))
      (fun t => t.live.candidates .live == [4096000, 12288000]) = true := by decide +kernel

/-- 2.6: exactly three times the mean is not enough. -/
theorem test_select_strict :
    nextHas (ready .live 3 (withSpectrum [1, 1, 1, 4, 1, 1, 1, 1, 1] 0 90316800))
      (fun t => t.live.cbLen == 0 && t.live.status.word == 0) = true := by decide +kernel

/-- 2.7: five candidates, the mean rounded down. -/
theorem test_emit_floor :
    nextHas (ready .live 4 (withCandidates [1, 2, 2, 2, 2]))
      (fun t => t.live.fe == 1 && t.live.status.word == 0x300 && t.live.cbLen == 0) = true := by
  decide +kernel

/-- 2.7: three candidates are kept. -/
theorem test_emit_keeps :
    nextHas (ready .live 4 (withCandidates [1, 2, 3]))
      (fun t => t.live.candidates .live == [1, 2, 3] && t.live.status.word == 0) = true := by
  decide +kernel

/-- 2.8: 2000.25 Hz. -/
theorem test_noteE :
    nextHas (ready .live 5 (withEstimate 8193024))
      (fun t => t.live.noteRes == 0x004B0602 && t.live.status.word == 0x500) = true := by
  decide +kernel

/-- 2.8: the boundary below note 0. -/
theorem test_noteF_boundary :
    nextHas (ready .live 0x105 (withTone 103291 0 1))
      (fun t => t.live.noteRes == 0xFFFF000A && t.live.status.word == 0x400) = true := by
  decide +kernel

/-- 2.9: no estimate comes before no rate. -/
theorem test_synthE_absent :
    nextHas (ready .live 6 (withTone 0 8 0))
      (fun t => t.live.status.word == 0x30 && t.live.toneLen == 0) = true := by decide +kernel

/-- 2.9: the estimate 440 Hz. -/
theorem test_synthE :
    nextHas (ready .live 6 (fun e => withEstimate 1802240 (withTone 0 8 44100 e)))
      (fun t => (t.live.observe .live).tone == [0, 1005, 2006, 2999, 3981, 5044, 5990, 6914]) =
      true := by decide +kernel

/-- 2.9: a negative frequency. -/
theorem test_synthF_negative :
    nextHas (ready .live 0x106 (withTone (-1802240) 4 44100))
      (fun t => (t.live.observe .live).tone == [0, -1105, -2105, -3098]) = true := by
  decide +kernel

/-- S6: 500 and 300 Hz clamp to 200 and 300 Hz. -/
theorem test_setbandMin_clamps :
    nextHas (ready .live 7 (withRequest 2048000 1228800))
      (fun t => t.live.minFreq == 0x000C8000 && t.live.maxFreq == 0x0012C000 &&
        t.live.status.word == 0x40) = true := by decide +kernel

/-- R233: equal bounds clamp the maximum. -/
theorem test_setbandMax_clamps :
    nextHas (ready .live 0x107 (withRequest 0 0))
      (fun t => t.live.minFreq == 0 && t.live.maxFreq == 409600 && t.live.status.word == 0x40) =
      true := by decide +kernel

/-- Program A, tick 4. -/
theorem test_tick_emits :
    nextHas (ready .live 8 (fun e => withCandidates [8192000, 8192000, 8192000] (programA e)))
      (fun t => t.live.status.word == 0x700 && t.live.fe == 8192000 && t.live.cbLen == 0 &&
        t.live.noteRes == 0x004B0602) = true := by decide +kernel

/-- Program F: a frame of six samples stops in stage 2 with the frame committed. -/
theorem test_tick_stage_two :
    nextHas (ready .live 8 (fun e => withEstimate 8192000 (withCandidates [8192000]
        (withFormat 12 2 1 6 (programA e)))))
      (fun t => t.live.status.word == 0x2160 && t.live.frmLen == 6 && t.live.cbLen == 1) =
      true := by decide +kernel

/-- 2.10: INIT leaves the reset values with `CMD = 9`, and the other instance alone. -/
theorem test_init :
    nextHas (ready .file 9 (fun e => withCandidates [1] (withEstimate 5 (withRequest 1 2 e))))
      (fun t => t.file == { Engine.resetIn t.file.epochs with cmd := 9 } &&
        t.live == State.reset.live) = true := by decide +kernel

/-- 2.1: an illegal word raises `IllegalCommand` and changes nothing else. -/
theorem test_illegal :
    nextHas (ready .live 0xA (withEstimate 5))
      (fun t => t.live.status.word == 0x150 && t.live.cmd == 0xA && t.live.fe == 5) = true := by
  decide +kernel

/-- Program F, last step: the second command is dropped. -/
theorem test_overrun :
    nextHas { ready .live 8 id with schedule := [.write 32 0 4] }
      (fun t => t.live.status.overrun && t.live.cmd == 8) = true := by decide +kernel

/-- 2.2: `REQ_MAX` drops bit 31 and reads back sign-extended; 2.3: a word of the ROM. -/
theorem test_host_reads :
    nextHas (prepared .live (fun e => { e with operands := e.operands.write .reqMax 0xBFFFFFFF })
      [.read 32 0x1C]) (fun t => t.readData == 0x3FFFFFFF) = true ∧
    nextHas (prepared .live id [.read 32 0x80000]) (fun t => t.readData == 0x00650000) = true := by
  decide +kernel

/-! ### Witnesses

For each statement of Obligations.lean that has hypotheses, states and operands that meet them, at the
bounds of their ranges. -/

theorem witness_DecoderAcceptsExactlyTheTableWords : Instr.tick.wellFormed = true := by decide

theorem witness_IllegalWordsRaiseIllegalCommandOnly :
    (∀ k : InstanceId, (ready k 0 id).schedule = [.complete k] ∧
      ((ready k 0 id).engine k).status.busy = true ∧
      decodeWord ((ready k 0 id).engine k).cmd = .error .opcodeUnassigned) ∧
    decodeWord ((ready .live 0x80000001 id).engine .live).cmd = .error .z1NotZero := by
  refine ⟨fun k => ?_, by decide⟩
  cases k <;> decide

theorem witness_StepRunsTheAcceptedCommand :
    (∀ k : InstanceId, (ready k 8 id).schedule = [.complete k] ∧
      ((ready k 8 id).engine k).status.busy = true ∧
      decodeWord ((ready k 8 id).engine k).cmd = .ok .tick) ∧
    (let s := prepared .live (fun e => e.accept 1) []
     s.schedule = [] ∧ s.live.status.busy = true ∧ decodeWord s.live.cmd = .ok .decode) ∧
    (let s := prepared .file (fun e => e.accept 9) []
     s.schedule = [] ∧ s.live.status.busy = false ∧ s.file.status.busy = true ∧
      decodeWord s.file.cmd = .ok .init) := by
  refine ⟨fun k => ?_, by decide, by decide⟩
  cases k <;> decide

theorem witness_CmdWriteIsAcceptedOrDropped :
    (let s := prepared .file id [.write 32 (InstanceId.file.address 0) 8]
     s.schedule = [.write 32 (InstanceId.file.address 0) 8] ∧ s.file.status.busy = false) ∧
    (let s := prepared .live (fun e => e.accept 8) [.write 32 (InstanceId.live.address 0) 4]
     s.schedule = [.write 32 (InstanceId.live.address 0) 4] ∧ s.live.status.busy = true) ∧
    ((ready .live 0 id).schedule = [.complete .live] ∧ (ready .live 0 id).live.status.busy = true) ∧
    (let s := prepared .live id [.read 32 (InstanceId.live.address 0)]
     s.schedule = [.read 32 (InstanceId.live.address 0)] ∧ s.live.status.busy = false) := by
  decide

theorem witness_CommandsReadOnlyLatchedOperands :
    (let s := prepared .live id [.write 32 (InstanceId.live.address 0) 1]
     s.schedule = [.write 32 (InstanceId.live.address 0) 1] ∧ s.live.status.busy = false) ∧
    Instr.tick ≠ .init ∧
    (let s := prepared .live (fun e => e.accept 8)
       [.write 32 (InstanceId.live.address (Reg.operand .rawLen).offset) 16]
     s.schedule = [.write 32 (InstanceId.live.address (Reg.operand .rawLen).offset) 16] ∧
      s.live.inFlight = some .tick ∧ s.live.inFlight ≠ some .init) := by decide

theorem witness_HardwareResetAbandonsCommands :
    (prepared .live (fun e => e.accept 8) [.hardReset (some (0x40000, 9))]).schedule =
      [.hardReset (some (0x40000, 9))] := by decide

theorem witness_IdleMachineWaits :
    State.reset.schedule = [] ∧ State.reset.live.status.busy = false ∧
      State.reset.file.status.busy = false := by decide

theorem witness_OperandRegistersAreWarl :
    OperandReg.fmt ≠ OperandReg.rawLen ∧ (0 < 1 ∧ 0 ≤ 1 / 2) ∧ (0 < 1024 ∧ 512 ≤ 1024 / 2) := by
  decide

/-- The bounds of every range of the two clauses, in both instances. -/
theorem witness_UnmappedAccessesAreHarmless :
    (∀ a ∈ [(0x80800 : BitVec 20), 0xFFFFC, 0x50, 0x1FFC, 0x5804, 0x5FFC, 0x7008, 0x7FFC, 0x9000,
        0x1FFFC, 0x40050, 0x41FFC, 0x45804, 0x45FFC, 0x47008, 0x47FFC, 0x49000, 0x5FFFC],
      a.toNat % 4 = 0 ∧ (0x80800 ≤ a.toNat ∨
      (a.toNat < 0x80000 ∧
        ((0x50 ≤ a.toNat % 0x40000 ∧ a.toNat % 0x40000 < 0x2000) ∨
          (0x5804 ≤ a.toNat % 0x40000 ∧ a.toNat % 0x40000 < 0x6000) ∨
          (0x7008 ≤ a.toNat % 0x40000 ∧ a.toNat % 0x40000 < 0x8000) ∨
          (0x9000 ≤ a.toNat % 0x40000 ∧ a.toNat % 0x40000 < 0x20000))))) ∧
    (∀ a ∈ [(0x80000 : BitVec 20), 0x807FC, 0x04, 0x30, 0x4C, 0x4000, 0x8FFC, 0x20000, 0x3FFFC,
        0x40004, 0x40030, 0x4004C, 0x44000, 0x48FFC, 0x60000, 0x7FFFC],
      a.toNat % 4 = 0 ∧ ((0x80000 ≤ a.toNat ∧ a.toNat < 0x80800) ∨
      (a.toNat < 0x80000 ∧
        (a.toNat % 0x40000 = 0x04 ∨
          (0x30 ≤ a.toNat % 0x40000 ∧ a.toNat % 0x40000 < 0x50) ∨
          (0x4000 ≤ a.toNat % 0x40000 ∧ a.toNat % 0x40000 < 0x9000) ∨
          0x20000 ≤ a.toNat % 0x40000)))) := by
  refine ⟨fun a ha => ?_, fun a ha => ?_⟩ <;> fin_cases ha <;> decide

theorem witness_RegisterMapReads : (State.reset.engine .file).status.busy = false := by decide

/-- The instance read is idle while the other is busy. -/
theorem witness_HostReadsElementsLittleEndian :
    (State.reset.engine .live).status.busy = false ∧
    ((ready .live 8 id).engine .live).status.busy = true ∧
    ((ready .live 8 id).engine .file).status.busy = false ∧
    (8188 % 4 = 0 ∧ 8188 < 8192) ∧ 512 < 513 ∧ 1023 < 1024 ∧ 32767 < 32768 ∧ 511 < 512 := by
  decide

/-- An idle instance, and instances with SYNTH.F or INIT in flight. -/
theorem witness_RawWordWriteReadsBack :
    ((State.reset.engine .file).status.busy = false ∧
      (State.reset.engine .file).inFlight ≠ some .decode ∧
      (State.reset.engine .file).inFlight ≠ some .tick) ∧
    (∀ w ∈ [(0x106 : Word), 9],
      ((ready .live w id).engine .live).status.busy = true ∧
      ((ready .live w id).engine .live).inFlight ≠ some .decode ∧
      ((ready .live w id).engine .live).inFlight ≠ some .tick) ∧
    (0 % 4 = 0 ∧ 0 < 8192) ∧ (8188 % 4 = 0 ∧ 8188 < 8192) := by
  refine ⟨by decide, fun w hw => ?_, by decide⟩
  fin_cases hw <;> decide

theorem witness_BusyAndMisalignedAccesses :
    ((ready .live 1 id).live.status.busy = true ∧ Reg.fe ≠ .status) ∧
    (∀ a ∈ [(Space.raw, 0x2000), (.raw, 0x3FFC), (.bin, 0x5800), (.tone, 0x3FFFC)],
      (ready .live 1 id).live.status.busy = true ∧ a.1.holds a.2 = true ∧ a.2 % 4 = 0) ∧
    ((ready .live 1 id).live.inFlight = some .decode ∧ 8188 % 4 = 0 ∧ 8188 < 8192) ∧
    ((ready .live 8 id).live.inFlight = some .tick ∧ 0 % 4 = 0 ∧ 0 < 8192) ∧
    (ready .live 9 id).live.inFlight = some .init ∧
    (16 ≠ 32 ∨ (0 : BitVec 20).toNat % 4 ≠ 0) ∧ (32 ≠ 32 ∨ (0xFFFFD : BitVec 20).toNat % 4 ≠ 0) := by
  decide

/-- `L`, `W`, `C`, `F` at their bounds: no byte, the largest frame, a remainder-free zero `F`. -/
theorem witness_DecodeWritesChannelZeroSamples :
    ∀ f ∈ [(0, 1, 1, 0), (8192, 4, 2, 1024), (1024, 1, 1, 1), (6, 3, 2, 1)],
      let E := (ready .live 1 (withFormat f.1 f.2.1 f.2.2.1 f.2.2.2)).live
      let L := E.latched.rawLen.toNat
      let W := E.latched.fmtWidth.toNat
      let C := E.latched.fmtChannels.toNat
      let F := E.latched.frameLen.toNat
      1 ≤ W ∧ W ≤ 4 ∧ (C = 1 ∨ C = 2) ∧ L ≤ 8192 ∧ W * C * F ∣ L ∧ L / (W * C) ≤ 1024 := by
  decide

theorem witness_TransformWritesTheSpectrum :
    (∃ g ≤ 10, (withFrame [5] 8000 State.reset.live).frmLen.toNat = 2 ^ g) ∧
    (∃ g ≤ 10, ({ State.reset.live with frmLen := 1024 } : Engine).frmLen.toNat = 2 ^ g) :=
  ⟨⟨0, by decide, by decide⟩, ⟨10, by decide, by decide⟩⟩

theorem witness_TransformRefusesBadLengths :
    State.reset.live.frmLen.toNat = 0 ∧
    ∀ n ∈ [3, 1023, 1025, 2047], (BitVec.ofNat 11 n).toNat ≠ 0 ∧
      ¬ ∃ g ≤ 10, (BitVec.ofNat 11 n).toNat = 2 ^ g := by
  decide

theorem witness_DcAndNyquistMagnitudesAreExact :
    (∃ g ≤ 10, (withFrame [3, -1] 8000 State.reset.live).frmLen.toNat = 2 ^ g) ∧
      2 ≤ (withFrame [3, -1] 8000 State.reset.live).frmLen.toNat ∧
    (∃ g ≤ 10, (withFrame [7] 0 State.reset.live).frmLen.toNat = 2 ^ g) :=
  ⟨⟨1, by decide, by decide⟩, by decide, ⟨0, by decide, by decide⟩⟩

/-- One new candidate, with room for exactly one and with no room. -/
theorem witness_SelectAppendsTheRisingPeaks :
    ∀ full ∈ [1023, 1024],
      let E := { withSpectrum [0, 0, 0, 9] 0 90316800 State.reset.live with
        cbLen := BitVec.ofNat 11 full }
      let F := (List.range E.specLen.toNat).filter
        (fun i => E.minFreq.toInt ≤ E.binFreq .live i ∧ E.binFreq .live i ≤ E.maxFreq.toInt)
      let tot := (F.map (E.magnitude .live)).sum
      let loud := fun i => 3 * tot < E.magnitude .live i * F.length
      let new := (F.filter (fun i => loud i ∧
        ∀ j ∈ F, j < i → loud j → E.magnitude .live j < E.magnitude .live i)).map (E.binFreq .live)
      new = [6144000] ∧ (full = 1023 → E.cbLen.toNat + new.length ≤ 1024) ∧
        (full = 1024 → 1024 < E.cbLen.toNat + new.length) := by decide +kernel

/-- A short band, strictly rising bins, and the magnitudes of the worked example of R145 over the bins
of rate 0, where 0 is appended twice (log 21). -/
theorem witness_SelectedPeaksAreLoudAndRising :
    [((0 : Int), 0), (1, 0), (2, 9)].length ≤ 3 ∧
    ([((0 : Int), 0), (1, 0), (2, 9), (3, 0)].Pairwise (fun p q => p.1 < q.1) ∧
      risingPeaks 4 9 0 [((0 : Int), 0), (1, 0), (2, 9), (3, 0)] = [2]) ∧
    (let pairs := [0, 10, 400, 10, 0, 10, 600, 10, 0].map (fun m : Nat => ((0 : Int), m))
     (∀ p ∈ pairs, p.1 = 0) ∧ risingPeaks 9 1040 0 pairs = [0, 0]) := by decide

theorem witness_SelectionIsScaleInvariant : 0 < 1 := by decide

theorem witness_EmitStoresTheFloorMean :
    3 < (withCandidates [1, 2, 3, 4] State.reset.live).cbLen.toNat ∧
      (withCandidates [1, 2, 3] State.reset.live).cbLen.toNat ≤ 3 := by decide

theorem witness_SecondEmitEmitsNothing :
    ((prepared .live (withCandidates [1, 2, 3, 4]) []).engine .live).status.busy = false := by decide

theorem witness_NoteComputesTheNoteNumber :
    0 < (withTone 1 0 0 State.reset.live).operands.freqArg.toInt ∧
    0 < ((ready .live 0x105 (withTone 2147483647 0 0)).live).latched.freqArg.toInt ∧
    (withEstimate 1 State.reset.live).status.feValid = true ∧
      0 < (withEstimate 1 State.reset.live).fe.toInt := by decide

theorem witness_NoteWithoutAPositiveFrequency :
    (ready .live 0x105 (withTone 0 0 0)).live.latched.freqArg.toInt ≤ 0 ∧
    (ready .live 0x105 (withTone (-2147483648) 0 0)).live.latched.freqArg.toInt ≤ 0 ∧
    ((withEstimate 0 State.reset.live).status.feValid = true ∧
      (withEstimate 0 State.reset.live).fe.toInt ≤ 0) ∧
    State.reset.live.status.feValid = false := by decide

theorem witness_NoteNumberIsMonotone :
    0 < 1 ∧ 1 ≤ 2147483647 ∧ 2147483647 < 2 ^ 31 := by decide

theorem witness_SynthWritesThePhaseAccumulatorTone :
    (ready .live 0x106 (withTone 0 65535 1)).live.latched.synthRate.toNat ≠ 0 ∧
    (let E := (ready .live 6 (fun e => withEstimate 1802240 (withTone 0 0 1048575 e))).live
     E.latched.synthRate.toNat ≠ 0 ∧ E.status.feValid = true) := by decide

theorem witness_SynthErrorsInOrder :
    (ready .live 6 (withTone 0 8 0)).live.status.feValid = false ∧
    (let E := (ready .live 6 (fun e => withEstimate 5 (withTone 0 8 0 e))).live
     E.status.feValid = true ∧ E.latched.synthRate = 0) ∧
    (ready .live 0x106 (withTone 5 8 0)).live.latched.synthRate = 0 ∧
    (let E := (ready .live 6 (fun e => withEstimate 5 (withTone 0 8 1 e))).live
     E.latched.synthRate ≠ 0 ∧ E.status.feValid = true) := by decide

theorem witness_SynthAtSimpleFractionsOfTheRate : 0 < 1 := by decide

theorem witness_SetbandAppliesAValidBand :
    ∀ r ∈ [((-1073741824 : Int), (1073741823 : Int)), (5, 6)],
      let E := (ready .live 7 (withRequest r.1 r.2)).live
      E.latched.reqMin.toInt < E.latched.reqMax.toInt ∧
        Instr.setbandMin ∈ [Instr.setbandMin, .setbandMax] := by decide

theorem witness_SetbandClampsAConflict :
    ∀ r ∈ [((1073741823 : Int), (-1073741824 : Int)), (6, 6)],
      let E := (ready .live 0x107 (withRequest r.1 r.2)).live
      E.latched.reqMax.toInt ≤ E.latched.reqMin.toInt := by decide

theorem witness_NoiseThresholdIsCosmetic :
    State.reset.live.inFlight ≠ some .init ∧ (ready .live 8 id).live.inFlight = some .tick ∧
      (ready .live 8 id).live.inFlight ≠ some .init ∧
      (State.reset.engine .live).status.busy = false := by decide

theorem witness_TickEqualsTheFiveCommands :
    ((prepared .live programA []).engine .live).status.busy = false := by decide

/-- With `MIN_FREQ = 1`, with candidates and an estimate, and in the band of the reset state. -/
theorem witness_TickCompletesAllFiveStages :
    ∀ e ∈ [fun e => { programA e with minFreq := 1 },
        fun e => { withEstimate 1 (withCandidates [1, 2, 3] (programA e)) with minFreq := 1 },
        programA, fun e => withCandidates [2, 2, 2] (programA e)],
      let E := (ready .live 8 e).live
      let L := E.latched.rawLen.toNat
      let W := E.latched.fmtWidth.toNat
      let C := E.latched.fmtChannels.toNat
      1 ≤ W ∧ W ≤ 4 ∧ (C = 1 ∨ C = 2) ∧ L ≤ 8192 ∧ W * C * E.latched.frameLen.toNat ∣ L ∧
        L / (W * C) = 2 ^ 3 ∧ E.cbLen.toNat ≤ 511 ∧
        ((0 < E.minFreq.toInt ∧ ∀ i < E.cbLen.toNat, 0 < E.candidate .live i) ∨
          (0 < E.latched.rate.toNat ∧ ∀ i < E.cbLen.toNat, 2 ≤ E.candidate .live i)) ∧
        (E.status.feValid = true → 0 < E.fe.toInt) := by
  decide +kernel

/-- The band of the last two is the reset one, with minimum 0. -/
theorem witness_TickCompletesAllFiveStages_resetBand :
    (ready .live 8 programA).live.minFreq = 0 ∧ 0 < (ready .live 8 programA).live.latched.rate.toNat := by
  decide

theorem witness_TickKeepsTheBufferShort :
    ((ready .live 8 (withCandidates [1, 2, 3])).engine .live).cbLen.toNat ≤ 3 := by decide

/-- A command that completes with an error, from a prepared state. -/
def failsWith (i : Instr) (s : State) (err : BitVec 4) (stage : BitVec 3) : Prop :=
  ∃ T, exec i s = .next (s.setEngine s.active T) ∧ T.status.err = err ∧ T.status.stage = stage

theorem failsWith_of_after {i : Instr} {s : State} {err : BitVec 4} {stage : BitVec 3}
    (h : ((s.engine s.active).after s.active i).status.err = err ∧
      ((s.engine s.active).after s.active i).status.stage = stage) : failsWith i s err stage :=
  ⟨_, exec_eq i s, h⟩

/-- Every command that can fail does so from some state, TICK in each of its four stages (the word in
`CMD` plays no part in `exec`). -/
theorem witness_FailingCommandsKeepPriorState :
    failsWith .decode (ready .live 1 id) 1 0 ∧ failsWith .transform (ready .live 2 id) 2 0 ∧
    failsWith .select (ready .live 3
      (fun e => { withSpectrum [0, 0, 0, 9] 0 90316800 e with cbLen := 1024 })) 7 0 ∧
    failsWith .noteE (ready .live 5 (withEstimate 0)) 2 0 ∧
    failsWith .noteF (ready .live 0x105 id) 2 0 ∧ failsWith .synthE (ready .live 6 id) 3 0 ∧
    failsWith .synthF (ready .live 0x106 (withTone 5 8 0)) 2 0 ∧
    failsWith .setbandMin (ready .live 7 id) 4 0 ∧
    failsWith .setbandMax (ready .live 0x107 id) 4 0 ∧
    failsWith .tick (ready .live 8 id) 1 1 ∧
    failsWith .tick (ready .live 8 (withFormat 0 2 1 8)) 2 2 ∧
    failsWith .tick (ready .live 8 (fun e => { programA e with cbLen := 1024 })) 7 3 ∧
    failsWith .tick (ready .live 8
      (fun e => withEstimate 0 { programA e with maxFreq := 1 })) 2 5 := by
  refine ⟨?_, ?_, ?_, ?_, ?_, ?_, ?_, ?_, ?_, ?_, ?_, ?_, ?_⟩ <;>
    exact failsWith_of_after (by decide +kernel)

/-- An emission, a reset and an INIT change the estimate. -/
theorem witness_EstimateIsSticky :
    nextHas (ready .live 4 (withCandidates [1, 2, 3, 4]))
      (fun t => t.live.status.feValid && State.reset.live.status.feValid == false) = true ∧
    nextHas (prepared .live (withEstimate 5) [.hardReset none]) (fun t => t.live.fe != 5) = true ∧
    nextHas (ready .live 9 (withEstimate 5)) (fun t => t.live.fe != 5) = true := by decide +kernel

/-- A command that changes a byte. -/
def changesByte (i : Instr) (s : State) (off : Nat) : Prop :=
  ∃ T, exec i s = .next (s.setEngine s.active T) ∧
    T.byteAt s.active off ≠ (s.engine s.active).byteAt s.active off

theorem changesByte_of_after {i : Instr} {s : State} {off : Nat}
    (h : ((s.engine s.active).after s.active i).byteAt s.active off ≠
      (s.engine s.active).byteAt s.active off) : changesByte i s off :=
  ⟨_, exec_eq i s, h⟩

/-- INIT changes one of two different bytes at the same place, whatever the unspecified one is. -/
theorem init_changes (off : Nat) :
    ∃ b : Byte, changesByte .init (ready .live 9 (fun e => { e with mem := [(off, b)] })) off := by
  have key : ∀ b : Byte, Config.unspecifiedByte 0 (Epochs.first.bumpAll.atOffset off) off ≠ b →
      changesByte .init (ready .live 9 (fun e => { e with mem := [(off, b)] })) off := by
    intro b hb
    apply changesByte_of_after
    intro h
    apply hb
    have hx : Memory.get? [(off, b)] off = some b := by rw [Memory.get?_cons, if_pos rfl]
    have hy : (ready .live 9 (fun e => { e with mem := [(off, b)] })).live.byteAt .live off = b := by
      show (Memory.get? [(off, b)] off).getD _ = b
      rw [hx]; rfl
    exact h.trans hy
  by_cases h0 : Config.unspecifiedByte 0 (Epochs.first.bumpAll.atOffset off) off = 0
  · exact ⟨1, key 1 (by rw [h0]; decide)⟩
  · exact ⟨0, key 0 h0⟩

theorem witness_DataSpacesHaveTheirWriters :
    (∃ b : Byte, changesByte .init
      (ready .live 9 (fun e => { e with mem := [(0x2000, b)] })) 0x2000) ∧
    changesByte .decode (ready .live 1 (fun e =>
      withRaw [1, 0, 0, 0] (withFormat 4 4 1 1 (withFrame [0] 8000 e)))) 0x4000 ∧
    changesByte .transform (ready .live 2 (fun e =>
      withFrame [0, 1] 1 (withSpectrum [7, 7] 0 1 e))) 0x5005 ∧
    changesByte .transform (ready .live 2 (fun e =>
      withFrame [0, 1] 1 (withSpectrum [7, 7] 0 1 e))) 0x6001 ∧
    changesByte .select (ready .live 3 (fun e =>
      { withSpectrum [0, 0, 0, 9] 0 90316800 (withCandidates [0] e) with cbLen := 0 })) 0x8001 ∧
    changesByte .synthF (ready .live 0x106 (fun e =>
      withTone 4096000 2 8000 (e.fill .tone [0, 0]))) 0x20002 := by
  refine ⟨init_changes _, ?_, ?_, ?_, ?_, ?_⟩ <;> exact changesByte_of_after (by decide +kernel)

theorem witness_RawBytesAreStable :
    ∀ a ∈ [(0x2000, 0x2000), (0x3FFC, 0x3FFF)],
      nextHas (prepared .live (fun e => { e with mem := [(a.2, 0)] })
        [.write 32 (InstanceId.live.address a.1) 0x01000001])
        (fun t => t.live.byteAt .live a.2 != 0) = true := by decide +kernel

theorem witness_CommandsAreIsolated :
    let s := ready .live 8 programA
    let s' := { ready .live 8 programA with file := withEstimate 5 State.reset.file }
    s.active = s'.active ∧ s.engine s.active = s'.engine s.active ∧ s ≠ s' := by decide

theorem witness_InstanceDependsOnItsOwnEventsOnly :
    let evs := [Event.write 32 (InstanceId.live.address 0) 9,
      .write 32 (InstanceId.file.address 0x20) 5, .complete .file, .read 32 4, .complete .live]
    (∃ t, State.reset.runEvents evs = .next t) ∧
      evs.filter (Event.concerns .file) =
        [.write 32 (InstanceId.file.address 0x20) 5, .complete .file] :=
  ⟨⟨_, rfl⟩, by decide⟩

theorem witness_StopsOnlyOnHostMisuse :
    step { ready .live 9 id with schedule := [.write 32 0x08 1] } = .fault .initWriteRace ∧
    step { ready .live 9 id with schedule := [.write 32 0x2C 1] } = .fault .initWriteRace ∧
    step { ready .live 8 id with schedule := [.write 32 0x2000 1] } = .fault .rawWriteRace ∧
    step (prepared .live id [.read 8 0]) = .refused .notAlignedWordAccess ∧
    step (prepared .live id [.write 32 2 0]) = .refused .notAlignedWordAccess ∧
    step { ready .live 8 id with schedule := [.read 32 0x38] } = .refused .readWhileBusy ∧
    step { ready .live 8 id with schedule := [.read 32 0x4000] } = .refused .readWhileBusy :=
  ⟨rfl, rfl, rfl, rfl, rfl, rfl, rfl⟩

/-- A state with the invariants and a command in flight takes a step. -/
theorem witness_StepKeepsTheInvariants :
    (ready .live 8 id).Inv ∧ ∃ t, step (ready .live 8 id) = .next t :=
  ⟨⟨(Engine.resetIn_inv .live _ 0).accept 8, Engine.resetIn_inv .file _ 0⟩, ⟨_, rfl⟩⟩

theorem witness_ReachableStatesHaveTheInvariants :
    ∃ t, runSteps 2 { State.reset with
      schedule := [.write 32 (InstanceId.live.address 0) 9, .complete .live] } = .next t :=
  ⟨_, rfl⟩

theorem witness_StepKeepsTheTailsUnspecified :
    (∀ k, ((ready .live 8 id).engine k).TailsUnspecified) ∧ ∃ t, step (ready .live 8 id) = .next t := by
  refine ⟨fun k => ?_, ⟨_, rfl⟩⟩
  cases k <;> exact ⟨fun _ _ _ => rfl, fun _ _ _ => rfl, fun _ _ _ => rfl, fun _ _ _ => rfl,
    fun _ _ _ => rfl⟩

end Sys2Proof.Tests
end

section
/-!
PROOFS. The statements of spec/10_state.md: the invariants of R39 over every step and every run from
reset, the tails of the data spaces, the register map, the operand registers, and what a command
reads and writes.
-/

namespace Sys2Proof.Machine

/-! ### A property that every step keeps -/

/-- What a property of one engine has to survive so that every step keeps it: a reset, a completion,
a change of the fields a host write can reach, and a word written to `RAW`. -/
structure KeptByStep (P : InstanceId → Engine → Prop) : Prop where
  toReset : ∀ {k e}, P k e → P k e.toReset
  completed : ∀ {k e}, P k e → P k (e.completed k)
  hostFields : ∀ {k e} (cmd : Word) (op la : Operands) (nt : Word) (busy overrun : Bool), P k e →
    P k { e with
      cmd := cmd, operands := op, latched := la, noiseThr := nt
      status := { e.status with busy := busy, overrun := overrun } }
  writeRaw : ∀ {k e off} (w : Word), Space.raw.holds off = true → off % 4 = 0 → P k e →
    P k (e.writeRaw off w)

/-- A write to an idle `CMD` register is an acceptance. -/
theorem Engine.writeCmd_idle {e : Engine} (w : Word) (h : e.status.busy = false) :
    e.writeCmd w = e.accept w := if_neg (by simp [h])

/-- A write to a busy `CMD` register sets `OVERRUN` only. -/
theorem Engine.writeCmd_busy {e : Engine} (w : Word) (h : e.status.busy = true) :
    e.writeCmd w = { e with status := e.status.overran } := if_pos h

theorem KeptByStep.writeCmd {P : InstanceId → Engine → Prop} (hP : KeptByStep P) {k : InstanceId}
    {e : Engine} (w : Word) (h : P k e) : P k (e.writeCmd w) := by
  cases hb : e.status.busy with
  | false =>
    rw [Engine.writeCmd_idle w hb]
    exact hP.hostFields w e.operands e.operands e.noiseThr true e.status.overrun h
  | true =>
    rw [Engine.writeCmd_busy w hb]
    exact hP.hostFields e.cmd e.operands e.latched e.noiseThr e.status.busy true h

/-- The step rule: the four kinds of change of `step_engine_cases` cover every step. -/
theorem KeptByStep.step {P : InstanceId → Engine → Prop} (hP : KeptByStep P) {s t : State}
    (h : ∀ k, P k (s.engine k)) (hst : step s = .next t) (k : InstanceId) : P k (t.engine k) := by
  rcases step_engine_cases hst k with he | ⟨_, he⟩ | ⟨_, _, he⟩ | ⟨w, addr, rest, _, hw⟩
  · rw [he]; exact h k
  · rw [he]; exact hP.toReset (h k)
  · rw [he]; exact hP.completed (h k)
  · rcases hw with he | ⟨r, he⟩ | he | ⟨off, ho, h4, _, he⟩
    · rw [he]; exact hP.writeCmd w (h k)
    · rw [he]; exact hP.hostFields _ _ _ _ _ _ (h k)
    · rw [he]; exact hP.hostFields _ _ _ _ _ _ (h k)
    · rw [he]; exact hP.writeRaw w ho h4 (h k)

/-! ### The invariants of R39 -/

theorem State.inv_iff (s : State) : s.Inv ↔ ∀ k, (s.engine k).Inv k := by
  constructor
  · rintro ⟨hl, hf⟩ k
    cases k
    · exact hl
    · exact hf
  · exact fun h => ⟨h .live, h .file⟩

theorem Engine.reqMinOp_bounds (e : Engine) : -2 ^ 30 ≤ e.reqMinOp ∧ e.reqMinOp < 2 ^ 30 :=
  ⟨e.latched.reqMin.le_toInt, e.latched.reqMin.toInt_lt⟩

theorem Engine.reqMaxOp_bounds (e : Engine) : -2 ^ 30 ≤ e.reqMaxOp ∧ e.reqMaxOp < 2 ^ 30 :=
  ⟨e.latched.reqMax.le_toInt, e.latched.reqMax.toInt_lt⟩

theorem clampDelta_eq : clampDelta = 409600 := rfl

/-- SETBAND keeps the invariants when its clamp makes an ordered band that fits the registers. -/
theorem Engine.setBand_inv {k : InstanceId} {e : Engine} (h : e.Inv k)
    (clamp : Int → Int → Int × Int)
    (hlt : ∀ a b, (clamp a b).1 < (clamp a b).2)
    (hlo : -2 ^ 31 ≤ (clamp e.reqMinOp e.reqMaxOp).1)
    (hhi : (clamp e.reqMinOp e.reqMaxOp).2 < 2 ^ 31) : (e.setBand clamp).engine.Inv k := by
  have ha := e.reqMinOp_bounds
  have hb := e.reqMaxOp_bounds
  by_cases hab : e.reqMinOp < e.reqMaxOp
  · rw [e.setBand_done clamp hab]
    exact Engine.withBand_inv h _ _ hab (by omega) (by omega)
  · rw [e.setBand_raised clamp (by omega)]
    exact Engine.withBand_inv h _ _ (hlt _ _) hlo hhi

theorem Engine.toReset_inv (k : InstanceId) (e : Engine) (c : Word) :
    Engine.Inv k { e.toReset with cmd := c } := Engine.resetIn_inv k _ c

/-- Every command keeps the invariants. -/
theorem Engine.after_inv {k : InstanceId} {e : Engine} (h : e.Inv k) (i : Instr) :
    (e.after k i).Inv k := by
  have ha := e.reqMinOp_bounds
  have hb := e.reqMaxOp_bounds
  cases i with
  | decode => exact StageEnd.complete_inv (Engine.decodeStage_inv h)
  | transform => exact StageEnd.complete_inv (Engine.transformStage_inv h)
  | select => exact StageEnd.complete_inv (Engine.selectStage_inv h)
  | emit => exact (Engine.emitStage_inv h).done _
  | noteE => exact StageEnd.complete_inv (Engine.noteStage_inv h)
  | noteF => exact StageEnd.complete_inv (Engine.noteFor_inv h _)
  | synthE => exact StageEnd.complete_inv (Engine.synthesize_inv h _)
  | synthF => exact StageEnd.complete_inv (Engine.synthesize_inv h _)
  | setbandMin =>
    refine StageEnd.complete_inv (Engine.setBand_inv h _ (fun a b => ?_) ?_ ?_) <;>
      simp only [clampDelta_eq] <;> omega
  | setbandMax =>
    refine StageEnd.complete_inv (Engine.setBand_inv h _ (fun a b => ?_) ?_ ?_) <;>
      simp only [clampDelta_eq] <;> omega
  | tick => exact Engine.tickPass_inv h
  | init => exact (Engine.toReset_inv k e _).done _

/-- Every completion, of a legal or an illegal word, keeps the invariants. -/
theorem Engine.completed_inv {k : InstanceId} {e : Engine} (h : e.Inv k) :
    (e.completed k).Inv k := by
  unfold Engine.completed
  split
  · exact Engine.after_inv h _
  · exact h.raise _ _ _

/-- A word written to `RAW` leaves every listed byte outside `RAW`. -/
theorem Engine.get?_writeRaw_outside (e : Engine) {off a : Nat} (w : Word)
    (ho : Space.raw.holds off = true) (h4 : off % 4 = 0) (ha : Space.raw.holds a = false) :
    (e.writeRaw off w).mem.get? a = e.mem.get? a := by
  have hin := (Space.holds_iff _ _).mp ho
  have hout : ¬ (Space.raw.base ≤ a ∧ a < Space.raw.limit) := by rw [← Space.holds_iff, ha]; simp
  have hlen : (bytesOfWord w).length = 4 := rfl
  simp only [Space.limit, Space.base, Space.elemBytes_eq, Space.count_eq] at hin hout
  rw [Engine.writeRaw_mem, Memory.get?_store, hlen]
  by_cases hlt : a < off
  · rw [if_pos hlt]
  · rw [if_neg hlt, if_neg (by omega)]

/-- A word written to `RAW` leaves the elements of the other spaces. -/
theorem Engine.writeRaw_elem (k : InstanceId) (e : Engine) {off : Nat} (w : Word)
    (ho : Space.raw.holds off = true) (h4 : off % 4 = 0) {sp : Space} {i : Nat} (hi : i < sp.count)
    (hne : sp ≠ .raw) : (e.writeRaw off w).elem k sp i = e.elem k sp i := by
  refine Engine.elem_keep k hi fun a ha => Engine.byteAt_congr k a ?_ rfl
  exact Engine.get?_writeRaw_outside e w ho h4 (Space.holds_other ha hne.symm)

theorem Engine.writeRaw_inv {k : InstanceId} {e : Engine} {off : Nat} (w : Word)
    (ho : Space.raw.holds off = true) (h4 : off % 4 = 0) (h : e.Inv k) :
    (e.writeRaw off w).Inv k :=
  h.congr rfl rfl rfl rfl rfl h.frame_capacity rfl h.note_index_legal
    (Engine.writeRaw_placed h.placed w ho h4)
    (fun sp hsp _ hi => Engine.writeRaw_elem k e w ho h4 hi (by rintro rfl; simp at hsp))

theorem inv_keptByStep : KeptByStep (fun k e => e.Inv k) where
  toReset _ := Engine.toReset_inv _ _ 0
  completed := Engine.completed_inv
  hostFields _ _ _ _ _ _ h := h.report _ _ _ _ _ _ _ _ _
  writeRaw w ho h4 h := Engine.writeRaw_inv w ho h4 h

/-- Settles O52: each kind of change a step can make to an engine keeps (I1) to (I8). -/
theorem stepKeepsTheInvariants : Obligations.StepKeepsTheInvariants := by
  unfold Obligations.StepKeepsTheInvariants
  intro s t h hst
  rw [State.inv_iff] at h ⊢
  exact inv_keptByStep.step h hst

/-- Settles O53. -/
theorem resetStateHasTheInvariants : Obligations.ResetStateHasTheInvariants :=
  ⟨Engine.resetIn_inv .live _ 0, Engine.resetIn_inv .file _ 0⟩

/-- A run keeps what every step keeps. -/
theorem runSteps_keeps {P : State → Prop} (hP : ∀ s t, P s → step s = .next t → P t) (n : Nat)
    {s t : State} (h : P s) (hr : runSteps n s = .next t) : P t := by
  induction n generalizing s with
  | zero => cases hr; exact h
  | succ n ih =>
    cases hs : step s with
    | next u => rw [runSteps_next hs] at hr; exact ih (hP s u h hs) hr
    | fault r => rw [runSteps, hs] at hr; cases hr
    | refused r => rw [runSteps, hs] at hr; cases hr

/-- Settles O54, by induction on the number of steps: O53 is its start, O52 its step. -/
theorem reachableStatesHaveTheInvariants : Obligations.ReachableStatesHaveTheInvariants := by
  unfold Obligations.ReachableStatesHaveTheInvariants
  intro evs n t hr
  have hstart : State.Inv { State.reset with schedule := evs } := resetStateHasTheInvariants
  exact runSteps_keeps stepKeepsTheInvariants n hstart hr

/-! ### The tails of the data spaces -/

/-- Elements a space holds that have a value: its length register, all of `RAW`. -/
def Engine.validLen (e : Engine) : Space → Nat
  | .raw => Space.raw.count
  | .frm => e.frmLen.toNat
  | .bin => e.specLen.toNat
  | .mag => e.specLen.toNat
  | .cb => e.cbLen.toNat
  | .tone => e.toneLen.toNat

/-- No byte of element `n` of a space or of a later one is listed. -/
def Memory.ClearFrom (m : Memory) (sp : Space) (n : Nat) : Prop :=
  ∀ off, sp.base + sp.elemBytes * n ≤ off → off < sp.limit → m.get? off = none

theorem Memory.clearFrom_raw (m : Memory) : m.ClearFrom .raw Space.raw.count :=
  fun _ hlo hhi => absurd hlo (Nat.not_le_of_lt hhi)

/-- The five clauses of `TailsUnspecified` are one clause over the spaces. -/
theorem Engine.tailsUnspecified_iff (e : Engine) :
    e.TailsUnspecified ↔ ∀ sp, e.mem.ClearFrom sp (e.validLen sp) := by
  constructor
  · intro h sp
    cases sp with
    | raw => exact Memory.clearFrom_raw _
    | frm => exact h.frm
    | bin => exact h.bin
    | mag => exact h.mag
    | cb => exact h.cb
    | tone => exact h.tone
  · exact fun h => ⟨h .frm, h .bin, h .mag, h .cb, h .tone⟩

/-- A write outside a space leaves its tail. -/
theorem Memory.ClearFrom.congr {m m' : Memory} {sp : Space} {n : Nat} (h : m.ClearFrom sp n)
    (he : ∀ off, sp.holds off = true → m'.get? off = m.get? off) : m'.ClearFrom sp n := by
  intro off hlo hhi
  rw [he off ((Space.holds_iff sp off).mpr ⟨by omega, hhi⟩)]
  exact h off hlo hhi

theorem Memory.ClearFrom.of_eq {m : Memory} {sp : Space} {n n' : Nat} (h : m.ClearFrom sp n)
    (hn : n' = n) : m.ClearFrom sp n' := hn ▸ h

theorem Engine.fill_clearFrom (e : Engine) (sp : Space) (vals : List Int) :
    (e.fill sp vals).mem.ClearFrom sp vals.length :=
  fun off => Engine.get?_fill_beyond e sp vals off

theorem Engine.fill_clearFrom_other {e : Engine} {sp sp' : Space} {vals : List Int} {n : Nat}
    (hne : sp' ≠ sp) (hlen : vals.length ≤ sp.count) (h : e.mem.ClearFrom sp' n) :
    (e.fill sp vals).mem.ClearFrom sp' n :=
  h.congr fun off ho =>
    Engine.get?_fill_outside e sp vals off hlen (Space.holds_other ho hne.symm)

theorem Engine.writeFrom_clearFrom {e : Engine} {sp : Space} {i : Nat} (vals : List Int)
    (h : e.mem.ClearFrom sp i) : (e.writeFrom sp i vals).mem.ClearFrom sp (i + vals.length) := by
  intro off hlo hhi
  rw [Nat.mul_add] at hlo
  rw [Engine.writeFrom_mem, Memory.get?_store, Space.bytesOf_length, if_neg (by omega),
    if_neg (by omega)]
  exact h off (by omega) hhi

theorem Engine.writeFrom_clearFrom_other {e : Engine} {sp sp' : Space} {i n : Nat} {vals : List Int}
    (hne : sp' ≠ sp) (hlen : i + vals.length ≤ sp.count) (h : e.mem.ClearFrom sp' n) :
    (e.writeFrom sp i vals).mem.ClearFrom sp' n := by
  refine h.congr fun off ho => ?_
  have hout := Space.holds_other ho hne.symm
  have hin : ¬ (sp.base ≤ off ∧ off < sp.limit) := by rw [← Space.holds_iff, hout]; simp
  have hle := Nat.mul_le_mul_left sp.elemBytes hlen
  rw [Nat.mul_add] at hle
  unfold Space.limit at hin
  rw [Engine.writeFrom_mem, Memory.get?_store, Space.bytesOf_length]
  by_cases hlt : off < sp.base + sp.elemBytes * i
  · rw [if_pos hlt]
  · rw [if_neg hlt, if_neg (by omega)]

/-- The tails are read from the memory and the length registers alone. -/
theorem Engine.TailsUnspecified.congr {e e' : Engine} (h : e.TailsUnspecified)
    (hm : e'.mem = e.mem) (hfrm : e'.frmLen = e.frmLen) (hspec : e'.specLen = e.specLen)
    (hcb : e'.cbLen = e.cbLen) (htone : e'.toneLen = e.toneLen) : e'.TailsUnspecified where
  frm := by rw [hm, hfrm]; exact h.frm
  bin := by rw [hm, hspec]; exact h.bin
  mag := by rw [hm, hspec]; exact h.mag
  cb := by rw [hm, hcb]; exact h.cb
  tone := by rw [hm, htone]; exact h.tone

/-- After a space was filled, with its length register set to the number of elements written. -/
theorem Engine.TailsUnspecified.fill {e e' : Engine} (h : e.TailsUnspecified) (sp : Space)
    (vals : List Int) (hlen : vals.length ≤ sp.count) (hm : e'.mem = (e.fill sp vals).mem)
    (hsame : e'.validLen sp = vals.length)
    (hother : ∀ sp', sp' ≠ sp → e'.validLen sp' = e.validLen sp') : e'.TailsUnspecified := by
  rw [Engine.tailsUnspecified_iff] at h ⊢
  intro sp'
  rw [hm]
  by_cases hs : sp' = sp
  · subst hs
    rw [hsame]
    exact Engine.fill_clearFrom e sp' vals
  · rw [hother sp' hs]
    exact Engine.fill_clearFrom_other hs hlen (h sp')

theorem Engine.TailsUnspecified.done {e : Engine} (h : e.TailsUnspecified) (em : Bool) :
    (e.done em).TailsUnspecified := h.congr rfl rfl rfl rfl rfl

theorem Engine.TailsUnspecified.raise {e : Engine} (h : e.TailsUnspecified) (kind : ErrorKind)
    (j : BitVec 3) (em : Bool) : (e.raise kind j em).TailsUnspecified :=
  h.congr rfl rfl rfl rfl rfl

theorem StageEnd.complete_tails {x : StageEnd} (h : x.engine.TailsUnspecified) :
    x.complete.TailsUnspecified := by
  cases x
  · exact Engine.TailsUnspecified.done h _
  · exact Engine.TailsUnspecified.raise h _ _ _

theorem Engine.decodeStage_tails {k : InstanceId} {e : Engine} (h : e.TailsUnspecified) :
    (e.decodeStage k).engine.TailsUnspecified := by
  cases hd : decodable e.rawLenOp e.widthOp e.channelsOp e.frameLenOp with
  | false => rw [e.decodeStage_raised k hd]; exact h
  | true =>
    rw [e.decodeStage_done k hd]
    refine h.fill .frm ((List.range (e.rawLenOp / (e.widthOp * e.channelsOp))).map
      (e.rawSample k e.widthOp e.channelsOp)) (by simpa using decodable_count hd) rfl ?_ ?_
    · exact (decodable_length hd).trans (by simp)
    · intro sp hsp
      cases sp <;> first | rfl | contradiction

theorem Engine.transformStage_tails {k : InstanceId} {e : Engine} (h : e.TailsUnspecified) :
    (e.transformStage k).engine.TailsUnspecified := by
  by_cases h0 : e.frmLen.toNat = 0
  · rw [e.transformStage_empty k h0]; exact h
  cases hs : supportedLength e.frmLen.toNat with
  | false => rw [e.transformStage_unsupported k h0 hs]; exact h
  | true =>
    rw [e.transformStage_done k hs]
    have hl : (BitVec.ofNat 10 (e.frmLen.toNat / 2 + 1)).toNat = e.frmLen.toNat / 2 + 1 :=
      supportedLength_spectrum hs
    have hb : e.newBins.length ≤ Space.bin.count := by
      simpa [Space.count_eq] using supportedLength_count hs
    have hm : (e.newMags k).length ≤ Space.mag.count := by
      simpa [Space.count_eq] using supportedLength_count hs
    rw [Engine.tailsUnspecified_iff] at h ⊢
    intro sp
    by_cases hmag : sp = .mag
    · subst hmag
      exact (Engine.fill_clearFrom (e.fill .bin e.newBins) .mag (e.newMags k)).of_eq
        (hl.trans (e.newMags_length k).symm)
    by_cases hbin : sp = .bin
    · subst hbin
      exact (Engine.fill_clearFrom_other hmag hm (Engine.fill_clearFrom e .bin e.newBins)).of_eq
        (hl.trans e.newBins_length.symm)
    · have hkeep := Engine.fill_clearFrom_other hmag hm
        (Engine.fill_clearFrom_other hbin hb (h sp))
      cases sp <;> first | exact hkeep | contradiction

theorem Engine.selectStage_tails {k : InstanceId} {e : Engine} (h : e.TailsUnspecified) :
    (e.selectStage k).engine.TailsUnspecified := by
  by_cases hc : e.cbLen.toNat + (e.newCandidates k).length ≤ 1024
  · rw [e.selectStage_done k hc]
    have hl : (BitVec.ofNat 11 (e.cbLen.toNat + (e.newCandidates k).length)).toNat =
        e.cbLen.toNat + (e.newCandidates k).length := by
      rw [BitVec.toNat_ofNat, Nat.mod_eq_of_lt (by omega)]
    rw [Engine.tailsUnspecified_iff] at h ⊢
    intro sp
    by_cases hcb : sp = .cb
    · subst hcb
      exact (Engine.writeFrom_clearFrom (e.newCandidates k) (h .cb)).of_eq hl
    · have hkeep := Engine.writeFrom_clearFrom_other (sp := .cb) hcb hc (h sp)
      cases sp <;> first | exact hkeep | contradiction
  · rw [e.selectStage_raised k (by omega)]; exact h

theorem Engine.emitStage_tails {k : InstanceId} {e : Engine} (h : e.TailsUnspecified) :
    (e.emitStage k).TailsUnspecified := by
  cases he : e.emits with
  | false => rw [e.emitStage_keep k he]; exact h
  | true =>
    rw [e.emitStage_emit k he]
    refine h.fill .cb [] (by simp) rfl rfl fun sp hsp => ?_
    cases sp <;> first | rfl | contradiction

theorem Engine.noteFor_tails {e : Engine} (h : e.TailsUnspecified) (f : Int) :
    (e.noteFor f).engine.TailsUnspecified := by
  obtain ⟨_, _, hf⟩ := e.noteFor_frame f
  rw [hf]
  exact h.congr rfl rfl rfl rfl rfl

theorem Engine.noteStage_tails {e : Engine} (h : e.TailsUnspecified) :
    e.noteStage.engine.TailsUnspecified := by
  obtain ⟨_, _, hf⟩ := e.noteStage_frame
  rw [hf]
  exact h.congr rfl rfl rfl rfl rfl

theorem Engine.setBand_tails {e : Engine} (h : e.TailsUnspecified)
    (clamp : Int → Int → Int × Int) : (e.setBand clamp).engine.TailsUnspecified := by
  obtain ⟨_, _, hf⟩ := e.setBand_frame clamp
  rw [hf]
  exact h.congr rfl rfl rfl rfl rfl

theorem Engine.synthesize_tails {e : Engine} (h : e.TailsUnspecified) (f : Option Int) :
    (e.synthesize f).engine.TailsUnspecified := by
  cases f with
  | none => exact h
  | some f =>
    by_cases hr : e.synthRateOp = 0
    · rw [e.synthesize_noRate f hr]; exact h
    · have hcnt : e.synthCountOp < 65536 := e.latched.synthCount.isLt
      rw [e.synthesize_done f hr]
      refine h.fill .tone ((List.range e.synthCountOp).map
        (toneValue (tuningWord f e.synthRateOp))) ?_ rfl ?_ fun sp hsp => ?_
      · simp only [List.length_map, List.length_range, Space.count_eq]
        omega
      · show (BitVec.ofNat 16 e.synthCountOp).toNat = _
        rw [BitVec.toNat_ofNat, Nat.mod_eq_of_lt hcnt]
        simp
      · cases sp <;> first | rfl | contradiction

theorem Engine.tickPass_tails {k : InstanceId} {e : Engine} (h : e.TailsUnspecified) :
    (e.tickPass k).TailsUnspecified := by
  have h1 := Engine.decodeStage_tails (k := k) h
  rcases e.tickPass_cases k with ⟨kind, e1, q, ht⟩ | ⟨e1, q, ht⟩ <;> rw [q] at h1
  · rw [ht]; exact h1.raise _ _ _
  have h2 := Engine.transformStage_tails (k := k) h1
  rcases ht with ⟨kind, e2, q, ht⟩ | ⟨e2, q, ht⟩ <;> rw [StageEnd.engine_done, q] at h2
  · rw [ht]; exact h2.raise _ _ _
  have h3 := Engine.selectStage_tails (k := k) h2
  rcases ht with ⟨kind, e3, q, ht⟩ | ⟨e3, q, ht⟩ <;> rw [StageEnd.engine_done, q] at h3
  · rw [ht]; exact h3.raise _ _ _
  have h5 := Engine.noteStage_tails (Engine.emitStage_tails (k := k) h3)
  rcases ht with ⟨kind, e5, q, ht⟩ | ⟨e5, q, ht⟩ <;> rw [StageEnd.engine_done, q] at h5
  · rw [ht]; exact h5.raise _ _ _
  · rw [ht]; exact h5.done _

/-- An engine that lists nothing has no known value anywhere. -/
theorem Engine.tailsUnspecified_of_empty {e : Engine} (h : e.mem = []) : e.TailsUnspecified := by
  rw [Engine.tailsUnspecified_iff, h]
  exact fun _ _ _ _ => rfl

theorem Engine.after_tails {k : InstanceId} {e : Engine} (h : e.TailsUnspecified) (i : Instr) :
    (e.after k i).TailsUnspecified := by
  cases i with
  | decode => exact StageEnd.complete_tails (Engine.decodeStage_tails h)
  | transform => exact StageEnd.complete_tails (Engine.transformStage_tails h)
  | select => exact StageEnd.complete_tails (Engine.selectStage_tails h)
  | emit => exact (Engine.emitStage_tails h).done _
  | noteE => exact StageEnd.complete_tails (Engine.noteStage_tails h)
  | noteF => exact StageEnd.complete_tails (Engine.noteFor_tails h _)
  | synthE => exact StageEnd.complete_tails (Engine.synthesize_tails h _)
  | synthF => exact StageEnd.complete_tails (Engine.synthesize_tails h _)
  | setbandMin => exact StageEnd.complete_tails (Engine.setBand_tails h _)
  | setbandMax => exact StageEnd.complete_tails (Engine.setBand_tails h _)
  | tick => exact Engine.tickPass_tails h
  | init => exact Engine.tailsUnspecified_of_empty rfl

theorem Engine.completed_tails {k : InstanceId} {e : Engine} (h : e.TailsUnspecified) :
    (e.completed k).TailsUnspecified := by
  unfold Engine.completed
  split
  · exact Engine.after_tails h _
  · exact h.raise _ _ _

theorem Engine.writeRaw_tails {e : Engine} {off : Nat} (w : Word)
    (ho : Space.raw.holds off = true) (h4 : off % 4 = 0) (h : e.TailsUnspecified) :
    (e.writeRaw off w).TailsUnspecified := by
  rw [Engine.tailsUnspecified_iff] at h ⊢
  intro sp
  by_cases hraw : sp = .raw
  · subst hraw
    exact Memory.clearFrom_raw _
  · rw [show (e.writeRaw off w).validLen sp = e.validLen sp by cases sp <;> rfl]
    exact (h sp).congr fun a ha =>
      Engine.get?_writeRaw_outside e w ho h4 (Space.holds_other ha (Ne.symm hraw))

theorem tails_keptByStep : KeptByStep (fun _ e => e.TailsUnspecified) where
  toReset _ := Engine.tailsUnspecified_of_empty rfl
  completed := Engine.completed_tails
  hostFields _ _ _ _ _ _ h := h.congr rfl rfl rfl rfl rfl
  writeRaw w ho h4 h := Engine.writeRaw_tails w ho h4 h

/-- Settles O55: each kind of change a step can make to an engine keeps its tails unknown. -/
theorem stepKeepsTheTailsUnspecified : Obligations.StepKeepsTheTailsUnspecified := by
  unfold Obligations.StepKeepsTheTailsUnspecified
  exact fun _ _ h hst => tails_keptByStep.step h hst

/-! ### Reset and acceptance -/

/-- Settles O9. -/
theorem resetStateHasTheTabledValues : Obligations.ResetStateHasTheTabledValues := by
  unfold Obligations.ResetStateHasTheTabledValues
  intro k ep la
  have hreset : State.reset.engine k =
      { Engine.resetIn Epochs.first with latched := Operands.zero } := by cases k <;> rfl
  have hword : Status.reset.word = 0 := by decide
  exact ⟨⟨_, _, hreset⟩, rfl, rfl, hword, rfl, rfl, rfl, rfl, rfl, rfl, rfl, rfl, rfl, rfl, rfl,
    rfl⟩

/-- The step at which the host writes `CMD`. -/
theorem step_writeCmd {s : State} {k : InstanceId} {rest : List Event} {w : Word}
    (hs : s.schedule = .write 32 (k.address 0) w :: rest) :
    step s = .next ({ s with schedule := rest }.setEngine k ((s.engine k).writeCmd w)) := by
  rw [step_write hs, hostWrite_cmd]
  cases k <;> rfl

/-- The step at which the host writes an operand register while no INIT is in flight. -/
theorem step_writeOperand {s : State} {k : InstanceId} {rest : List Event} {r : OperandReg}
    {w : Word} (hs : s.schedule = .write 32 (k.address (Reg.operand r).offset) w :: rest)
    (hf : (s.engine k).inFlight ≠ some .init) :
    step s = .next ({ s with schedule := rest }.setEngine k
      { s.engine k with operands := (s.engine k).operands.write r w }) := by
  rw [step_write hs, hostWrite_operand _ k r w (by rwa [State.engine_schedule])]
  cases k <;> rfl

/-- The step at which the host reads a register of an idle engine. -/
theorem step_readRegister {s : State} {k : InstanceId} {rest : List Event} (r : Reg)
    (hs : s.schedule = .read 32 (k.address r.offset) :: rest)
    (hb : (s.engine k).status.busy = false) :
    step s = .next { s with schedule := rest, readData := (s.engine k).readReg r } := by
  rw [step_read hs, hostRead_register _ k r (by rwa [State.engine_schedule])]
  cases k <;> rfl

/-- Settles O5: a `CMD` write by whether the engine is busy, a completion, and a `CMD` read. -/
theorem cmdWriteIsAcceptedOrDropped : Obligations.CmdWriteIsAcceptedOrDropped := by
  unfold Obligations.CmdWriteIsAcceptedOrDropped
  refine ⟨fun s k rest w hs => ⟨fun hb => ?idle, fun hb => ?busy⟩, fun s k rest hs hb => ?complete,
    fun s k rest hs hb => step_readRegister .cmd hs hb⟩
  case idle =>
    rw [step_writeCmd hs, Engine.writeCmd_idle w hb]
    rfl
  case busy =>
    rw [step_writeCmd hs, Engine.writeCmd_busy w hb]
    rfl
  case complete =>
    rw [step_complete hs, if_pos hb]
    refine ⟨_, rfl, ?_, State.setEngine_schedule _ _ _⟩
    rw [State.engine_setEngine_same, Engine.completed_busy]

/-- INIT overwrites the operand registers, so it reads none of them. -/
theorem Engine.after_init_operands (k : InstanceId) (e : Engine) (o : Operands) :
    ({ e with operands := o } : Engine).after k .init = e.after k .init := rfl

/-- Settles O6: the effects of a command are `Engine.after`, which reads the latches. -/
theorem commandsReadOnlyLatchedOperands : Obligations.CommandsReadOnlyLatchedOperands := by
  unfold Obligations.CommandsReadOnlyLatchedOperands
  refine ⟨fun s k rest w hs hb => ?acceptance, fun i s o => ?command,
    fun s k rest r w hs hf => step_writeOperand hs hf⟩
  case acceptance =>
    rw [step_writeCmd hs, Engine.writeCmd_idle w hb]
    exact ⟨_, rfl, by rw [State.engine_setEngine_same]; rfl⟩
  case command =>
    refine ⟨_, exec_eq i s, ?_⟩
    rw [exec_eq, State.setEngine_active, State.engine_setEngine_same, State.setEngine_setEngine]
    by_cases hi : i = .init
    · subst hi
      rw [if_pos rfl, Engine.after_init_operands]
    · rw [if_neg hi, Engine.after_operands _ _ _ i hi]

/-- Settles O49: what a command does is a function of the active engine. -/
theorem commandsAreIsolated : Obligations.CommandsAreIsolated := by
  unfold Obligations.CommandsAreIsolated
  intro i s s' hactive hengine
  refine ⟨_, exec_eq i s, ?_, State.engine_setEngine_other _ _ _⟩
  rw [exec_eq, ← hactive, ← hengine]

/-- A byte that a command other than INIT changes lies in a space the command writes. -/
theorem Engine.after_byteAt_changed {k : InstanceId} {e : Engine} {i : Instr} {off : Nat}
    (hi : i ≠ .init) (h : (e.after k i).byteAt k off ≠ e.byteAt k off) :
    ∃ sp ∈ writtenBy i, spaceAt off = some sp := by
  by_contra hnone
  refine h (Engine.after_byteAt k e i off hi fun sp hsp => ?_)
  cases hb : sp.holds off with
  | false => rfl
  | true => exact absurd ⟨sp, hsp, (spaceAt_eq_some sp off).mpr hb⟩ hnone

/-- Settles O47: `writtenBy` lists the writers of each space. -/
theorem dataSpacesHaveTheirWriters : Obligations.DataSpacesHaveTheirWriters := by
  unfold Obligations.DataSpacesHaveTheirWriters
  intro i s T off hexec hchanged
  rw [exec_engine hexec] at hchanged
  by_cases hi : i = .init
  · subst hi
    rcases spaceAt off with _ | sp
    · rfl
    · cases sp <;> simp
  obtain ⟨sp, hsp, hoff⟩ := Engine.after_byteAt_changed hi hchanged
  rw [hoff]
  revert hsp
  clear * -
  cases sp <;> cases i <;> decide

/-! ### The register map -/

/-- Settles O13: one read rule for every register. -/
theorem registerMapReads : Obligations.RegisterMapReads := by
  unfold Obligations.RegisterMapReads
  intro s k hb
  have reads := fun r => hostRead_register s k r hb
  exact ⟨reads .cmd, reads .status, reads (.operand .rawLen), reads (.operand .fmt),
    reads (.operand .frameLen), reads (.operand .rate), reads (.operand .reqMin),
    reads (.operand .reqMax), reads (.operand .freqArg), reads (.operand .synthCount),
    reads (.operand .synthRate), reads .noiseThr, reads .minFreq, reads .maxFreq, reads .fe,
    reads .noteRes, reads .frmLen, reads .specLen, reads .cbLen, reads .toneLen⟩

/-- The bits of the `STATUS` word in the order of R25. -/
theorem Status.word_getLsbD (st : Status) {i : Nat} (hi : i < 32) : st.word.getLsbD i =
    if i = 0 then st.busy else if i = 1 then st.overrun else if i < 4 then false
    else if i < 8 then st.err.getLsbD (i - 4) else if i = 8 then st.feValid
    else if i = 9 then st.emitted else if i = 10 then st.noteValid else if i = 11 then false
    else if i < 15 then st.stage.getLsbD (i - 12) else false := by
  unfold Status.word
  simp only [BitVec.getLsbD_append, BitVec.getLsbD_ofBool, BitVec.ofNat_eq_ofNat,
    BitVec.getLsbD_zero]
  interval_cases i <;> rfl

/-- Settles O14: each field read off the bits of `Status.word_getLsbD`. -/
theorem statusWordHasTheTabledFields : Obligations.StatusWordHasTheTabledFields := by
  unfold Obligations.StatusWordHasTheTabledFields
  intro st
  have bit := fun i (hi : i < 32) => st.word_getLsbD hi
  refine ⟨bit 0 (by decide), bit 1 (by decide), ?_, ?_, bit 8 (by decide), bit 9 (by decide),
    bit 10 (by decide), bit 11 (by decide), ?_, ?_⟩ <;>
  · apply BitVec.eq_of_getLsbD_eq
    intro i hi
    rw [BitVec.getLsbD_extractLsb', bit _ (by omega)]
    interval_cases i <;> simp

/-! ### The operand registers -/

/-- Keeping the low `n` bits of a word is masking it with `n` ones. -/
theorem setWidth_extractLsb'_low {n : Nat} (w m : Word)
    (hm : ∀ i < 32, m.getLsbD i = decide (i < n)) :
    (w.extractLsb' 0 n).setWidth 32 = w &&& m := by
  apply BitVec.eq_of_getLsbD_eq
  intro i hi
  rw [BitVec.getLsbD_and, hm i hi, BitVec.getLsbD_setWidth, BitVec.getLsbD_extractLsb']
  simp [hi, Bool.and_comm]

/-- Extending a 31-bit field from its top bit sets or clears bit 31. -/
theorem signExtend_extractLsb'_31 (w : Word) : (w.extractLsb' 0 31).signExtend 32 =
    if w.getLsbD 30 then w ||| 0x80000000 else w &&& 0x7FFFFFFF := by
  have hmsb : (w.extractLsb' 0 31).msb = w.getLsbD 30 := by
    simp [BitVec.msb_eq_getLsbD_last]
  cases hw : w.getLsbD 30 with
  | false =>
    rw [BitVec.signExtend_eq_setWidth_of_msb_false (hmsb.trans hw)]
    exact setWidth_extractLsb'_low w _ (by decide)
  | true =>
    have htop : ∀ i < 32, (0x80000000 : Word).getLsbD i = decide (31 ≤ i) := by decide
    apply BitVec.eq_of_getLsbD_eq
    intro i hi
    rw [if_pos rfl, BitVec.getLsbD_or, htop i hi, BitVec.getLsbD_signExtend, hmsb, hw,
      BitVec.getLsbD_extractLsb']
    by_cases h31 : i < 31
    · simp [hi, h31, Nat.not_le_of_lt h31]
    · simp [hi, h31, Nat.le_of_not_lt h31]

/-- The two fields of `FMT` are the low byte of the word written. -/
theorem extractLsb'_nibbles (w : Word) :
    w.extractLsb' 4 4 ++ w.extractLsb' 0 4 = w.extractLsb' 0 8 :=
  BitVec.extractLsb'_append_extractLsb'_eq_extractLsb' rfl

/-- A write to one operand register leaves what the others read as. -/
theorem Operands.read_write_ne (o : Operands) {r r' : OperandReg} (w : Word) (h : r' ≠ r) :
    (o.write r w).read r' = o.read r' := by
  cases r <;> cases r' <;> first | rfl | contradiction

/-- The ranges of R23 for `k * RATE * 4096`: `k` is at most half of `N`, and `RATE` below `2^20`. -/
theorem binProduct_lt {N k r : Nat} (hN : 0 < N) (hk : k ≤ N / 2) (hr : r < 2 ^ 20) :
    k * r * 4096 < 2 ^ 19 * 4096 * N := by
  have h2 : 2 * k ≤ N := by omega
  have hprod : 2 * k * r ≤ N * r := Nat.mul_le_mul_right r h2
  have hlt : N * r < N * 2 ^ 20 := Nat.mul_lt_mul_of_pos_left hr hN
  nlinarith

/-- Settles O11. -/
theorem operandRegistersAreWarl : Obligations.OperandRegistersAreWarl := by
  unfold Obligations.OperandRegistersAreWarl
  refine ⟨fun o w => ?_, fun o r r' w h => o.read_write_ne w h, fun o => ?_⟩
  · refine ⟨setWidth_extractLsb'_low w _ (by decide), ?_, setWidth_extractLsb'_low w _ (by decide),
      setWidth_extractLsb'_low w _ (by decide), signExtend_extractLsb'_31 w,
      signExtend_extractLsb'_31 w, rfl, setWidth_extractLsb'_low w _ (by decide),
      setWidth_extractLsb'_low w _ (by decide)⟩
    show (w.extractLsb' 4 4 ++ w.extractLsb' 0 4).setWidth 32 = _
    rw [extractLsb'_nibbles]
    exact setWidth_extractLsb'_low w _ (by decide)
  · have hmin : -(2 ^ 30) ≤ o.reqMin.toInt ∧ o.reqMin.toInt < 2 ^ 30 :=
      ⟨o.reqMin.le_toInt, o.reqMin.toInt_lt⟩
    have hmax : -(2 ^ 30) ≤ o.reqMax.toInt ∧ o.reqMax.toInt < 2 ^ 30 :=
      ⟨o.reqMax.le_toInt, o.reqMax.toInt_lt⟩
    exact ⟨hmin, hmax, ⟨by omega, by omega⟩, BitVec.toInt_signExtend_of_le (by decide),
      BitVec.toInt_signExtend_of_le (by decide), ⟨o.rate.isLt, o.synthRate.isLt⟩,
      fun N k hN hk => binProduct_lt hN hk o.rate.isLt⟩

end Sys2Proof.Machine
end

section
/-!
PROOFS. The statements of spec/20_memory.md: what the host reads and writes through the flat address
map, and the events an instance depends on.
-/

namespace Sys2Proof.Machine

/-! ### An instance and its own events -/

/-- What an event that concerns an instance does to it depends on that instance alone. -/
theorem step_concerned {s s' u : State} {k : InstanceId} {ev : Event} {rest rest' : List Event}
    (hs : s.schedule = ev :: rest) (hs' : s'.schedule = ev :: rest')
    (he : s.engine k = s'.engine k) (hc : ev.concerns k = true) (h : step s = .next u) :
    ∃ u', step s' = .next u' ∧ u'.engine k = u.engine k := by
  have hrest : ({ s with schedule := rest } : State).engine k =
      ({ s' with schedule := rest' } : State).engine k := by
    simpa only [State.engine_schedule] using he
  cases ev with
  | read width addr => cases hc
  | write width addr w =>
    rw [step_write hs] at h
    rw [step_write hs']
    obtain ⟨T, rfl, hw⟩ := hostWrite_local (by simpa [Event.concerns] using hc) hrest h
    exact ⟨_, hw, by rw [State.engine_setEngine_same, State.engine_setEngine_same]⟩
  | hardReset lost =>
    rw [step_reset hs] at h
    cases h
    exact ⟨_, step_reset hs', by rw [hardwareReset_engine, hardwareReset_engine, hrest]⟩
  | complete j =>
    obtain rfl : j = k := by simpa [Event.concerns] using hc
    rw [step_complete hs] at h
    rw [step_complete hs', ← he]
    cases hb : (s.engine j).status.busy with
    | true =>
      rw [if_pos hb] at h
      cases h
      exact ⟨_, if_pos rfl, by rw [State.engine_setEngine_same, State.engine_setEngine_same]⟩
    | false =>
      rw [if_neg (by simp [hb])] at h
      cases h
      exact ⟨_, if_neg (by simp), hrest.symm⟩

/-- Two runs whose instances `k` start alike end with them alike, when one runs a list of events and
the other only those of them that concern `k`. -/
theorem runSteps_filter {k : InstanceId} {t : State} (evs : List Event) {s s' : State}
    (hs : s.schedule = evs) (hs' : s'.schedule = evs.filter (Event.concerns k))
    (he : s.engine k = s'.engine k) (hr : runSteps evs.length s = .next t) :
    ∃ t', runSteps (evs.filter (Event.concerns k)).length s' = .next t' ∧
      t'.engine k = t.engine k := by
  induction evs generalizing s s' with
  | nil =>
    cases hr
    exact ⟨s', rfl, he.symm⟩
  | cons ev evs ih =>
    cases hst : step s with
    | fault f => rw [List.length_cons, runSteps, hst] at hr; cases hr
    | refused r => rw [List.length_cons, runSteps, hst] at hr; cases hr
    | next u =>
      rw [List.length_cons, runSteps_next hst] at hr
      have hu := step_schedule hs hst
      cases hc : ev.concerns k with
      | false =>
        rw [List.filter_cons_of_neg (by simp [hc])] at hs' ⊢
        exact ih hu hs' ((step_foreign hs hst hc).trans he) hr
      | true =>
        rw [List.filter_cons_of_pos hc] at hs' ⊢
        obtain ⟨u', hst', hu'⟩ := step_concerned hs hs' he hc hst
        rw [List.length_cons, runSteps_next hst']
        exact ih hu (step_schedule hs' hst') hu'.symm hr

/-- Settles O50, by induction on the events: one that concerns the instance takes the same step in
both runs (`step_concerned`), any other leaves the instance (`step_foreign`). -/
theorem instanceDependsOnItsOwnEventsOnly : Obligations.InstanceDependsOnItsOwnEventsOnly := by
  unfold Obligations.InstanceDependsOnItsOwnEventsOnly
  intro s t k evs hr
  exact runSteps_filter evs rfl rfl (by simp only [State.engine_schedule]) hr

/-! ### Accesses without effect -/

/-- The locations at which the host can write nothing: read-only and unused ones (R76, R38). -/
def Location.ignoresWrites : Location → Bool
  | .register _ .cmd | .register _ (.operand _) | .register _ .noiseThr | .data _ .raw _ => false
  | _ => true

/-- A write to such a location changes nothing, whatever is in flight. -/
theorem hostWrite_ignored (s : State) (addr : BitVec 20) (w : Word) (h4 : addr.toNat % 4 = 0)
    (h : (locate addr.toNat).ignoresWrites = true) : hostWrite 32 addr w s = .next s := by
  unfold hostWrite
  rw [(alignedWordAccess_iff 32 addr).mpr ⟨rfl, h4⟩]
  cases hl : locate addr.toNat with
  | register k r =>
    rw [hl] at h
    cases r with
    | cmd => cases h
    | operand o => cases h
    | noiseThr => cases h
    | _ => rfl
  | data k sp off =>
    rw [hl] at h
    cases sp with
    | raw => cases h
    | _ => rfl
  | romData off => rfl
  | nothing => rfl

/-- The unmapped, reserved and unused addresses of R75 and R38. -/
theorem locate_unused {a : Nat} (h : 0x80800 ≤ a ∨ (a < 0x80000 ∧
    ((0x50 ≤ a % 0x40000 ∧ a % 0x40000 < 0x2000) ∨ (0x5804 ≤ a % 0x40000 ∧ a % 0x40000 < 0x6000) ∨
      (0x7008 ≤ a % 0x40000 ∧ a % 0x40000 < 0x8000) ∨
      (0x9000 ≤ a % 0x40000 ∧ a % 0x40000 < 0x20000)))) : locate a = .nothing := by
  refine locate_nothing (h.imp_right fun ⟨hlt, hoff⟩ => ⟨hlt, regAt_eq_none (by omega), ?_⟩)
  intro sp
  apply Space.holds_eq_false
  cases sp <;> simp only [Space.limit, Space.base, Space.elemBytes_eq, Space.count_eq] <;> omega

/-- The addresses of the ROM, of `STATUS`, of the read-only registers and of the spaces only the
engine writes. -/
theorem locate_readOnly {a : Nat} (h : (0x80000 ≤ a ∧ a < 0x80800) ∨ (a < 0x80000 ∧
    (a % 0x40000 = 0x04 ∨ (0x30 ≤ a % 0x40000 ∧ a % 0x40000 < 0x50) ∨
      (0x4000 ≤ a % 0x40000 ∧ a % 0x40000 < 0x9000) ∨ 0x20000 ≤ a % 0x40000))) :
    (locate a).ignoresWrites = true := by
  rcases locate_cases a with ⟨k, r, hl, ha⟩ | ⟨k, sp, off, hl, ha, hh⟩ | ⟨off, hl, _⟩ | hl <;> rw [hl]
  case inl =>
    have hk := k.number_le
    have hr := r.offset_lt
    cases r with
    | cmd => simp only [Reg.offset] at ha; omega
    | operand o => cases o <;> simp only [Reg.offset] at ha <;> omega
    | noiseThr => simp only [Reg.offset] at ha; omega
    | _ => rfl
  case inr.inl =>
    have hk := k.number_le
    rw [Space.holds_iff] at hh
    cases sp with
    | raw =>
      simp only [Space.limit, Space.base, Space.elemBytes_eq, Space.count_eq] at hh
      omega
    | _ => rfl
  all_goals rfl

/-- Settles O12: the first clause is about addresses that select nothing, the second about read-only
ones. -/
theorem unmappedAccessesAreHarmless : Obligations.UnmappedAccessesAreHarmless := by
  unfold Obligations.UnmappedAccessesAreHarmless
  constructor
  · intro s addr h4 h
    have hl := locate_unused h
    exact ⟨hostRead_nothing s addr h4 hl, fun w => hostWrite_ignored s addr w h4 (by rw [hl]; rfl)⟩
  · exact fun s addr w h4 h => hostWrite_ignored s addr w h4 (locate_readOnly h)

/-! ### Reads of the data spaces -/

/-- A slice of bytes of what is read from an offset is what is read from the slice's own offset. -/
theorem Engine.extractLsb'_readNat (k : InstanceId) (e : Engine) (off : Nat) {j n m : Nat}
    (h : j + n ≤ m) :
    (BitVec.ofNat (8 * m) (e.readNat k off m)).extractLsb' (8 * j) (8 * n) =
      BitVec.ofNat (8 * n) (e.readNat k (off + j) n) := by
  obtain ⟨p, rfl⟩ := Nat.exists_eq_add_of_le h
  have pow (i : Nat) : 2 ^ (8 * i) = 256 ^ i := by rw [pow_mul]; norm_num
  have hlo := e.readNat_lt k off j
  apply BitVec.eq_of_toNat_eq
  rw [BitVec.extractLsb'_toNat, BitVec.toNat_ofNat, BitVec.toNat_ofNat, pow, pow,
    Nat.mod_eq_of_lt (e.readNat_lt k off _), Nat.shiftRight_eq_div_pow, pow, Nat.add_assoc,
    e.readNat_add k off j, e.readNat_add k (off + j) n,
    Nat.add_mul_div_left _ _ (Nat.pow_pos (by decide)), Nat.div_eq_of_lt hlo, Nat.zero_add,
    Nat.add_mul_mod_self_left]

/-- A read of one byte. -/
theorem Engine.readNat_one (k : InstanceId) (e : Engine) (off : Nat) :
    BitVec.ofNat 8 (e.readNat k off 1) = e.byteAt k off := by
  simp [Engine.readNat, leNat]

/-- Byte `j` of a word read. -/
theorem Engine.extractLsb'_readNat_byte (k : InstanceId) (e : Engine) (off : Nat) {j : Nat}
    (hj : j < 4) :
    (BitVec.ofNat 32 (e.readNat k off 4)).extractLsb' (8 * j) 8 = e.byteAt k (off + j) := by
  rw [← e.readNat_one k (off + j)]
  exact e.extractLsb'_readNat k off (m := 4) (n := 1) hj

/-- The low half of a word of `TONE` is its even element, the high half its odd one. -/
theorem Engine.extractLsb'_toneSample (k : InstanceId) (e : Engine) (j : Nat) :
    let w := BitVec.ofNat 32 (e.readNat k (Space.tone.base + 4 * j) 4)
    (w.extractLsb' 0 16).toInt = e.toneSample k (2 * j) ∧
      (w.extractLsb' 16 16).toInt = e.toneSample k (2 * j + 1) := by
  have half (h : Nat) (hh : 2 * h + 2 ≤ 4) :=
    e.extractLsb'_readNat k (Space.tone.base + 4 * j) (m := 4) (n := 2) hh
  have offset (h : Nat) : Space.tone.base + 4 * j + 2 * h =
      Space.tone.base + Space.tone.elemBytes * (2 * j + h) := by
    show _ = Space.tone.base + 2 * (2 * j + h)
    omega
  simp only [Engine.toneSample_eq, Engine.elem]
  have low := half 0 (by decide)
  have high := half 1 (by decide)
  rw [offset] at low high
  exact ⟨congrArg BitVec.toInt low, congrArg BitVec.toInt high⟩

/-- A double word is read as its low and its high word. -/
theorem Engine.readNat_eight (k : InstanceId) (e : Engine) (off : Nat) :
    e.readNat k off 8 = (BitVec.ofNat 32 (e.readNat k off 4)).toNat +
      2 ^ 32 * (BitVec.ofNat 32 (e.readNat k (off + 4) 4)).toNat := by
  have word (o : Nat) : (BitVec.ofNat 32 (e.readNat k o 4)).toNat = e.readNat k o 4 := by
    rw [BitVec.toNat_ofNat]
    exact Nat.mod_eq_of_lt (e.readNat_lt k o 4)
  rw [word, word]
  exact e.readNat_add k off 4 4

/-- The bytes of a space's elements lie in it. -/
theorem Space.holds_byte (sp : Space) {a : Nat} (h : a < sp.elemBytes * sp.count) :
    sp.holds (sp.base + a) = true := by
  rw [Space.holds_iff]
  unfold Space.limit
  omega

/-- A read of a word of an idle instance, by its offset in the space. -/
theorem hostRead_word (s : State) (k : InstanceId) (sp : Space) {a : Nat}
    (ha : a < sp.elemBytes * sp.count) (h4 : a % 4 = 0) (hb : (s.engine k).status.busy = false) :
    hostRead 32 (k.address (sp.base + a)) s = .next { s with
      readData := BitVec.ofNat 32 ((s.engine k).readNat k (sp.base + a) 4) } := by
  have hbase : sp.base % 4 = 0 := by cases sp <;> rfl
  exact hostRead_data s k (sp.holds_byte ha) (by omega) hb

/-- Settles O15: each word read by `hostRead_word` or `hostRead_rom` is the element, or its parts are
the elements. -/
theorem hostReadsElementsLittleEndian : Obligations.HostReadsElementsLittleEndian := by
  unfold Obligations.HostReadsElementsLittleEndian
  constructor
  · intro s k hb e
    have reads (sp : Space) {a : Nat} (ha : a < sp.elemBytes * sp.count) (h4 : a % 4 = 0) :=
      hostRead_word s k sp ha h4 hb
    refine ⟨fun a h4 ha => ?raw, fun i hi => ?frm, fun i hi => ?bin, fun i hi => ?cb,
      fun i hi => ?mag, fun j hj => ?tone⟩
    case raw => exact ⟨_, reads .raw ha h4, fun j hj => e.extractLsb'_readNat_byte k _ hj⟩
    case frm => exact ⟨_, reads .frm (show 4 * i < 4096 by omega) (by omega), rfl⟩
    case bin => exact ⟨_, reads .bin (show 4 * i < 2052 by omega) (by omega), rfl⟩
    case cb => exact ⟨_, reads .cb (show 4 * i < 4096 by omega) (by omega), rfl⟩
    case mag =>
      exact ⟨_, _, reads .mag (show 8 * i < 4104 by omega) (by omega),
        Nat.add_assoc .. ▸ reads .mag (show 8 * i + 4 < 4104 by omega) (by omega),
        e.readNat_eight k _⟩
    case tone =>
      exact ⟨_, reads .tone (show 4 * j < 131072 by omega) (by omega), e.extractLsb'_toneSample k j⟩
  · intro s j hj
    have hoff : 4 * j / 2 = 2 * j := by omega
    refine ⟨_, hostRead_rom s (by omega) (by omega), ?_, ?_⟩
    · rw [romWord_low, hoff]
    · rw [romWord_high, hoff]

/-! ### A word written to `RAW` -/

/-- The byte of a word at each offset of the word. -/
theorem bytesOfWord_getElem? (w : Word) {j : Nat} (hj : j < 4) :
    (bytesOfWord w)[j]? = some (w.extractLsb' (8 * j) 8) := by
  interval_cases j <;> rfl

/-- Words with equal bytes are equal. -/
theorem eq_of_bytes_eq {v w : Word}
    (h : ∀ j < 4, v.extractLsb' (8 * j) 8 = w.extractLsb' (8 * j) 8) : v = w := by
  rw [← wordOfBytes_bytesOfWord v, ← wordOfBytes_bytesOfWord w, h 0 (by decide), h 1 (by decide),
    h 2 (by decide), h 3 (by decide)]

/-- The bytes of the word written. -/
theorem Engine.writeRaw_byteAt (k : InstanceId) (e : Engine) (off : Nat) (w : Word) {j : Nat}
    (hj : j < 4) : (e.writeRaw off w).byteAt k (off + j) = w.extractLsb' (8 * j) 8 := by
  have hlen : (bytesOfWord w).length = 4 := rfl
  rw [Engine.byteAt, Engine.writeRaw_mem, Memory.get?_store, hlen, if_neg (by omega),
    if_pos (by omega), Nat.add_sub_cancel_left, bytesOfWord_getElem? w hj, Option.getD_some]

/-- The bytes around the word written. -/
theorem Engine.writeRaw_byteAt_outside (k : InstanceId) (e : Engine) {off a : Nat} (w : Word)
    (h : ¬ (off ≤ a ∧ a < off + 4)) : (e.writeRaw off w).byteAt k a = e.byteAt k a := by
  refine Engine.byteAt_congr k a ?_ rfl
  have hlen : (bytesOfWord w).length = 4 := rfl
  rw [Engine.writeRaw_mem, Memory.get?_store, hlen]
  by_cases hlt : a < off
  · rw [if_pos hlt]
  · rw [if_neg hlt, if_neg (by omega)]

/-- The word written reads back, whatever was there before. -/
theorem Engine.readNat_writeRaw (k : InstanceId) (e : Engine) (off : Nat) (w : Word) :
    BitVec.ofNat 32 ((e.writeRaw off w).readNat k off 4) = w := by
  apply eq_of_bytes_eq
  intro j hj
  rw [Engine.extractLsb'_readNat_byte _ _ _ hj, Engine.writeRaw_byteAt _ _ _ _ hj]

/-- Settles O16: the engine after the write is `Engine.writeRaw`. -/
theorem rawWordWriteReadsBack : Obligations.RawWordWriteReadsBack := by
  unfold Obligations.RawWordWriteReadsBack
  intro s k a w h4 ha hdecode htick
  refine ⟨(s.engine k).writeRaw (0x2000 + a) w, ?_, rfl,
    fun j hj => Engine.writeRaw_byteAt k _ _ w hj,
    fun off hoff => Engine.writeRaw_byteAt_outside k _ w hoff, fun hb => ?_⟩
  · exact hostWrite_raw s k w (Space.holds_byte .raw ha) (by omega) (by tauto)
  · have hread := hostRead_word (s.setEngine k ((s.engine k).writeRaw (0x2000 + a) w)) k .raw ha h4
      (by rw [State.engine_setEngine_same]; exact hb)
    rw [State.engine_setEngine_same] at hread
    exact hread.trans (by rw [show Space.raw.base = 0x2000 from rfl, Engine.readNat_writeRaw])

end Sys2Proof.Machine
end

section
/-!
PROOFS. The statements of spec/30_encoding.md: the words of the opcode map, the illegal words and
their completion, and the step that runs an accepted command.
-/

namespace Sys2Proof.Machine

/-! ### The words of the opcode map -/

/-- The last column of the opcode map of spec/30_encoding.md R102. -/
def tableWord : Instr → Word
  | .decode => 0x00000001
  | .transform => 0x00000002
  | .select => 0x00000003
  | .emit => 0x00000004
  | .noteE => 0x00000005
  | .noteF => 0x00000105
  | .synthE => 0x00000006
  | .synthF => 0x00000106
  | .setbandMin => 0x00000007
  | .setbandMax => 0x00000107
  | .tick => 0x00000008
  | .init => 0x00000009

/-- The fields of R101, put together, are the word the table lists. -/
theorem encode_eq_tableWord (i : Instr) : encode i = tableWord i := by
  cases i <;> rfl

theorem decodeWord_eq_ok_iff_tableWord (w : Word) (i : Instr) :
    decodeWord w = .ok i ↔ w = tableWord i := by
  rw [decodeWord_eq_ok, encode_eq_tableWord]

theorem decodeBytes_encodeBytes (i : Instr) : decodeBytes (encodeBytes i) = .ok i := by
  rw [encodeBytes, decodeBytes_bytesOfWord, decodeWord_encode]

/-- Settles O1: each row of the table is `decodeWord_eq_ok_iff_tableWord` at its command. -/
theorem decoderAcceptsExactlyTheTableWords : Obligations.DecoderAcceptsExactlyTheTableWords := by
  unfold Obligations.DecoderAcceptsExactlyTheTableWords
  refine ⟨fun w => ?table, decodeWord_eq_ok, fun i _ => decodeBytes_encodeBytes i⟩
  case table =>
    have row := decodeWord_eq_ok_iff_tableWord w
    exact ⟨row .decode, row .transform, row .select, row .emit, row .noteE, row .noteF,
      row .synthE, row .synthF, row .setbandMin, row .setbandMax, row .tick, row .init⟩

/-- Settles O3: the bytes are those of the encoder, and 0x108 is no row of the table. -/
theorem sampleWordsDecodeToTheirCommands : Obligations.SampleWordsDecodeToTheirCommands := by
  unfold Obligations.SampleWordsDecodeToTheirCommands
  obtain ⟨-, -, -, -, hsynthF⟩ := Laws.RoundTrip.synthF
  have hmodifier : decodeTableWord 32 0x00000108 = none := by decide
  exact ⟨decodeBytes_encodeBytes .decode, decodeBytes_encodeBytes .noteF,
    decodeBytes_encodeBytes .setbandMax, hsynthF, hmodifier⟩

/-! ### The completion of an accepted word -/

theorem Engine.completed_of_ok {e : Engine} {i : Instr} (k : InstanceId)
    (h : decodeWord e.cmd = .ok i) : e.completed k = e.after k i := by
  simp only [Engine.completed, h]

theorem Engine.completed_of_error {e : Engine} {r : IllegalWord} (k : InstanceId)
    (h : decodeWord e.cmd = .error r) : e.completed k = e.raise .illegalCommand 0 false := by
  simp only [Engine.completed, h]

/-- What a step does at the completion of an instance whose word decodes to `i` is `exec i` with
that instance active. -/
theorem exec_eq_completed {s : State} {k : InstanceId} {i : Instr}
    (h : decodeWord (s.engine k).cmd = .ok i) :
    exec i { s with active := k } =
      .next ({ s with active := k }.setEngine k ((s.engine k).completed k)) := by
  rw [exec_eq, State.engine_active, Engine.completed_of_ok k h]

/-- Settles O2: the four tests of R105 on the fields of the word, and the completion of an illegal
word as `raise`. -/
theorem illegalWordsRaiseIllegalCommandOnly : Obligations.IllegalWordsRaiseIllegalCommandOnly := by
  unfold Obligations.IllegalWordsRaiseIllegalCommandOnly
  refine ⟨fun w => ?tests, fun s k rest r hs hb hr => ?completion, .opcodeUnassigned, rfl⟩
  case tests =>
    rw [decodeWord_eq_error, CommandWord.wellFormed_eq_false, or_assoc]
    rfl
  case completion =>
    rw [step_complete hs, if_pos hb, Engine.completed_of_error k hr]
    rfl

/-- Settles O4: the completion event, and the two cases of an empty schedule. -/
theorem stepRunsTheAcceptedCommand : Obligations.StepRunsTheAcceptedCommand := by
  unfold Obligations.StepRunsTheAcceptedCommand
  refine ⟨fun s k rest i hs hb hi => ?scheduled, fun s i hs hb hi => ?live,
    fun s i hs hlive hb hi => ?file⟩
  case scheduled =>
    rw [step_complete hs, if_pos hb]
    rw [← State.engine_schedule s rest k] at hi ⊢
    exact (exec_eq_completed hi).symm
  case live =>
    rw [step_empty hs, if_pos hb]
    exact (exec_eq_completed (k := .live) hi).symm
  case file =>
    rw [step_empty hs, if_neg (by simp [hlive]), if_pos hb]
    exact (exec_eq_completed (k := .file) hi).symm

end Sys2Proof.Machine
end

section
/-!
PROOFS. The statements of spec/40_decode.md: what a DECODE whose checks pass writes, and that one
whose checks fail writes nothing but the status.
-/

namespace Sys2Proof.Machine

/-! ### The checks of R121 -/

/-- The checks with "exact multiple" as divisibility: with `W * C * F = 0` both say `L = 0` (R122). -/
theorem decodable_of_dvd {L W C F : Nat} (hW1 : 1 ≤ W) (hW4 : W ≤ 4) (hC : C = 1 ∨ C = 2)
    (hL : L ≤ 8192) (hdvd : W * C * F ∣ L) (hcount : L / (W * C) ≤ 1024) :
    decodable L W C F = true :=
  (decodable_iff L W C F).mpr ⟨⟨hW1, hW4⟩, hC, hL, Nat.mod_eq_zero_of_dvd hdvd, hcount⟩

/-- One of the five checks of R121 fails. -/
def DecodeCheckFails (L W C F : Nat) : Prop :=
  W ∉ [1, 2, 3, 4] ∨ C ∉ [1, 2] ∨ 8192 < L ∨ L % (W * C * F) ≠ 0 ∨ 1024 < L / (W * C)

theorem mem_widths_iff (W : Nat) : W ∈ [1, 2, 3, 4] ↔ 1 ≤ W ∧ W ≤ 4 := by
  simp only [List.mem_cons, List.not_mem_nil, or_false]
  omega

theorem decodable_iff_no_check_fails (L W C F : Nat) :
    decodable L W C F = true ↔ ¬ DecodeCheckFails L W C F := by
  have hchannels : C ∈ [1, 2] ↔ C = 1 ∨ C = 2 := by simp
  rw [decodable_iff, DecodeCheckFails, ← mem_widths_iff, ← hchannels]
  simp only [not_or, not_not, Nat.not_lt]

/-! ### The engine a DECODE leaves -/

/-- A sample in the words of R123: the bytes from its offset of `RAW`, little-endian. -/
theorem Engine.rawSample_eq_readNat (k : InstanceId) (e : Engine) (W C i : Nat) :
    e.rawSample k W C i = (BitVec.ofNat (8 * W) (e.readNat k (0x2000 + i * C * W) W)).toInt := rfl

/-- The commit of R124: channel 0 into `FRM`, its length, and the status. -/
theorem Engine.after_decode_done (k : InstanceId) (e : Engine)
    (h : decodable e.rawLenOp e.widthOp e.channelsOp e.frameLenOp = true) :
    e.after k .decode =
      { e.fill .frm ((List.range (e.rawLenOp / (e.widthOp * e.channelsOp))).map
          (e.rawSample k e.widthOp e.channelsOp)) with
        frmLen := BitVec.ofNat 11 (e.rawLenOp / (e.widthOp * e.channelsOp))
        status := e.status.completed 0 0 false } := by
  rw [Engine.after, Engine.decodeStage_done k e h, StageEnd.complete_eq]
  rfl

theorem Engine.after_decode_raised (k : InstanceId) (e : Engine)
    (h : decodable e.rawLenOp e.widthOp e.channelsOp e.frameLenOp = false) :
    e.after k .decode = e.raise .decodeError 0 false := by
  rw [Engine.after, Engine.decodeStage_raised k e h, StageEnd.complete]

theorem Engine.after_decode_frmLen (k : InstanceId) (e : Engine)
    (h : decodable e.rawLenOp e.widthOp e.channelsOp e.frameLenOp = true) :
    (e.after k .decode).frmLen.toNat = e.rawLenOp / (e.widthOp * e.channelsOp) := by
  rw [e.after_decode_done k h]
  exact decodable_length h

theorem Engine.after_decode_sample (k : InstanceId) (e : Engine)
    (h : decodable e.rawLenOp e.widthOp e.channelsOp e.frameLenOp = true) {i : Nat}
    (hi : i < e.rawLenOp / (e.widthOp * e.channelsOp)) :
    (e.after k .decode).sample k i = e.rawSample k e.widthOp e.channelsOp i :=
  (StageEnd.complete_sample k _ i).trans (e.decodeStage_sample k h i hi)

/-- No sample at or beyond the new length is known (R34). -/
theorem Engine.after_decode_clearFrom (k : InstanceId) (e : Engine)
    (h : decodable e.rawLenOp e.widthOp e.channelsOp e.frameLenOp = true) :
    (e.after k .decode).mem.ClearFrom .frm (e.rawLenOp / (e.widthOp * e.channelsOp)) := by
  rw [e.after_decode_done k h]
  exact (e.fill_clearFrom .frm _).of_eq (by simp)

theorem Space.frm_limit : Space.frm.limit = 0x5000 := rfl

theorem Engine.after_decode_byteAt (k : InstanceId) (e : Engine) {off : Nat}
    (h : ¬ (0x4000 ≤ off ∧ off < 0x5000)) : (e.after k .decode).byteAt k off = e.byteAt k off := by
  have hfrm : Space.frm.holds off = false :=
    Space.holds_eq_false (by rw [Space.frm_limit, Space.base]; omega)
  exact e.after_byteAt k .decode off (by decide) (by simpa [writtenBy] using hfrm)

/-- Settles O18: the checks make the buffer decodable, and each clause is a law of the engine that a
decodable buffer leaves. -/
theorem decodeWritesChannelZeroSamples : Obligations.DecodeWritesChannelZeroSamples := by
  unfold Obligations.DecodeWritesChannelZeroSamples
  intro s k E L W C F hW1 hW4 hC hL hdvd hcount
  have h : decodable E.rawLenOp E.widthOp E.channelsOp E.frameLenOp = true :=
    decodable_of_dvd hW1 hW4 hC hL hdvd hcount
  refine ⟨E.after k .decode, exec_eq .decode s, ?registers, E.after_decode_frmLen k h,
    fun i hi => ?sample, fun off hlo hhi => ?tail, fun off hoff => E.after_decode_byteAt k hoff⟩
  case registers =>
    rw [E.after_decode_done k h]
    rfl
  case sample =>
    exact (E.after_decode_sample k h hi).trans (E.rawSample_eq_readNat k W C i)
  case tail => exact E.after_decode_clearFrom k h off hlo hhi

/-- Settles O19: the two ways DECODE can end, by whether the buffer is decodable. -/
theorem decodeErrorsExactlyWhenACheckFails : Obligations.DecodeErrorsExactlyWhenACheckFails := by
  unfold Obligations.DecodeErrorsExactlyWhenACheckFails
  intro s k E L W C F fails
  have hiff : decodable E.rawLenOp E.widthOp E.channelsOp E.frameLenOp = true ↔ ¬ fails :=
    decodable_iff_no_check_fails L W C F
  refine ⟨E.after k .decode, exec_eq .decode s, ?_⟩
  cases h : decodable E.rawLenOp E.widthOp E.channelsOp E.frameLenOp with
  | true =>
    have hpass : ¬ fails := hiff.mp h
    have herr : (E.after k .decode).status.err = 0 := by rw [E.after_decode_done k h]; rfl
    rw [herr]
    exact ⟨iff_of_false (by decide) hpass, iff_of_true rfl hpass, fun hf => absurd hf hpass,
      fun _ => E.after_decode_frmLen k h⟩
  | false =>
    have hfails : fails := by
      by_contra hpass
      rw [hiff.mpr hpass] at h
      cases h
    have herr : (E.raise .decodeError 0 false).status.err = 1 := rfl
    rw [E.after_decode_raised k h, herr]
    exact ⟨iff_of_true rfl hfails, iff_of_false (by decide) (not_not_intro hfails), fun _ => rfl,
      fun hpass => absurd hfails hpass⟩

end Sys2Proof.Machine
end

section
/-!
PROOFS. The statements of spec/41_transform.md: the spectrum a TRANSFORM of a supported length
writes, the lengths it refuses, and the two bins at which the ROM's rounding cannot show.
-/

namespace Sys2Proof.Machine

/-! ### The engine a TRANSFORM leaves -/

/-- The commit of R135: the spectrum, its length, and the status. -/
theorem Engine.after_transform_done (k : InstanceId) (e : Engine)
    (h : supportedLength e.frmLen.toNat = true) :
    e.after k .transform = { (e.fill .bin e.newBins).fill .mag (e.newMags k) with
      specLen := BitVec.ofNat 10 (e.frmLen.toNat / 2 + 1)
      status := e.status.completed 0 0 false } := by
  rw [Engine.after, Engine.transformStage_done k e h, StageEnd.complete_eq]
  rfl

theorem Engine.after_transform_empty (k : InstanceId) (e : Engine) (h : e.frmLen.toNat = 0) :
    e.after k .transform = e.raise .invalidInput 0 false := by
  rw [Engine.after, Engine.transformStage_empty k e h, StageEnd.complete]

theorem Engine.after_transform_unsupported (k : InstanceId) (e : Engine)
    (h0 : e.frmLen.toNat ≠ 0) (h : supportedLength e.frmLen.toNat = false) :
    e.after k .transform = e.raise .unsupportedLength 0 false := by
  rw [Engine.after, Engine.transformStage_unsupported k e h0 h, StageEnd.complete]

theorem Engine.after_transform_specLen (k : InstanceId) (e : Engine)
    (h : supportedLength e.frmLen.toNat = true) :
    (e.after k .transform).specLen.toNat = e.frmLen.toNat / 2 + 1 := by
  rw [e.after_transform_done k h]
  exact supportedLength_spectrum h

theorem Engine.after_transform_binFreq (k : InstanceId) (e : Engine)
    (h : supportedLength e.frmLen.toNat = true) {j : Nat} (hj : j ≤ e.frmLen.toNat / 2) :
    (e.after k .transform).binFreq k j = binRaw e.rateOp e.frmLen.toNat j :=
  (StageEnd.complete_binFreq k _ j).trans (e.transformStage_binFreq k h j hj)

theorem Engine.after_transform_magnitude (k : InstanceId) (e : Engine)
    (h : supportedLength e.frmLen.toNat = true) {j : Nat} (hj : j ≤ e.frmLen.toNat / 2) :
    (e.after k .transform).magnitude k j = dftMag (e.frame k) j :=
  (StageEnd.complete_magnitude k _ j).trans (e.transformStage_mag k h j hj)

/-- No magnitude beyond the new spectrum is known (R135). -/
theorem Engine.after_transform_clearFrom_mag (k : InstanceId) (e : Engine)
    (h : supportedLength e.frmLen.toNat = true) :
    (e.after k .transform).mem.ClearFrom .mag (e.frmLen.toNat / 2 + 1) := by
  rw [e.after_transform_done k h]
  exact (Engine.fill_clearFrom _ .mag (e.newMags k)).of_eq (e.newMags_length k).symm

/-- No bin beyond the new spectrum is known: the write of `MAG` leaves the tail of `BIN`. -/
theorem Engine.after_transform_clearFrom_bin (k : InstanceId) (e : Engine)
    (h : supportedLength e.frmLen.toNat = true) :
    (e.after k .transform).mem.ClearFrom .bin (e.frmLen.toNat / 2 + 1) := by
  have hmags : (e.newMags k).length ≤ Space.mag.count := by
    simpa [Space.count_eq] using supportedLength_count h
  rw [e.after_transform_done k h]
  exact (Engine.fill_clearFrom_other (by decide) hmags
    (e.fill_clearFrom .bin e.newBins)).of_eq e.newBins_length.symm

theorem Space.bin_limit : Space.bin.limit = 0x5804 := rfl

theorem Space.mag_limit : Space.mag.limit = 0x7008 := rfl

theorem Engine.after_transform_byteAt (k : InstanceId) (e : Engine) {off : Nat}
    (hbin : ¬ (0x5000 ≤ off ∧ off < 0x5804)) (hmag : ¬ (0x6000 ≤ off ∧ off < 0x7008)) :
    (e.after k .transform).byteAt k off = e.byteAt k off := by
  have hb : Space.bin.holds off = false :=
    Space.holds_eq_false (by rw [Space.bin_limit, Space.base]; omega)
  have hm : Space.mag.holds off = false :=
    Space.holds_eq_false (by rw [Space.mag_limit, Space.base]; omega)
  exact e.after_byteAt k .transform off (by decide) (by simp [writtenBy, hb, hm])

/-- Settles O20: each clause is a law of the engine that a supported length leaves. -/
theorem transformWritesTheSpectrum : Obligations.TransformWritesTheSpectrum := by
  unfold Obligations.TransformWritesTheSpectrum
  intro s k E N R RE IM hN
  have h : supportedLength E.frmLen.toNat = true := (supportedLength_iff N).mpr hN
  refine ⟨E.after k .transform, exec_eq .transform s, ?registers, E.after_transform_specLen k h,
    fun j hj => ?bin, fun j hj => ?mag, fun off hlo hhi => ?binTail, fun off hlo hhi => ?magTail,
    fun off hbin hmag => E.after_transform_byteAt k hbin hmag⟩
  case registers =>
    rw [E.after_transform_done k h]
    rfl
  case bin =>
    rw [E.after_transform_binFreq k h hj]
    exact_mod_cast binRaw_mul R N j h
  case mag =>
    have hRE : dftRe (E.frame k) j = RE j := dftRe_frame k E j
    have hIM : dftIm (E.frame k) j = IM j := dftIm_frame k E j
    rw [E.after_transform_magnitude k h hj, ← hRE, ← hIM]
    exact dftMag_spec (E.frame k) j
  case binTail => exact E.after_transform_clearFrom_bin k h off hlo hhi
  case magTail => exact E.after_transform_clearFrom_mag k h off hlo hhi

/-- Settles O21: the two raises of R131, each of which writes the status alone. -/
theorem transformRefusesBadLengths : Obligations.TransformRefusesBadLengths := by
  unfold Obligations.TransformRefusesBadLengths
  intro s k E N
  refine ⟨fun h0 => ?empty, fun h0 hpow => ?unsupported⟩
  case empty =>
    rw [exec_eq, E.after_transform_empty k h0]
    rfl
  case unsupported =>
    have h : supportedLength E.frmLen.toNat = false :=
      Bool.eq_false_iff.mpr fun hs => hpow ((supportedLength_iff N).mp hs)
    rw [exec_eq, E.after_transform_unsupported k h0 h]
    rfl

/-! ### The bins of R136 (c) and (d) -/

theorem supportedLength_dvd {N : Nat} (h : supportedLength N = true) : N ∣ 1024 := by
  obtain ⟨g, hg, rfl⟩ := (supportedLength_iff N).mp h
  exact Nat.pow_dvd_pow 2 hg

/-- Every half turn changes the sign. -/
theorem rom_add_halves (i m : Nat) : rom (i + m * 512) = (-1) ^ m * rom i := by
  induction m with
  | zero => simp
  | succ m ih => rw [Nat.add_mul, Nat.one_mul, ← Nat.add_assoc, rom_add_half, ih, pow_succ]; ring

/-- At half the length each sample turns the angle by half a turn. -/
theorem nyquistIndex_eq {m : Nat} (h : 2 * m ∣ 1024) (n : Nat) :
    ((m * n) % (2 * m)) * (1024 / (2 * m)) = (n % 2) * 512 := by
  have hturn : m * (1024 / (2 * m)) = 512 := by
    have := Nat.mul_div_cancel' h
    rw [Nat.mul_assoc] at this
    omega
  calc ((m * n) % (2 * m)) * (1024 / (2 * m))
      = (n % 2) * (m * (1024 / (2 * m))) := by rw [Nat.mul_comm 2 m, Nat.mul_mod_mul_left]; ring
    _ = (n % 2) * 512 := by rw [hturn]

/-- A bin whose angles are all whole half turns, sample `n` at `t n` of them, has no rounding: the
ROM holds the exact sine and cosine there. -/
theorem dftMag_of_half_turns (k : InstanceId) (e : Engine) (j : Nat) (t : Nat → Nat)
    (h : ∀ n, ((j * n) % e.frmLen.toNat) * (1024 / e.frmLen.toNat) = t n * 512) :
    (dftMag (e.frame k) j : Int) =
      16384 * |∑ n ∈ Finset.range e.frmLen.toNat, (-1) ^ t n * e.sample k n| := by
  have hcos (n : Nat) : rom ((t n * 512 + 256) % 1024) = (-1) ^ t n * 16384 := by
    rw [rom_mod, Nat.add_comm, rom_add_halves, rom_quarter]
  have hsin (n : Nat) : rom (t n * 512) = 0 := by
    simpa [rom_zero] using rom_add_halves 0 (t n)
  have hRe : dftRe (e.frame k) j =
      16384 * ∑ n ∈ Finset.range e.frmLen.toNat, (-1) ^ t n * e.sample k n := by
    rw [dftRe_frame, Finset.mul_sum]
    refine Finset.sum_congr rfl fun n _ => ?_
    rw [h, hcos]
    ring
  have hIm : dftIm (e.frame k) j = 0 := by
    rw [dftIm_frame]
    simp only [h, hsin, mul_zero, Finset.sum_const_zero, neg_zero]
  rw [dftMag_of_real _ j _ hRe hIm, abs_mul]
  norm_num

/-- R136 (c): at bin 0 no sample turns. -/
theorem dftMag_dc (k : InstanceId) (e : Engine) :
    (dftMag (e.frame k) 0 : Int) =
      16384 * |∑ n ∈ Finset.range e.frmLen.toNat, e.sample k n| := by
  simpa using dftMag_of_half_turns k e 0 (fun _ => 0) (by simp)

/-- R136 (d): at bin `N / 2` the odd samples turn by one half. -/
theorem dftMag_nyquist (k : InstanceId) (e : Engine) (h2 : 2 ∣ e.frmLen.toNat)
    (hdvd : e.frmLen.toNat ∣ 1024) :
    (dftMag (e.frame k) (e.frmLen.toNat / 2) : Int) =
      16384 * |∑ n ∈ Finset.range e.frmLen.toNat, (-1) ^ n * e.sample k n| := by
  have hN : e.frmLen.toNat = 2 * (e.frmLen.toNat / 2) := (Nat.mul_div_cancel' h2).symm
  have hindex (n : Nat) : ((e.frmLen.toNat / 2 * n) % e.frmLen.toNat) * (1024 / e.frmLen.toNat) =
      (n % 2) * 512 := by
    generalize e.frmLen.toNat / 2 = m at hN
    rw [hN] at hdvd ⊢
    exact nyquistIndex_eq hdvd n
  rw [dftMag_of_half_turns k e _ (fun n => n % 2) hindex]
  simp only [← neg_one_pow_eq_pow_mod_two]

/-- Settles O22: both bins have half turns for angles only. -/
theorem dcAndNyquistMagnitudesAreExact : Obligations.DcAndNyquistMagnitudesAreExact := by
  unfold Obligations.DcAndNyquistMagnitudesAreExact
  intro s k E N hN
  have h : supportedLength E.frmLen.toNat = true := (supportedLength_iff N).mpr hN
  refine ⟨E.after k .transform, exec_eq .transform s, ?dc, fun h2 => ?nyquist⟩
  case dc =>
    rw [E.after_transform_magnitude k h (Nat.zero_le _)]
    exact dftMag_dc k E
  case nyquist =>
    have heven : 2 ∣ N := by
      obtain ⟨g, -, hg⟩ := hN
      rw [hg] at h2 ⊢
      exact dvd_pow_self 2 fun h0 => by simp [h0] at h2
    rw [E.after_transform_magnitude k h le_rfl]
    exact dftMag_nyquist k E heven (supportedLength_dvd h)

end Sys2Proof.Machine
end

section
/-!
PROOFS. The statements of spec/42_select.md: the candidates a SELECT appends, and the properties of
R145 of the scan that finds them.
-/

namespace Sys2Proof.Machine

/-! ### The new candidates of R141 to R143 -/

/-- A loud magnitude is not 0: the mean is not negative. -/
theorem pos_of_loud {cnt tot a : Nat} (h : 3 * tot < a * cnt) : 0 < a :=
  Nat.pos_of_mul_pos_right (Nat.zero_lt_of_lt h)

/-- The scan from `max_amp = 0` (R143): the starting maximum excludes no loud bin. -/
theorem risingPeaks_zero_eq_filter (cnt tot : Nat) (b : Nat → Int) (a : Nat → Nat) (F : List Nat)
    (hF : F.Pairwise (· < ·)) :
    risingPeaks cnt tot 0 (F.map (fun i => (b i, a i))) =
      (F.filter (fun i => 3 * tot < a i * cnt ∧
        ∀ j ∈ F, j < i → 3 * tot < a j * cnt → a j < a i)).map b := by
  rw [risingPeaks_eq_filter cnt tot b a F hF 0]
  congr 1
  refine List.filter_congr fun i _ => decide_eq_decide.mpr ⟨?_, ?_⟩
  · rintro ⟨hloud, -, hrise⟩
    exact ⟨hloud, hrise⟩
  · rintro ⟨hloud, hrise⟩
    exact ⟨hloud, pos_of_loud hloud, hrise⟩

/-- The list `F` of R141 with its two bounds as one condition. -/
theorem Engine.inBand_eq_filter (k : InstanceId) (e : Engine) :
    e.inBand k = (List.range e.specLen.toNat).filter
      (fun i => e.minFreq.toInt ≤ e.binFreq k i ∧ e.binFreq k i ≤ e.maxFreq.toInt) := by
  unfold Engine.inBand
  simp only [Bool.decide_and]

theorem Engine.newCandidates_eq_filter (k : InstanceId) (e : Engine) :
    e.newCandidates k =
      ((e.inBand k).filter (fun i =>
        3 * ((e.inBand k).map (e.magnitude k)).sum < e.magnitude k i * (e.inBand k).length ∧
        ∀ j ∈ e.inBand k, j < i →
          3 * ((e.inBand k).map (e.magnitude k)).sum < e.magnitude k j * (e.inBand k).length →
          e.magnitude k j < e.magnitude k i)).map (e.binFreq k) :=
  risingPeaks_zero_eq_filter _ _ _ _ _ (e.inBand_sorted k)

/-! ### The engine a SELECT leaves -/

/-- The commit of R144 where the new candidates fit: the append, the new length, and the status. -/
theorem Engine.after_select_done (k : InstanceId) (e : Engine)
    (h : e.cbLen.toNat + (e.newCandidates k).length ≤ 1024) :
    e.after k .select = { e.writeFrom .cb e.cbLen.toNat (e.newCandidates k) with
      cbLen := BitVec.ofNat 11 (e.cbLen.toNat + (e.newCandidates k).length)
      status := e.status.completed 0 0 false } := by
  rw [Engine.after, Engine.selectStage_done k e h, StageEnd.complete_eq]
  rfl

theorem Engine.after_select_raised (k : InstanceId) (e : Engine)
    (h : 1024 < e.cbLen.toNat + (e.newCandidates k).length) :
    e.after k .select = e.raise .capacityError 0 false := by
  rw [Engine.after, Engine.selectStage_raised k e h, StageEnd.complete]

theorem Engine.after_select_cbLen (k : InstanceId) (e : Engine)
    (h : e.cbLen.toNat + (e.newCandidates k).length ≤ 1024) :
    (e.after k .select).cbLen.toNat = e.cbLen.toNat + (e.newCandidates k).length := by
  rw [e.after_select_done k h]
  exact (Engine.selectStage_succeeds (e.selectStage_done k h)).2

theorem Engine.after_select_candidate (k : InstanceId) (e : Engine)
    (h : e.cbLen.toNat + (e.newCandidates k).length ≤ 1024) (p : Nat)
    (hp : p < (e.newCandidates k).length) :
    (e.after k .select).candidate k (e.cbLen.toNat + p) = (e.newCandidates k)[p] :=
  (StageEnd.complete_candidate k _ _).trans (e.selectStage_candidate_new k h p hp)

/-- Nothing outside the appended elements is written. -/
theorem Engine.after_select_byteAt (k : InstanceId) (e : Engine)
    (h : e.cbLen.toNat + (e.newCandidates k).length ≤ 1024) {off : Nat}
    (hoff : ¬ (0x8000 + 4 * e.cbLen.toNat ≤ off ∧
      off < 0x8000 + 4 * (e.cbLen.toNat + (e.newCandidates k).length))) :
    (e.after k .select).byteAt k off = e.byteAt k off := by
  have hout : off < Space.cb.base + Space.cb.elemBytes * e.cbLen.toNat ∨
      Space.cb.base + Space.cb.elemBytes * (e.cbLen.toNat + (e.newCandidates k).length) ≤ off := by
    simp only [Space.base, Space.elemBytes_eq]
    omega
  rw [e.after_select_done k h]
  exact (Engine.byteAt_eq k off rfl rfl).trans
    (Engine.byteAt_writeFrom_outside k e .cb e.cbLen.toNat (e.newCandidates k) off hout)

/-- Settles O23: the list of the statement is `Engine.newCandidates`, and each clause is a law of the
engine left when it fits or not. -/
theorem selectAppendsTheRisingPeaks : Obligations.SelectAppendsTheRisingPeaks := by
  unfold Obligations.SelectAppendsTheRisingPeaks
  intro s k E F tot loud new
  have hF : F = E.inBand k := (E.inBand_eq_filter k).symm
  have hnew : new = E.newCandidates k := by
    rw [E.newCandidates_eq_filter k, ← hF]
  rw [hnew]
  refine ⟨fun hfits => ?fits, fun hover => ?overflow⟩
  case fits =>
    refine ⟨E.after k .select, exec_eq .select s, ?registers, E.after_select_cbLen k hfits,
      E.after_select_candidate k hfits, fun off hoff => E.after_select_byteAt k hfits hoff⟩
    rw [E.after_select_done k hfits]
    rfl
  case overflow =>
    rw [exec_eq, E.after_select_raised k hover]
    rfl

/-! ### The properties of R145 -/

/-- R145 (c): no single magnitude exceeds three times the mean of three magnitudes or fewer. -/
theorem not_loud_of_length_le_three {pairs : List (Int × Nat)} (hlen : pairs.length ≤ 3)
    {p : Int × Nat} (hp : p ∈ pairs) :
    ¬ 3 * (pairs.map Prod.snd).sum < p.2 * pairs.length := by
  rw [Nat.not_lt]
  calc p.2 * pairs.length ≤ p.2 * 3 := Nat.mul_le_mul_left _ hlen
    _ = 3 * p.2 := Nat.mul_comm _ _
    _ ≤ 3 * (pairs.map Prod.snd).sum :=
      Nat.mul_le_mul_left _ (List.le_sum_of_mem (List.mem_map_of_mem hp))

/-- Settles O24: every clause is about the pairs the scan takes, a sublist of the band. -/
theorem selectedPeaksAreLoudAndRising : Obligations.SelectedPeaksAreLoudAndRising := by
  unfold Obligations.SelectedPeaksAreLoudAndRising
  intro pairs tot new
  obtain ⟨picked, hsub, hmap, hloud, hrise⟩ := risingPeaks_picked pairs.length tot 0 pairs
  have hnew : new = picked.map Prod.fst := hmap.symm
  refine ⟨fun hlen => ?short, fun hbins => ?frequencies, fun hzero f hf => ?rateZero,
    picked, hsub, hmap, hloud, hrise⟩
  case short =>
    have hnone : picked = [] := List.eq_nil_iff_forall_not_mem.mpr fun p hp =>
      not_loud_of_length_le_three hlen (hsub.subset hp) (hloud p hp).2
    rw [hnew, hnone, List.map_nil]
  case frequencies =>
    rw [hnew]
    exact List.pairwise_map.mpr (hbins.sublist hsub)
  case rateZero =>
    rw [hnew] at hf
    obtain ⟨p, hp, rfl⟩ := List.mem_map.mp hf
    exact hzero p (hsub.subset hp)

/-- Settles O25: the sum scales with the magnitudes, and the scan does not see the factor. -/
theorem selectionIsScaleInvariant : Obligations.SelectionIsScaleInvariant := by
  unfold Obligations.SelectionIsScaleInvariant
  intro pairs c hc
  have hsum : (pairs.map (fun p => c * p.2)).sum = c * (pairs.map Prod.snd).sum :=
    List.sum_map_mul_left pairs Prod.snd c
  rw [hsum]
  exact risingPeaks_scale pairs.length (pairs.map Prod.snd).sum 0 c hc pairs

end Sys2Proof.Machine
end

section
/-!
PROOFS. The statements of spec/43_smoother.md: what an EMIT stores, that a second one emits nothing,
and which events can change the estimate.
-/

namespace Sys2Proof.Machine

/-! ### The engine an EMIT leaves -/

/-- The emission of R151: the mean into `FE`, an empty Candidate Buffer, and the status. -/
theorem Engine.after_emit_emitting (k : InstanceId) (e : Engine) (h : e.emits = true) :
    e.after k .emit = { e.clearCandidates with
      fe := BitVec.ofInt 32 (e.candidateMean k)
      status := { e.status with feValid := true }.completed 0 0 true } := by
  rw [Engine.after, Engine.emitStage_emit k e h, h]
  rfl

/-- With too few candidates only the status reports (R151). -/
theorem Engine.after_emit_keeping (k : InstanceId) (e : Engine) (h : e.emits = false) :
    e.after k .emit = e.done false := by
  rw [Engine.after, Engine.emitStage_keep k e h, h]

theorem Engine.emits_eq_false_iff (e : Engine) : e.emits = false ↔ e.cbLen.toNat ≤ 3 := by
  rw [← Bool.not_eq_true, e.emits_iff, Nat.not_lt]

/-- The estimate is stored whole: a mean of FQ values is an FQ value. -/
theorem Engine.after_emit_fe (k : InstanceId) (e : Engine) (h : e.emits = true) :
    (e.after k .emit).fe.toInt = e.candidateMean k := by
  rw [e.after_emit_emitting k h]
  exact e.candidateMean_stored k (Nat.zero_lt_of_lt (e.emits_iff.mp h))

/-- The mean is rounded down: it is the one integer `q` with `q * n ≤ S < (q + 1) * n` (R151). -/
theorem Engine.candidateMean_floor (k : InstanceId) (e : Engine) (hn : 0 < e.cbLen.toNat) :
    e.candidateMean k * e.cbLen.toNat ≤ ∑ i ∈ Finset.range e.cbLen.toNat, e.candidate k i ∧
      ∑ i ∈ Finset.range e.cbLen.toNat, e.candidate k i <
        (e.candidateMean k + 1) * e.cbLen.toNat := by
  have hpos : (0 : Int) < e.cbLen.toNat := Int.natCast_pos.mpr hn
  rw [Engine.candidateMean, e.candidates_sum k]
  exact ⟨Int.ediv_mul_le _ hpos.ne', Int.lt_ediv_add_one_mul_self _ hpos⟩

/-- No candidate is known after an emission (spec/20_memory.md R71). -/
theorem Engine.after_emit_clearFrom (k : InstanceId) (e : Engine) (h : e.emits = true) :
    (e.after k .emit).mem.ClearFrom .cb 0 := by
  rw [e.after_emit_emitting k h]
  exact e.fill_clearFrom .cb []

theorem Space.cb_limit : Space.cb.limit = 0x9000 := rfl

theorem Engine.after_emit_byteAt (k : InstanceId) (e : Engine) {off : Nat}
    (h : ¬ (0x8000 ≤ off ∧ off < 0x9000)) : (e.after k .emit).byteAt k off = e.byteAt k off := by
  have hcb : Space.cb.holds off = false :=
    Space.holds_eq_false (by rw [Space.cb_limit, Space.base]; omega)
  exact e.after_byteAt k .emit off (by decide) (by simpa [writtenBy] using hcb)

/-- Settles O26: each clause is a law of the engine that an EMIT with more than three candidates, or
with three or fewer, leaves. -/
theorem emitStoresTheFloorMean : Obligations.EmitStoresTheFloorMean := by
  unfold Obligations.EmitStoresTheFloorMean
  intro s k E n S
  refine ⟨fun hmany => ?emits, fun hfew => ?keeps⟩
  case emits =>
    have hemits : E.emits = true := E.emits_iff.mpr hmany
    have hfloor := E.candidateMean_floor k (Nat.zero_lt_of_lt hmany)
    rw [← E.after_emit_fe k hemits] at hfloor
    refine ⟨E.after k .emit, exec_eq .emit s, ?registers, hfloor.1, hfloor.2,
      fun off hlo hhi => E.after_emit_clearFrom k hemits off hlo hhi,
      fun off hoff => E.after_emit_byteAt k hoff⟩
    case registers =>
      rw [E.after_emit_emitting k hemits]
      rfl
  case keeps =>
    rw [exec_eq, E.after_emit_keeping k (E.emits_eq_false_iff.mpr hfew)]
    rfl

/-! ### A second EMIT -/

/-- After an EMIT, emitting or not, the buffer is too short for another emission. -/
theorem Engine.after_emit_emits (k : InstanceId) (e : Engine) : (e.after k .emit).emits = false := by
  cases h : e.emits with
  | true =>
    rw [e.after_emit_emitting k h]
    rfl
  | false =>
    rw [e.after_emit_keeping k h]
    exact h

theorem Engine.accept_emits (e : Engine) (w : Word) : (e.accept w).emits = e.emits := rfl

/-- Settles O27: the first EMIT leaves too few candidates, so the second is a mere completion. -/
theorem secondEmitEmitsNothing : Obligations.SecondEmitEmitsNothing := by
  unfold Obligations.SecondEmitEmitsNothing
  intro s k hidle
  have hfirst := s.call_eq k .emit hidle
  set t := ({ s with schedule := [], active := k } : State).setEngine k
    (((s.engine k).accept (encode .emit)).after k .emit) with ht
  have hengine : t.engine k = ((s.engine k).accept (encode .emit)).after k .emit := by
    rw [ht, State.engine_setEngine_same]
  have hshort : ((t.engine k).accept (encode .emit)).emits = false := by
    rw [Engine.accept_emits, hengine, Engine.after_emit_emits]
  have hsecond := t.call_eq k .emit (by rw [hengine, Engine.after_busy])
  rw [Engine.after_emit_keeping k _ hshort] at hsecond
  refine ⟨t, _, hfirst, hsecond, ?_⟩
  rw [State.engine_setEngine_same]
  exact ⟨rfl, rfl, rfl, rfl⟩

/-! ### The events that change the estimate -/

/-- `t` holds the estimate of `e`: `FE` and `FE_VALID` are the same (R152). -/
def Engine.KeepsEstimate (e t : Engine) : Prop :=
  t.fe = e.fe ∧ t.status.feValid = e.status.feValid

theorem Engine.KeepsEstimate.trans {e t u : Engine} (h : e.KeepsEstimate t)
    (h' : t.KeepsEstimate u) : e.KeepsEstimate u :=
  ⟨h'.1.trans h.1, h'.2.trans h.2⟩

/-- Completing a stand-alone command does not touch the estimate. -/
theorem Engine.KeepsEstimate.complete {e : Engine} {x : StageEnd} (h : e.KeepsEstimate x.engine) :
    e.KeepsEstimate x.complete := by
  cases x <;> exact h

theorem Engine.decodeStage_keepsEstimate (k : InstanceId) (e : Engine) :
    e.KeepsEstimate (e.decodeStage k).engine := by
  obtain ⟨_, _, _, h⟩ := e.decodeStage_frame k
  rw [h]
  exact ⟨rfl, rfl⟩

theorem Engine.transformStage_keepsEstimate (k : InstanceId) (e : Engine) :
    e.KeepsEstimate (e.transformStage k).engine := by
  obtain ⟨_, _, _, h⟩ := e.transformStage_frame k
  rw [h]
  exact ⟨rfl, rfl⟩

theorem Engine.selectStage_keepsEstimate (k : InstanceId) (e : Engine) :
    e.KeepsEstimate (e.selectStage k).engine := by
  obtain ⟨_, _, h⟩ := e.selectStage_frame k
  rw [h]
  exact ⟨rfl, rfl⟩

theorem Engine.noteFor_keepsEstimate (e : Engine) (f : Int) :
    e.KeepsEstimate (e.noteFor f).engine := by
  obtain ⟨_, _, h⟩ := e.noteFor_frame f
  rw [h]
  exact ⟨rfl, rfl⟩

theorem Engine.noteStage_keepsEstimate (e : Engine) : e.KeepsEstimate e.noteStage.engine := by
  obtain ⟨_, _, h⟩ := e.noteStage_frame
  rw [h]
  exact ⟨rfl, rfl⟩

theorem Engine.synthesize_keepsEstimate (e : Engine) (f : Option Int) :
    e.KeepsEstimate (e.synthesize f).engine := by
  obtain ⟨_, _, _, h⟩ := e.synthesize_frame f
  rw [h]
  exact ⟨rfl, rfl⟩

theorem Engine.setBand_keepsEstimate (e : Engine) (clamp : Int → Int → Int × Int) :
    e.KeepsEstimate (e.setBand clamp).engine := by
  obtain ⟨_, _, h⟩ := e.setBand_frame clamp
  rw [h]
  exact ⟨rfl, rfl⟩

/-- The emit operation keeps the estimate, or it is an emission and the estimate is present. -/
theorem Engine.emitStage_estimate (k : InstanceId) (e : Engine) :
    e.KeepsEstimate (e.emitStage k) ∨ e.emits = true ∧ (e.emitStage k).status.feValid = true := by
  cases h : e.emits with
  | true =>
    rw [e.emitStage_emit k h]
    exact .inr ⟨rfl, rfl⟩
  | false =>
    rw [e.emitStage_keep k h]
    exact .inl ⟨rfl, rfl⟩

/-- `t` is the engine an emission leaves: `EMITTED = 1` and a present estimate. -/
def Engine.HasEmitted (t : Engine) : Prop := t.status.emitted = true ∧ t.status.feValid = true

/-- The first three stages of a TICK and its last keep the estimate; stage 4 is the emit operation,
whose emission is reported whether stage 5 is done or raises (R192, log 11). -/
theorem Engine.tickPass_estimate (k : InstanceId) (e : Engine) :
    e.KeepsEstimate (e.tickPass k) ∨ (e.tickPass k).HasEmitted := by
  have h1 := e.decodeStage_keepsEstimate k
  rcases e.tickPass_cases k with ⟨kind, e1, q, h⟩ | ⟨e1, q, h⟩ <;> rw [q] at h1
  · rw [h]; exact .inl h1
  have h2 := h1.trans (Engine.transformStage_keepsEstimate k e1)
  rcases h with ⟨kind, e2, q, h⟩ | ⟨e2, q, h⟩ <;> rw [q] at h2
  · rw [h]; exact .inl h2
  have h3 := h2.trans (Engine.selectStage_keepsEstimate k e2)
  rcases h with ⟨kind, e3, q, h⟩ | ⟨e3, q, h⟩ <;> rw [q] at h3
  · rw [h]; exact .inl h3
  have hnote := (e3.emitStage k).noteStage_keepsEstimate
  have h5 : e.KeepsEstimate (e3.emitStage k).noteStage.engine ∨
      e3.emits = true ∧ (e3.emitStage k).noteStage.engine.status.feValid = true :=
    (e3.emitStage_estimate k).imp (fun h4 => (h3.trans h4).trans hnote)
      (fun ⟨hemits, hvalid⟩ => ⟨hemits, hnote.2.trans hvalid⟩)
  rcases h with ⟨kind, e5, q, h⟩ | ⟨e5, q, h⟩ <;> rw [q] at h5 <;> rw [h] <;>
    exact h5

/-- A command other than INIT, EMIT and TICK keeps the estimate; EMIT and TICK do so too unless they
emit. -/
theorem Engine.after_estimate (k : InstanceId) (e : Engine) {i : Instr} (hi : i ≠ .init) :
    e.KeepsEstimate (e.after k i) ∨ (i = .emit ∨ i = .tick) ∧ (e.after k i).HasEmitted := by
  cases i with
  | init => exact absurd rfl hi
  | emit => exact (e.emitStage_estimate k).imp_right (fun h => ⟨.inl rfl, h⟩)
  | tick => exact (e.tickPass_estimate k).imp_right (fun h => ⟨.inr rfl, h⟩)
  | decode => exact .inl (e.decodeStage_keepsEstimate k).complete
  | transform => exact .inl (e.transformStage_keepsEstimate k).complete
  | select => exact .inl (e.selectStage_keepsEstimate k).complete
  | noteE => exact .inl e.noteStage_keepsEstimate.complete
  | noteF => exact .inl (e.noteFor_keepsEstimate _).complete
  | synthE => exact .inl (e.synthesize_keepsEstimate _).complete
  | synthF => exact .inl (e.synthesize_keepsEstimate _).complete
  | setbandMin => exact .inl (e.setBand_keepsEstimate _).complete
  | setbandMax => exact .inl (e.setBand_keepsEstimate _).complete

/-- The completion of the accepted word, legal or not, by the command in flight. -/
theorem Engine.completed_estimate (k : InstanceId) {e : Engine} (hb : e.status.busy = true) :
    e.KeepsEstimate (e.completed k) ∨ e.inFlight = some .init ∨
      (e.inFlight = some .emit ∨ e.inFlight = some .tick) ∧ (e.completed k).HasEmitted := by
  cases hd : decodeWord e.cmd with
  | error r =>
    rw [Engine.completed_of_error k hd]
    exact .inl ⟨rfl, rfl⟩
  | ok i =>
    rw [Engine.completed_of_ok k hd, (e.inFlight_eq_some i).mpr ⟨hb, hd⟩]
    by_cases hi : i = .init
    · exact .inr (.inl (congrArg some hi))
    · exact (e.after_estimate k hi).imp_right
        (fun ⟨hcmd, hemitted⟩ => .inr ⟨hcmd.imp (congrArg some) (congrArg some), hemitted⟩)

/-- A write to `CMD`, accepted or dropped, keeps the estimate. -/
theorem Engine.writeCmd_keepsEstimate (e : Engine) (w : Word) : e.KeepsEstimate (e.writeCmd w) := by
  cases hb : e.status.busy with
  | false =>
    rw [Engine.writeCmd_idle w hb]
    exact ⟨rfl, rfl⟩
  | true =>
    rw [Engine.writeCmd_busy w hb]
    exact ⟨rfl, rfl⟩

/-- Settles O46: of the four things a step can do to an engine, a host write keeps the estimate, and
a completion keeps it but for INIT and an emission. -/
theorem estimateIsSticky : Obligations.EstimateIsSticky := by
  unfold Obligations.EstimateIsSticky
  intro s t k hst hchange
  have hnot : ¬ (s.engine k).KeepsEstimate (t.engine k) := fun ⟨hfe, hvalid⟩ =>
    hchange.elim (fun h => h hfe) (fun h => h hvalid)
  rcases step_engine_cases hst k with he | ⟨hreset, -⟩ | ⟨hb, hcompleting, he⟩ |
    ⟨w, addr, rest, -, hw⟩
  · rw [he] at hnot
    exact absurd ⟨rfl, rfl⟩ hnot
  · exact .inl hreset
  · rw [he] at hnot ⊢
    rw [hcompleting]
    exact .inr ((Engine.completed_estimate k hb).resolve_left hnot)
  · refine absurd ?_ hnot
    rcases hw with he | ⟨r, he⟩ | he | ⟨off, -, -, -, he⟩ <;> rw [he]
    · exact (s.engine k).writeCmd_keepsEstimate w
    all_goals exact ⟨rfl, rfl⟩

end Sys2Proof.Machine
end

section
/-!
PROOFS. The statements of spec/44_note.md: the note number and the word that reports it, what NOTE.E
and NOTE.F leave, and the tabled thresholds.
-/

namespace Sys2Proof.Machine

/-! ### The fields of `NOTE_RES` -/

/-- A note of the input range is read back whole from the fields of its word: number, octave and
index (R163). -/
theorem noteWord_readback {n : Int} (hlo : -200 ≤ n) (hhi : n ≤ 172) :
    ((noteWord n).extractLsb' 16 16).toInt = n ∧
      ((noteWord n).extractLsb' 8 8).toInt = Int.fdiv (n + 8) 12 ∧
      (noteWord n).extractLsb' 4 4 = 0 ∧
      (((noteWord n).extractLsb' 0 4).toNat : Int) = Int.fmod (n - 1) 12 := by
  obtain ⟨hnumber, hoctave, hzero, hindex⟩ := noteWord_fields n
  refine ⟨?number, ?octave, hzero, ?index⟩
  case number =>
    rw [hnumber, BitVec.toInt_ofInt]
    apply Int.bmod_eq_of_le <;> omega
  case octave =>
    rw [hoctave, noteOctave_eq, BitVec.toInt_ofInt, Int.fdiv_eq_ediv_of_nonneg _ (by norm_num)]
    apply Int.bmod_eq_of_le <;> omega
  case index =>
    obtain ⟨hnonneg, hle⟩ := noteIndex_bounds n
    rw [hindex, BitVec.toNat_ofInt, Int.fmod_eq_emod_of_nonneg _ (by norm_num), ← noteIndex]
    omega

/-! ### The engine a NOTE leaves -/

/-- A positive frequency is computed and reported (R161 to R163). -/
theorem Engine.noteFor_result (e : Engine) {f : Int} (hpos : 0 < f) (hlt : f < 2 ^ 31) :
    NoteResult f e (e.noteFor f).complete := by
  obtain ⟨m, rfl⟩ := Int.eq_ofNat_of_zero_le hpos.le
  have hm : 0 < m := by omega
  have hm' : m < 2 ^ 31 := by omega
  have hnote := noteNumber_isNoteNumber hm hm'
  obtain ⟨-, -, hlo, hhi⟩ := noteNumber_spec hm hm'
  rw [e.noteFor_done m hpos]
  exact ⟨rfl, noteNumber m, hnote, fun n' h => IsNoteNumber_unique h hnote, hlo, hhi,
    noteWord_readback hlo hhi⟩

/-- A frequency that is not positive is `InvalidInput` and clears `NOTE_VALID` (R165). -/
theorem Engine.noteFor_invalid (e : Engine) {f : Int} (h : f ≤ 0) :
    (e.noteFor f).complete = { e with
      status := { e.status with
        busy := false, err := 2, stage := 0, emitted := false, noteValid := false } } := by
  rw [e.noteFor_raised f h]
  rfl

/-- NOTE.F is the note computation on the latched `FREQ_ARG` (R160). -/
theorem Engine.after_noteF (k : InstanceId) (e : Engine) :
    e.after k .noteF = (e.noteFor e.latched.freqArg.toInt).complete := rfl

/-- On a present estimate NOTE.E is the note computation on it (R160). -/
theorem Engine.after_noteE_present (k : InstanceId) (e : Engine) (h : e.status.feValid = true) :
    e.after k .noteE = (e.noteFor e.fe.toInt).complete := by
  rw [Engine.after, e.noteStage_present h]

/-- Without an estimate NOTE.E clears `NOTE_VALID` and raises nothing (R160). -/
theorem Engine.after_noteE_absent (k : InstanceId) (e : Engine) (h : e.status.feValid = false) :
    e.after k .noteE = { e with
      status := { e.status with
        busy := false, err := 0, stage := 0, emitted := false, noteValid := false } } := by
  rw [Engine.after, e.noteStage_absent h]
  rfl

/-- Settles O28: both commands end in the note computation on a positive 32-bit frequency. -/
theorem noteComputesTheNoteNumber : Obligations.NoteComputesTheNoteNumber := by
  unfold Obligations.NoteComputesTheNoteNumber
  intro s k E
  refine ⟨fun hpos => ?noteF, fun hpresent hpos => ?noteE⟩
  case noteF =>
    refine ⟨E.after k .noteF, exec_eq .noteF s, ?_⟩
    rw [E.after_noteF k]
    exact E.noteFor_result hpos E.latched.freqArg.toInt_lt
  case noteE =>
    refine ⟨E.after k .noteE, exec_eq .noteE s, ?_⟩
    rw [E.after_noteE_present k hpresent]
    exact E.noteFor_result hpos E.fe.toInt_lt

/-- Settles O29: the two ways NOTE.E ends without a result, and the one of NOTE.F. -/
theorem noteWithoutAPositiveFrequency : Obligations.NoteWithoutAPositiveFrequency := by
  unfold Obligations.NoteWithoutAPositiveFrequency
  intro s k E
  refine ⟨fun hle => ?noteF, fun hpresent hle => ?notPositive, fun habsent => ?absent⟩
  case noteF => rw [exec_eq, E.after_noteF k, E.noteFor_invalid hle]
  case notPositive => rw [exec_eq, E.after_noteE_present k hpresent, E.noteFor_invalid hle]
  case absent => rw [exec_eq, E.after_noteE_absent k habsent]

/-! ### The order of the note numbers -/

/-- Settles O30, by the order of the bounds of R161. -/
theorem noteNumberIsMonotone : Obligations.NoteNumberIsMonotone := by
  unfold Obligations.NoteNumberIsMonotone
  intro f g hpos hle hlt
  exact noteNumber_mono hpos hle hlt

/-! ### The thresholds -/

/-- The note number is the one note that is reached while the next is not: two comparisons in place
of the search. -/
theorem noteNumber_eq {f : Nat} {n : Int} (hpos : 0 < f) (hlt : f < 2 ^ 31)
    (hreached : reachesNote f n = true) (hnext : reachesNote f (n + 1) = false) :
    noteNumber f = n := by
  obtain ⟨hreached', hnext', -⟩ := noteNumber_spec hpos hlt
  have hle : ¬ n + 1 ≤ noteNumber f := fun h => by
    rw [reachesNote_mono h hreached'] at hnext
    cases hnext
  have hge : ¬ noteNumber f + 1 ≤ n := fun h => by
    rw [reachesNote_mono h hreached] at hnext'
    cases hnext'
  omega

/-- `f` is the first raw frequency of note `n`, in the comparisons of R161: `f` lies in the note `n`
and `f - 1` in the note below. -/
def startsNote (f : Nat) (n : Int) : Bool :=
  1 < f && f < 2 ^ 31 && reachesNote f n && !reachesNote f (n + 1) &&
    reachesNote (f - 1) (n - 1) && !reachesNote (f - 1) n

theorem noteNumber_of_startsNote {f : Nat} {n : Int} (h : startsNote f n = true) :
    noteNumber f = n ∧ noteNumber (f - 1) = n - 1 := by
  simp only [startsNote, Bool.and_eq_true, decide_eq_true_eq, Bool.not_eq_true'] at h
  obtain ⟨⟨⟨⟨⟨hpos, hlt⟩, hreached⟩, hnext⟩, hbelow⟩, hnot⟩ := h
  exact ⟨noteNumber_eq (by omega) hlt hreached hnext,
    noteNumber_eq (by omega) (by omega) hbelow (by rwa [sub_add_cancel])⟩

/-- The two examples of the source and the ends of the input range. -/
theorem noteNumber_examples :
    noteNumber 1802240 = 49 ∧ noteNumber 1071636 = 40 ∧ noteNumber 1 = -200 ∧
      noteNumber 2 = -188 ∧ noteNumber (2 ^ 31 - 1) = 172 := by
  refine ⟨?_, ?_, ?_, ?_, ?_⟩ <;>
    exact noteNumber_eq (by norm_num) (by norm_num) (by decide +kernel) (by decide +kernel)

/-- Settles O31: the examples are evaluated at their note numbers, and each tabled threshold is
checked to start its note. -/
theorem noteExamplesAndThresholds : Obligations.NoteExamplesAndThresholds := by
  unfold Obligations.NoteExamplesAndThresholds
  obtain ⟨hla, hdo, hfirst, hsecond, hlast⟩ := noteNumber_examples
  rw [hla, hdo, hfirst, hsecond]
  refine ⟨by decide, by decide, by decide, rfl, by decide, rfl, ?rows, hlast⟩
  case rows =>
    intro row hrow
    have hchecked : startsNote row.2.1 row.1 = true ∧
        noteLabel row.1 = row.2.2.1 ∧ noteLabel (row.1 - 1) = row.2.2.2 := by
      revert row
      decide +kernel
    obtain ⟨hstarts, hlabels⟩ := hchecked
    obtain ⟨hnumber, hbelow⟩ := noteNumber_of_startsNote hstarts
    exact ⟨hnumber, hbelow, hlabels⟩

end Sys2Proof.Machine
end

section
/-!
PROOFS. The statements of spec/45_synth.md: the properties of the sine ROM, the tones at simple
fractions of the playback rate, and what SYNTH.E and SYNTH.F leave.
-/

namespace Sys2Proof.Machine

/-! ### The symmetries of the sine ROM -/

/-- The half wave is the same from both ends. -/
theorem halfSine_reflect {j : Nat} (hj : j ≤ 512) : halfSine (512 - j) = halfSine j := by
  unfold halfSine
  rcases lt_trichotomy j 256 with h | rfl | h
  · rw [if_neg (by omega), if_pos h.le, Nat.sub_sub_self hj]
  · rfl
  · rw [if_pos (by omega), if_neg (by omega)]

theorem rom_half : rom 512 = 0 := by
  rw [← Nat.zero_add 512, rom_add_half, rom_zero, neg_zero]

/-- Indices that add up to half a period read the same: the wave is symmetric about its peak. -/
theorem rom_reflect {i j : Nat} (h : (i + j) % 1024 = 512) : rom i = rom j := by
  by_cases hi0 : i % 1024 = 0
  · have hj : j % 1024 = 512 := by omega
    rw [← rom_mod i, ← rom_mod j, hi0, hj, rom_zero, rom_half]
  by_cases hj0 : j % 1024 = 0
  · have hi : i % 1024 = 512 := by omega
    rw [← rom_mod i, ← rom_mod j, hi, hj0, rom_zero, rom_half]
  rw [rom_eq i, rom_eq j]
  by_cases hi : i % 1024 < 512
  · have hj : j % 1024 = 512 - i % 1024 := by omega
    rw [if_pos hi, if_pos (by omega), hj, halfSine_reflect hi.le]
  · have hj : j % 1024 - 512 = 512 - (i % 1024 - 512) := by omega
    rw [if_neg hi, if_neg (by omega), hj, halfSine_reflect (by omega)]

/-- Indices that add up to a whole period read the opposite: the wave is odd. -/
theorem rom_odd {i j : Nat} (h : (i + j) % 1024 = 0) : rom i = - rom j := by
  rw [← rom_add_half]
  exact rom_reflect (by omega)

/-- `COS(i)^2 + SIN(i)^2` has the period of a quarter turn, which swaps the two up to a sign. -/
theorem romPower_periodic : Function.Periodic (fun i => romCos i ^ 2 + romSin i ^ 2) 256 := by
  intro i
  simp only [romCos, romSin, Nat.add_assoc, rom_add_half]
  ring

theorem romPower_bounds (i : Nat) : 268416805 ≤ romCos i ^ 2 + romSin i ^ 2 ∧
    romCos i ^ 2 + romSin i ^ 2 ≤ 268457770 := by
  have hquarter : ∀ j < 256, 268416805 ≤ romCos j ^ 2 + romSin j ^ 2 ∧
      romCos j ^ 2 + romSin j ^ 2 ≤ 268457770 := by decide +kernel
  have hi := hquarter (i % 256) (Nat.mod_lt _ (by norm_num))
  rwa [romPower_periodic.map_mod_nat i] at hi

/-- Settles O35: the sums are evaluated; the rest are the two symmetries of the wave and the bounds
over its quarters. -/
theorem sineRomHasTheStatedProperties : Obligations.SineRomHasTheStatedProperties := by
  unfold Obligations.SineRomHasTheStatedProperties
  refine ⟨by decide +kernel, by decide +kernel, fun i hi => ?entry, by decide +kernel⟩
  case entry =>
    refine ⟨abs_le.mpr (rom_bounds i), rom_reflect (by omega), ?_, rom_odd (by omega),
      rom_reflect (by omega), romPower_bounds i⟩
    rw [rom_mod, rom_add_half]

/-! ### Tones at simple fractions of the playback rate -/

/-- A whole multiple of the playback rate is a whole number of turns per sample (R174 (e)). -/
theorem tuningWord_add_turns (f m : Int) {Rs : Nat} (h : 0 < Rs) :
    tuningWord (f + 4096 * m * Rs) Rs = tuningWord f Rs := by
  have hpos : ((4096 * Rs : Nat) : Int) ≠ 0 := by positivity
  have hturns : (f + 4096 * m * Rs) * 2 ^ 32 / ((4096 * Rs : Nat) : Int) =
      f * 2 ^ 32 / ((4096 * Rs : Nat) : Int) + m * 2 ^ 32 := by
    rw [← Int.add_mul_ediv_right _ _ hpos]
    congr 1
    push_cast
    ring
  unfold tuningWord
  rw [Config.params_phaseW, Config.params_frac, show 2 ^ 12 = 4096 by norm_num, hturns,
    Int.add_mul_emod_self_right]

/-- `q` quarters of the playback rate are `q` quarter turns per sample, exactly. -/
theorem tuningWord_quarters {q Rs : Nat} (hq : q < 4) (h : 0 < Rs) :
    tuningWord (q * 1024 * Rs) Rs = q * 2 ^ 30 := by
  have hpos : ((4096 * Rs : Nat) : Int) ≠ 0 := by positivity
  have hexact : (q * 1024 * Rs : Int) * 2 ^ 32 / ((4096 * Rs : Nat) : Int) = q * 2 ^ 30 := by
    rw [show (q * 1024 * Rs : Int) * 2 ^ 32 = q * 2 ^ 30 * ((4096 * Rs : Nat) : Int) by
      push_cast; ring]
    exact Int.mul_ediv_cancel _ hpos
  unfold tuningWord
  rw [Config.params_phaseW, Config.params_frac, show 2 ^ 12 = 4096 by norm_num, hexact]
  omega

/-- The ROM at whole quarter turns. -/
theorem rom_quarterTurns (j : Nat) : rom (j * 256) = [0, 16384, 0, -16384].getD (j % 4) 0 := by
  have hturn : ∀ r < 4, rom (r * 256) = [0, 16384, 0, -16384].getD r 0 := by decide +kernel
  rw [← hturn (j % 4) (Nat.mod_lt _ (by norm_num)), ← rom_mod, ← Nat.mul_mod_mul_right]

/-- At `q` quarters of the playback rate sample `n` stands at `n * q` quarter turns. -/
theorem toneValue_quarters {f : Int} {q Rs : Nat} (n : Nat) (hf : f = q * 1024 * Rs) (hq : q < 4)
    (h : 0 < Rs) :
    toneValue (tuningWord f Rs) n = [0, 16384, 0, -16384].getD (n * q % 4) 0 := by
  rw [hf, tuningWord_quarters hq h, toneValue_eq, ← rom_quarterTurns, ← rom_mod (n * q * 256)]
  congr 1
  rw [← Nat.mul_assoc]
  omega

/-- Settles O34: the three fractions are 0, 1 and 2 quarters of the rate. -/
theorem synthAtSimpleFractionsOfTheRate : Obligations.SynthAtSimpleFractionsOfTheRate := by
  unfold Obligations.SynthAtSimpleFractionsOfTheRate
  intro Rs n h
  refine ⟨?zero, ?quarter, ?half, fun f m => ?turns⟩
  case zero =>
    rw [toneValue_quarters (q := 0) n (by simp) (by norm_num) h, Nat.mul_zero]
    rfl
  case quarter => rw [toneValue_quarters (q := 1) n (by simp) (by norm_num) h, Nat.mul_one]
  case half =>
    rw [toneValue_quarters (q := 2) n (by norm_num) (by norm_num) h]
    rcases (by omega : n * 2 % 4 = 0 ∨ n * 2 % 4 = 2) with hstart | hhalf
    · rw [hstart]; rfl
    · rw [hhalf]; rfl
  case turns => rw [tuningWord_add_turns f m h]

/-! ### The engine a SYNTH leaves -/

/-- SYNTH.F is the synthesis of the latched `FREQ_ARG` (R170). -/
theorem Engine.after_synthF (k : InstanceId) (e : Engine) :
    e.after k .synthF = (e.synthesize (some e.latched.freqArg.toInt)).complete := rfl

/-- On a present estimate SYNTH.E is the synthesis of it (R170). -/
theorem Engine.after_synthE_present (k : InstanceId) (e : Engine) (h : e.status.feValid = true) :
    e.after k .synthE = (e.synthesize (some e.fe.toInt)).complete := by
  rw [Engine.after, e.estimate_eq, if_pos h]

/-- Without an estimate SYNTH.E is `NoFundamentalError`, with nothing written (R171). -/
theorem Engine.after_synthE_absent (k : InstanceId) (e : Engine) (h : e.status.feValid = false) :
    e.after k .synthE = { e with
      status := { e.status with busy := false, err := 3, stage := 0, emitted := false } } := by
  rw [Engine.after, e.estimate_eq, h]
  rfl

/-- At rate 0 a frequency is `InvalidInput`, with nothing written (R171). -/
theorem Engine.synthesize_invalid (e : Engine) (f : Int) (h : e.latched.synthRate = 0) :
    (e.synthesize (some f)).complete = { e with
      status := { e.status with busy := false, err := 2, stage := 0, emitted := false } } := by
  have hrate : e.synthRateOp = 0 := by rw [Engine.synthRateOp, h]; rfl
  rw [e.synthesize_noRate f hrate]
  rfl

/-- The commit of R172: the samples into `TONE`, their number, and the status. -/
theorem Engine.synthesize_commit (e : Engine) (f : Int) (h : e.synthRateOp ≠ 0) :
    (e.synthesize (some f)).complete =
      { e.fill .tone ((List.range e.synthCountOp).map (toneValue (tuningWord f e.synthRateOp))) with
        toneLen := BitVec.ofNat 16 e.synthCountOp
        status := e.status.completed 0 0 false } := by
  rw [e.synthesize_done f h, StageEnd.complete_eq]
  rfl

theorem Space.tone_limit : Space.tone.limit = 0x40000 := rfl

/-- At a rate other than 0 the synthesis leaves the tone of R172. -/
theorem Engine.synthesize_toneResult (k : InstanceId) (e : Engine) (f : Int)
    (h : e.synthRateOp ≠ 0) : ToneResult k f e (e.synthesize (some f)).complete := by
  obtain ⟨q, hlow, hhigh, hdvd⟩ := tuningWord_spec f e.synthRateOp (Nat.pos_of_ne_zero h)
  refine ⟨?registers, ?length,
    ⟨q, tuningWord f e.synthRateOp, hlow, hhigh, tuningWord_lt _ _, hdvd, fun n hn => ?sample⟩,
    fun off hlo hhi => ?tail, fun off hoff => ?bytes⟩
  case registers =>
    rw [e.synthesize_commit f h]
    rfl
  case length =>
    rw [e.synthesize_commit f h]
    exact (BitVec.toNat_ofNat _ _).trans (Nat.mod_eq_of_lt e.latched.synthCount.isLt)
  case sample =>
    rw [StageEnd.complete_toneSample,
      e.synthesize_toneSample k f h n hn (toneValue_bounds _ n), toneValue_eq]
  case tail =>
    rw [e.synthesize_commit f h]
    exact (e.fill_clearFrom .tone _).of_eq (n' := e.synthCountOp) (by simp) off hlo hhi
  case bytes =>
    have htone : Space.tone.holds off = false :=
      Space.holds_eq_false (by rw [Space.tone_limit, Space.base]; omega)
    rw [StageEnd.complete_byteAt, e.synthesize_byteAt k (some f) off htone]

theorem ToneResult.err {k : InstanceId} {f : Int} {e t : Engine} (h : ToneResult k f e t) :
    t.status.err = 0 := by
  obtain ⟨hregisters, -⟩ := h
  rw [hregisters]

/-- Settles O32: both commands end in the synthesis of a frequency at a rate other than 0. -/
theorem synthWritesThePhaseAccumulatorTone : Obligations.SynthWritesThePhaseAccumulatorTone := by
  unfold Obligations.SynthWritesThePhaseAccumulatorTone
  intro s k E hrate
  refine ⟨⟨E.after k .synthF, exec_eq .synthF s, ?synthF⟩,
    fun hpresent => ⟨E.after k .synthE, exec_eq .synthE s, ?synthE⟩⟩
  case synthF =>
    rw [E.after_synthF k]
    exact E.synthesize_toneResult k _ hrate
  case synthE =>
    rw [E.after_synthE_present k hpresent]
    exact E.synthesize_toneResult k _ hrate

/-- Settles O33: the two errors of R171, each of which writes the status alone, and `ERR` = 0 where
O32 gives a tone. -/
theorem synthErrorsInOrder : Obligations.SynthErrorsInOrder := by
  unfold Obligations.SynthErrorsInOrder
  intro s k E
  refine ⟨fun habsent => ?absent, fun hpresent hzero => ?rateE, fun hzero => ?rateF,
    fun hrate => ?tone⟩
  case absent => rw [exec_eq, E.after_synthE_absent k habsent]
  case rateE => rw [exec_eq, E.after_synthE_present k hpresent, E.synthesize_invalid _ hzero]
  case rateF => rw [exec_eq, E.after_synthF k, E.synthesize_invalid _ hzero]
  case tone =>
    have hrate' : E.latched.synthRate.toNat ≠ 0 := fun h0 => hrate (BitVec.eq_of_toNat_eq h0)
    obtain ⟨⟨T, hexec, hT⟩, hsynthE⟩ := synthWritesThePhaseAccumulatorTone s hrate'
    refine ⟨⟨T, hexec, hT.err⟩, fun hpresent => ?_⟩
    obtain ⟨U, hexec', hU⟩ := hsynthE hpresent
    exact ⟨U, hexec', hU.err⟩

end Sys2Proof.Machine
end

section
/-!
PROOFS. The statements of spec/46_config.md: the band SETBAND.MIN and SETBAND.MAX store, the engine
INIT leaves, and the noise threshold no command reads.
-/

namespace Sys2Proof.Machine

/-! ### The engine a SETBAND leaves -/

/-- `t` is `e` with the band from `lo` to `hi` stored exactly, and completed with the error code
`err` (R181, R182): no other field differs. -/
def BandStored (lo hi : Int) (err : BitVec 4) (e t : Engine) : Prop :=
  t.minFreq.toInt = lo ∧ t.maxFreq.toInt = hi ∧
    t = { e with
      minFreq := t.minFreq, maxFreq := t.maxFreq
      status := { e.status with busy := false, err := err, stage := 0, emitted := false } }

/-- An operation that writes a band which fits the registers completes with it stored (R183 (b)). -/
theorem StageEnd.complete_bandStored {x : StageEnd} {e : Engine} {lo hi : Int}
    (hx : x.engine = e.withBand lo hi) (hlo : -2 ^ 31 ≤ lo ∧ lo < 2 ^ 31)
    (hhi : -2 ^ 31 ≤ hi ∧ hi < 2 ^ 31) : BandStored lo hi x.code e x.complete := by
  rw [x.complete_eq, hx]
  exact ⟨toInt_ofInt_of_fits hlo.1 hlo.2, toInt_ofInt_of_fits hhi.1 hhi.2, rfl⟩

/-- A request that keeps `min < max` is stored as it stands, whatever the clamp (R181). -/
theorem Engine.setBand_storesRequest (e : Engine) (clamp : Int → Int → Int × Int)
    (h : e.reqMinOp < e.reqMaxOp) :
    BandStored e.reqMinOp e.reqMaxOp 0 e (e.setBand clamp).complete := by
  have hmin := e.reqMinOp_bounds
  have hmax := e.reqMaxOp_bounds
  rw [e.setBand_done clamp h]
  exact StageEnd.complete_bandStored rfl (by omega) (by omega)

/-- Any other request is answered by the band of the clamp, stored with `RejectedClamp`, as long as
that band fits the registers (R182). -/
theorem Engine.setBand_storesClamp (e : Engine) {clamp : Int → Int → Int × Int} {lo hi : Int}
    (h : e.reqMaxOp ≤ e.reqMinOp) (hclamp : clamp e.reqMinOp e.reqMaxOp = (lo, hi))
    (hlo : -2 ^ 31 ≤ lo ∧ lo < 2 ^ 31) (hhi : -2 ^ 31 ≤ hi ∧ hi < 2 ^ 31) :
    BandStored lo hi 4 e (e.setBand clamp).complete := by
  rw [e.setBand_raised clamp h, hclamp]
  exact StageEnd.complete_bandStored rfl hlo hhi

/-- The two commands differ in the clamp alone (R180). -/
theorem Engine.after_setband {i : Instr} (hi : i ∈ [Instr.setbandMin, .setbandMax]) (k : InstanceId)
    (e : Engine) : ∃ clamp, e.after k i = (e.setBand clamp).complete := by
  rcases List.mem_pair.mp hi with rfl | rfl
  · exact ⟨_, rfl⟩
  · exact ⟨_, rfl⟩

/-- On a conflict SETBAND.MIN puts the minimum 100 Hz below the maximum (R182). -/
theorem Engine.after_setbandMin_conflict (k : InstanceId) (e : Engine)
    (h : e.reqMaxOp ≤ e.reqMinOp) :
    BandStored (e.reqMaxOp - 409600) e.reqMaxOp 4 e (e.after k .setbandMin) := by
  have hmax := e.reqMaxOp_bounds
  exact e.setBand_storesClamp h (by rw [clampDelta_eq]) (by omega) (by omega)

/-- On a conflict SETBAND.MAX puts the maximum 100 Hz above the minimum (R182). -/
theorem Engine.after_setbandMax_conflict (k : InstanceId) (e : Engine)
    (h : e.reqMaxOp ≤ e.reqMinOp) :
    BandStored e.reqMinOp (e.reqMinOp + 409600) 4 e (e.after k .setbandMax) := by
  have hmin := e.reqMinOp_bounds
  exact e.setBand_storesClamp h (by rw [clampDelta_eq]) (by omega) (by omega)

/-- Settles O36: on a request that is in order neither clamp is used. -/
theorem setbandAppliesAValidBand : Obligations.SetbandAppliesAValidBand := by
  unfold Obligations.SetbandAppliesAValidBand
  intro s k E a b hlt i hi
  obtain ⟨clamp, hafter⟩ := E.after_setband hi k
  refine ⟨E.after k i, exec_eq i s, ?_⟩
  rw [hafter]
  exact E.setBand_storesRequest clamp hlt

/-- Settles O37: the clamp of each of the two commands. -/
theorem setbandClampsAConflict : Obligations.SetbandClampsAConflict := by
  unfold Obligations.SetbandClampsAConflict
  intro s k E a b hle c hc
  refine ⟨E.after k c.1, exec_eq c.1 s, ?_⟩
  rcases List.mem_pair.mp hc with rfl | rfl
  · exact E.after_setbandMin_conflict k hle
  · exact E.after_setbandMax_conflict k hle

/-! ### The engine an INIT leaves -/

/-- INIT leaves the reset state in new generations, but for its own word in `CMD` (R184). -/
theorem Engine.after_init (k : InstanceId) (e : Engine) :
    e.after k .init = { Engine.resetIn e.epochs.bumpAll with cmd := 0x00000009 } := by
  rw [Engine.after, encode_eq_tableWord]
  rfl

/-- A reset leaves no space in its generation. -/
theorem Epochs.bumpAll_ne (ep : Epochs) : ep.bumpAll.raw ≠ ep.raw ∧ ep.bumpAll.frm ≠ ep.frm ∧
    ep.bumpAll.spectrum ≠ ep.spectrum ∧ ep.bumpAll.cb ≠ ep.cb ∧ ep.bumpAll.tone ≠ ep.tone :=
  ⟨Nat.succ_ne_self _, Nat.succ_ne_self _, Nat.succ_ne_self _, Nat.succ_ne_self _,
    Nat.succ_ne_self _⟩

/-- Settles O38. -/
theorem initRestoresTheResetState : Obligations.InitRestoresTheResetState := by
  unfold Obligations.InitRestoresTheResetState
  intro s
  have hword : Status.reset.word = 0 := by decide
  refine ⟨_, exec_eq .init s, ?_⟩
  rw [Engine.after_init]
  exact ⟨rfl, hword, rfl, Epochs.bumpAll_ne _⟩

/-! ### The noise threshold -/

/-- INIT overwrites `NOISE_THR`, so it does not read it. -/
theorem Engine.after_init_noiseThr (k : InstanceId) (e : Engine) (v : Word) :
    ({ e with noiseThr := v } : Engine).after k .init = { e.after k .init with noiseThr := 0 } :=
  rfl

/-- Settles O39: `NOISE_THR` passes through every command but INIT, which clears it; the host
accesses are the rules for the register at 0x2C. -/
theorem noiseThresholdIsCosmetic : Obligations.NoiseThresholdIsCosmetic := by
  unfold Obligations.NoiseThresholdIsCosmetic
  refine ⟨fun i s v => ?command, hostWrite_noiseThr,
    fun s k hb => hostRead_register s k .noiseThr hb⟩
  case command =>
    refine ⟨_, exec_eq i s, ?_⟩
    rw [exec_eq, State.setEngine_active, State.engine_setEngine_same, State.setEngine_setEngine]
    by_cases hi : i = .init
    · subst hi
      rw [if_pos rfl, Engine.after_init_noiseThr]
    · rw [if_neg hi, Engine.after_noiseThr _ _ _ i hi]

end Sys2Proof.Machine
end

section
/-!
PROOFS. The statements of spec/47_tick.md: where a TICK can end and what it has written by then, that
a run of TICKs keeps the Candidate Buffer short, when a TICK goes through all five stages, and that it
is the sequence of its five commands.
-/

namespace Sys2Proof.Machine

/-! ### Bytes outside a window -/

/-- `t` reads like `e` at every offset outside `[lo, hi)`. -/
def Engine.SameOutside (k : InstanceId) (lo hi : Nat) (e t : Engine) : Prop :=
  ∀ off, ¬ (lo ≤ off ∧ off < hi) → t.byteAt k off = e.byteAt k off

theorem Engine.SameOutside.trans {k : InstanceId} {lo hi : Nat} {e t u : Engine}
    (h : e.SameOutside k lo hi t) (h' : t.SameOutside k lo hi u) : e.SameOutside k lo hi u :=
  fun off hoff => (h' off hoff).trans (h off hoff)

theorem Engine.SameOutside.mono {k : InstanceId} {lo hi lo' hi' : Nat} {e t : Engine}
    (h : e.SameOutside k lo hi t) (hlo : lo' ≤ lo) (hhi : hi ≤ hi') : e.SameOutside k lo' hi' t :=
  fun off hoff => h off (by omega)

theorem Engine.decodeStage_sameOutside (k : InstanceId) (e : Engine) :
    e.SameOutside k 0x4000 0x5000 (e.decodeStage k).engine := fun off hoff =>
  e.decodeStage_byteAt k off
    (Space.holds_eq_false (by rw [Space.frm_limit, Space.base]; omega))

theorem Engine.transformStage_sameOutside (k : InstanceId) (e : Engine) :
    e.SameOutside k 0x5000 0x8000 (e.transformStage k).engine := fun off hoff =>
  e.transformStage_byteAt k off
    (Space.holds_eq_false (by rw [Space.bin_limit, Space.base]; omega))
    (Space.holds_eq_false (by rw [Space.mag_limit, Space.base]; omega))

theorem Engine.selectStage_sameOutside (k : InstanceId) (e : Engine) :
    e.SameOutside k 0x8000 0x9000 (e.selectStage k).engine := fun off hoff =>
  e.selectStage_byteAt k off
    (Space.holds_eq_false (by rw [Space.cb_limit, Space.base]; omega))

theorem Engine.emitStage_sameOutside (k : InstanceId) (e : Engine) :
    e.SameOutside k 0x8000 0x9000 (e.emitStage k) := fun off hoff =>
  e.emitStage_byteAt k off
    (Space.holds_eq_false (by rw [Space.cb_limit, Space.base]; omega))

/-- Bytes kept from `CB` on are buffered candidates kept. -/
theorem Engine.SameOutside.candidate {k : InstanceId} {lo : Nat} {e t : Engine}
    (h : e.SameOutside k lo 0x8000 t) {i : Nat} (hi : i < 1024) :
    t.candidate k i = e.candidate k i := by
  have helem : t.elem k .cb i = e.elem k .cb i :=
    Engine.elem_keep k (sp := .cb) hi fun off hoff => h off (by
      rw [Space.holds_iff, Space.base] at hoff
      omega)
  rw [Engine.candidate, helem, Engine.candidate]

/-! ### What the stages of a TICK have written -/

/-- `t` is `e` after a stage 1 that is done: the frame and its length are new (R124). -/
structure Engine.Decoded (k : InstanceId) (e t : Engine) : Prop where
  registers : t = { e with frmLen := t.frmLen, mem := t.mem, epochs := t.epochs }
  length : t.frmLen.toNat = e.rawLenOp / (e.widthOp * e.channelsOp)
  length_le : t.frmLen.toNat ≤ 1024
  bytes : e.SameOutside k 0x4000 0x5000 t

theorem Engine.decoded {k : InstanceId} {e e1 : Engine} (h : e.decodeStage k = .done e1) :
    e.Decoded k e1 := by
  obtain ⟨hdecodable, hlength⟩ := Engine.decodeStage_succeeds h
  obtain ⟨n, m, ep, hregisters⟩ := e.decodeStage_frame k
  have hbytes := e.decodeStage_sameOutside k
  rw [h, StageEnd.engine_done] at hregisters hbytes
  refine ⟨?registers, hlength, ?short, hbytes⟩
  case registers => rw [hregisters]
  case short =>
    rw [hlength]
    exact decodable_count hdecodable

theorem Engine.Decoded.cbLen {k : InstanceId} {e e1 : Engine} (h : e.Decoded k e1) :
    e1.cbLen = e.cbLen := by rw [h.registers]

/-- `t` is `e` after stages 1 and 2 that are done: frame and spectrum are new (R124, R135). -/
structure Engine.Transformed (k : InstanceId) (e t : Engine) : Prop where
  registers : t = { e with
    frmLen := t.frmLen, specLen := t.specLen, mem := t.mem, epochs := t.epochs }
  length : t.frmLen.toNat = e.rawLenOp / (e.widthOp * e.channelsOp)
  supported : supportedLength t.frmLen.toNat = true
  spectrum : t.specLen.toNat = t.frmLen.toNat / 2 + 1
  bins : ∀ j ≤ t.frmLen.toNat / 2, t.binFreq k j = binRaw e.rateOp t.frmLen.toNat j
  bytes : e.SameOutside k 0x4000 0x8000 t

theorem Engine.Decoded.transformed {k : InstanceId} {e e1 e2 : Engine} (hd : e.Decoded k e1)
    (h : e1.transformStage k = .done e2) : e.Transformed k e2 := by
  obtain ⟨hsupported, hspectrum, -⟩ := Engine.transformStage_succeeds h
  obtain ⟨n, m, ep, hregisters⟩ := e1.transformStage_frame k
  have hbins := e1.transformStage_binFreq k hsupported
  have hbytes := e1.transformStage_sameOutside k
  rw [h, StageEnd.engine_done] at hregisters hbins hbytes
  have hframe : e2.frmLen = e1.frmLen := by rw [hregisters]
  have hrate : e1.rateOp = e.rateOp := by rw [hd.registers]; rfl
  rw [← hframe] at hsupported hspectrum hbins
  rw [hrate] at hbins
  refine ⟨?registers, ?length, hsupported, hspectrum, hbins,
    (hd.bytes.mono le_rfl (by norm_num)).trans (hbytes.mono (by norm_num) le_rfl)⟩
  case registers =>
    rw [hregisters, hd.registers]
  case length =>
    rw [hframe]
    exact hd.length

theorem Engine.Transformed.cbLen {k : InstanceId} {e e2 : Engine} (h : e.Transformed k e2) :
    e2.cbLen = e.cbLen := by rw [h.registers]

/-- A spectrum of a supported length has at most 513 bins, so as many candidates. -/
theorem Engine.Transformed.newCandidates_le {k : InstanceId} {e e2 : Engine}
    (h : e.Transformed k e2) : (e2.newCandidates k).length ≤ 513 :=
  calc (e2.newCandidates k).length ≤ e2.specLen.toNat := e2.newCandidates_length_le k
    _ = e2.frmLen.toNat / 2 + 1 := h.spectrum
    _ ≤ 513 := supportedLength_count h.supported

/-- `t` is `e` after stages 1 to 4 that are done, `em` telling whether stage 4 emitted: if it did, the
buffer is empty and the estimate present; if not, the estimate is the old one and the buffer has grown
to at most three (R144, R151). -/
structure Engine.Smoothed (k : InstanceId) (e t : Engine) (em : Bool) : Prop where
  registers : t = { e with
    frmLen := t.frmLen, specLen := t.specLen, cbLen := t.cbLen, fe := t.fe, mem := t.mem
    epochs := t.epochs, status := { e.status with feValid := t.status.feValid } }
  length : t.frmLen.toNat = e.rawLenOp / (e.widthOp * e.channelsOp)
  spectrum : t.specLen.toNat = t.frmLen.toNat / 2 + 1
  emitted : em = true → t.cbLen = 0 ∧ t.status.feValid = true
  kept : em = false → e.cbLen.toNat ≤ t.cbLen.toNat ∧ t.cbLen.toNat ≤ 3 ∧ e.KeepsEstimate t
  bytes : e.SameOutside k 0x4000 0x9000 t

/-- What an emission clears, and what no emission keeps (R151). -/
theorem Engine.emitStage_buffer (k : InstanceId) (e : Engine) :
    (e.emits = true → (e.emitStage k).cbLen = 0 ∧ (e.emitStage k).status.feValid = true) ∧
      (e.emits = false → e.emitStage k = e ∧ e.cbLen.toNat ≤ 3) := by
  refine ⟨fun h => ?emits, fun h => ⟨e.emitStage_keep k h, e.emits_eq_false_iff.mp h⟩⟩
  case emits =>
    rw [e.emitStage_emit k h]
    exact ⟨rfl, rfl⟩

theorem Engine.Transformed.smoothed {k : InstanceId} {e e2 e3 : Engine} (ht : e.Transformed k e2)
    (h : e2.selectStage k = .done e3) : e.Smoothed k (e3.emitStage k) e3.emits := by
  obtain ⟨-, hgrown⟩ := Engine.selectStage_succeeds h
  obtain ⟨b, m, hselect⟩ := e2.selectStage_frame k
  obtain ⟨f, b', m', ep, v, hemit⟩ := e3.emitStage_frame k
  obtain ⟨hemitted, hkept⟩ := e3.emitStage_buffer k
  have hbytes := e2.selectStage_sameOutside k
  rw [h, StageEnd.engine_done] at hselect hbytes
  refine ⟨?registers, ?length, ?spectrum, hemitted, ?kept,
    (ht.bytes.mono le_rfl (by norm_num)).trans
      ((hbytes.trans (e3.emitStage_sameOutside k)).mono (by norm_num) le_rfl)⟩
  case registers =>
    rw [hemit, hselect, ht.registers]
  case length =>
    rw [hemit, hselect]
    exact ht.length
  case spectrum =>
    rw [hemit, hselect]
    exact ht.spectrum
  case kept =>
    intro hem
    obtain ⟨hsame, hshort⟩ := hkept hem
    rw [ht.cbLen] at hgrown
    rw [hsame]
    refine ⟨by omega, hshort, ?estimate⟩
    rw [hselect, ht.registers]
    exact ⟨rfl, rfl⟩

/-- With either outcome of stage 4 the buffer is short. -/
theorem Engine.Smoothed.cbLen_le {k : InstanceId} {e t : Engine} {em : Bool}
    (h : e.Smoothed k t em) : t.cbLen.toNat ≤ 3 := by
  cases em with
  | true =>
    rw [(h.emitted rfl).1]
    decide
  | false => exact (h.kept rfl).2.1

/-! ### Where a TICK ends -/

/-- The five ends of a TICK from `e` (R191, R192): the engine it leaves, why it ends there, and what
the stages before have done. -/
inductive TickEnd (k : InstanceId) (e : Engine) : Engine → Prop
  | undecodable
      (hfails : decodable e.rawLenOp e.widthOp e.channelsOp e.frameLenOp = false) :
      TickEnd k e (e.raise .decodeError 1 false)
  | empty {e1 : Engine} (hdecoded : e.Decoded k e1) (hempty : e1.frmLen.toNat = 0) :
      TickEnd k e (e1.raise .invalidInput 2 false)
  | unsupported {e1 : Engine} (hdecoded : e.Decoded k e1)
      (hlength : supportedLength e1.frmLen.toNat = false) :
      TickEnd k e (e1.raise .unsupportedLength 2 false)
  | full {e2 : Engine} (htransformed : e.Transformed k e2)
      (hfull : 1024 < e2.cbLen.toNat + (e2.newCandidates k).length) :
      TickEnd k e (e2.raise .capacityError 3 false)
  | notPositive {e2 e3 : Engine} (htransformed : e.Transformed k e2)
      (hselected : e2.selectStage k = .done e3)
      (hpresent : (e3.emitStage k).status.feValid = true) (hle : (e3.emitStage k).fe.toInt ≤ 0) :
      TickEnd k e (((e3.emitStage k).withNoteValid false).raise .invalidInput 5 e3.emits)
  | completed {e2 e3 e5 : Engine} (htransformed : e.Transformed k e2)
      (hselected : e2.selectStage k = .done e3) (hnoted : (e3.emitStage k).noteStage = .done e5) :
      TickEnd k e (e5.done e3.emits)

/-- What a raise of the note operation says (R165). -/
theorem Engine.noteStage_raises {e e1 : Engine} {kind : ErrorKind}
    (h : e.noteStage = .raised kind e1) : kind = .invalidInput ∧ e1 = e.withNoteValid false ∧
      e.status.feValid = true ∧ e.fe.toInt ≤ 0 := by
  rcases e.noteStage_cases with ⟨-, hdone⟩ | ⟨hpresent, hle, hraised⟩ | ⟨-, -, hdone⟩
  · rw [hdone] at h; cases h
  · rw [hraised] at h
    cases h
    exact ⟨rfl, rfl, hpresent, hle⟩
  · rw [hdone] at h; cases h

/-- What a success of the note operation says: `NOTE_VALID` follows `FE_VALID`, and `NOTE_RES` is that
of the estimate, which is then positive, or stays (R160, R163). -/
theorem Engine.noteStage_succeeds {e e1 : Engine} (h : e.noteStage = .done e1) :
    e1 = { e with
      noteRes := e1.noteRes, status := { e.status with noteValid := e.status.feValid } } ∧
      (e.status.feValid = true →
        0 < e.fe.toInt ∧ e1.noteRes = noteWord (noteNumber e.fe.toInt.toNat)) ∧
      (e.status.feValid = false → e1.noteRes = e.noteRes) := by
  rcases e.noteStage_cases with ⟨habsent, hdone⟩ | ⟨-, -, hraised⟩ | ⟨hpresent, hpos, hdone⟩
  · rw [hdone] at h
    cases h
    rw [habsent]
    exact ⟨rfl, nofun, fun _ => rfl⟩
  · rw [hraised] at h
    cases h
  · rw [hdone] at h
    cases h
    rw [hpresent]
    exact ⟨rfl, fun _ => ⟨hpos, rfl⟩, nofun⟩

/-- A TICK ends at one of its five ends: each raise for the reason its stage gives. -/
theorem Engine.tickPass_end (k : InstanceId) (e : Engine) : TickEnd k e (e.tickPass k) := by
  rcases e.tickPass_cases k with ⟨kind, e1, h1, hend⟩ | ⟨e1, h1, htail⟩
  · obtain ⟨rfl, rfl, hfails⟩ := Engine.decodeStage_raises h1
    exact hend ▸ .undecodable hfails
  have hdecoded := Engine.decoded h1
  rcases htail with ⟨kind, e2, h2, hend⟩ | ⟨e2, h2, htail⟩
  · obtain ⟨rfl, ⟨rfl, hempty⟩ | ⟨rfl, -, hlength⟩⟩ := Engine.transformStage_raises h2
    · exact hend ▸ .empty hdecoded hempty
    · exact hend ▸ .unsupported hdecoded hlength
  have htransformed := hdecoded.transformed h2
  rcases htail with ⟨kind, e3, h3, hend⟩ | ⟨e3, h3, htail⟩
  · obtain ⟨rfl, rfl, hfull⟩ := Engine.selectStage_raises h3
    exact hend ▸ .full htransformed hfull
  rcases htail with ⟨kind, e5, h5, hend⟩ | ⟨e5, h5, hend⟩
  · obtain ⟨rfl, rfl, hpresent, hle⟩ := Engine.noteStage_raises h5
    exact hend ▸ .notPositive htransformed h3 hpresent hle
  · exact hend ▸ .completed htransformed h3 h5

/-- Every TICK completes, at one of its five ends. -/
theorem exec_tick_end (s : State) : ∃ T, exec .tick s = .next (s.setEngine s.active T) ∧
    TickEnd s.active (s.engine s.active) T :=
  ⟨_, exec_eq .tick s, (s.engine s.active).tickPass_end s.active⟩

/-- A length that stage 2 does not support is no power of two: the frame holds at most 1024
samples. -/
theorem Engine.Decoded.not_power {k : InstanceId} {e e1 : Engine} (h : e.Decoded k e1)
    (hlength : supportedLength e1.frmLen.toNat = false) : ¬ ∃ g, e1.frmLen.toNat = 2 ^ g := by
  rintro ⟨g, hg⟩
  have hpow : 2 ^ g ≤ 2 ^ 10 := hg ▸ h.length_le
  have hg10 : g ≤ 10 := (Nat.pow_le_pow_iff_right (by norm_num)).mp hpow
  rw [(supportedLength_iff _).mpr ⟨g, hg10, hg⟩] at hlength
  cases hlength

/-- Stage 3 has room for its candidates unless 512 or more are buffered already. -/
theorem Engine.Transformed.buffered_of_full {k : InstanceId} {e e2 : Engine}
    (h : e.Transformed k e2) (hfull : 1024 < e2.cbLen.toNat + (e2.newCandidates k).length) :
    511 < e.cbLen.toNat := by
  have hnew := h.newCandidates_le
  rw [h.cbLen] at hfull
  omega

/-- Settles O42: the five ends of a TICK, each with what the stages before it have done. -/
theorem tickErrorsAndPartialEffects : Obligations.TickErrorsAndPartialEffects := by
  unfold Obligations.TickErrorsAndPartialEffects
  intro s k E
  obtain ⟨T, hexec, hend⟩ := exec_tick_end s
  refine ⟨T, hexec, ?_⟩
  cases hend with
  | completed _ _ _ => exact .inl ⟨rfl, rfl⟩
  | undecodable _ => exact .inr (.inl ⟨rfl, rfl, rfl⟩)
  | empty hdecoded hempty =>
    exact .inr (.inr (.inl ⟨rfl, .inl ⟨rfl, BitVec.eq_of_toNat_eq hempty⟩,
      congrArg (Engine.raise · .invalidInput 2 false) hdecoded.registers, hdecoded.bytes⟩))
  | unsupported hdecoded hlength =>
    exact .inr (.inr (.inl ⟨rfl, .inr ⟨rfl, hdecoded.not_power hlength⟩,
      congrArg (Engine.raise · .unsupportedLength 2 false) hdecoded.registers, hdecoded.bytes⟩))
  | full htransformed hfull =>
    exact .inr (.inr (.inr (.inl ⟨rfl, rfl, htransformed.buffered_of_full hfull,
      congrArg (Engine.raise · .capacityError 3 false) htransformed.registers,
      htransformed.bytes⟩)))
  | @notPositive e2 e3 htransformed hselected hpresent hle =>
    have hsmoothed := htransformed.smoothed hselected
    have hregisters := hsmoothed.registers
    rw [hpresent] at hregisters
    refine .inr (.inr (.inr (.inr ⟨rfl, rfl, hle,
      congrArg (fun t => (Engine.withNoteValid t false).raise .invalidInput 5 e3.emits) hregisters,
      fun hem => (hsmoothed.emitted hem).1, fun hem => ?kept, hsmoothed.bytes⟩)))
    case kept =>
      obtain ⟨hgrown, hshort, hfe, hvalid⟩ := hsmoothed.kept hem
      exact ⟨hfe, hvalid.symm.trans hpresent, hgrown, hshort⟩

/-- Settles O43: stage 3 does not raise on a short buffer, and a TICK that reaches stage 4 leaves a
short one. -/
theorem tickKeepsTheBufferShort : Obligations.TickKeepsTheBufferShort := by
  unfold Obligations.TickKeepsTheBufferShort
  intro s hshort
  obtain ⟨T, hexec, hend⟩ := exec_tick_end s
  refine ⟨T, hexec, ?_⟩
  cases hend with
  | undecodable _ => exact ⟨hshort, (by decide : ErrorKind.decodeError.code ≠ 7)⟩
  | empty hdecoded _ =>
    exact ⟨hdecoded.cbLen ▸ hshort, (by decide : ErrorKind.invalidInput.code ≠ 7)⟩
  | unsupported hdecoded _ =>
    exact ⟨hdecoded.cbLen ▸ hshort, (by decide : ErrorKind.unsupportedLength.code ≠ 7)⟩
  | full htransformed hfull =>
    have hmany := htransformed.buffered_of_full hfull
    omega
  | notPositive htransformed hselected _ _ =>
    exact ⟨(htransformed.smoothed hselected).cbLen_le,
      (by decide : ErrorKind.invalidInput.code ≠ 7)⟩
  | @completed e2 e3 e5 htransformed hselected hnoted =>
    obtain ⟨hregisters, -⟩ := Engine.noteStage_succeeds hnoted
    have hcb : e5.cbLen = (e3.emitStage s.active).cbLen := by rw [hregisters]
    exact ⟨hcb ▸ (htransformed.smoothed hselected).cbLen_le, (by decide : (0 : BitVec 4) ≠ 7)⟩

/-! ### The estimate a TICK emits -/

/-- The floor mean is positive as soon as the candidates sum to their number. -/
theorem Engine.candidateMean_pos (k : InstanceId) (e : Engine) (hn : 0 < e.cbLen.toNat)
    (h : (e.cbLen.toNat : Int) ≤ ∑ i ∈ Finset.range e.cbLen.toNat, e.candidate k i) :
    0 < e.candidateMean k := by
  have hpos : (0 : Int) < e.cbLen.toNat := Int.natCast_pos.mpr hn
  rw [Engine.candidateMean, e.candidates_sum k]
  exact (Int.le_ediv_iff_mul_le hpos).mpr (by omega)

/-- Numbers of 2 or more, but for one that is at least 0, sum to their number. -/
theorem natCast_le_sum_of_two_le {n m : Nat} {c : Nat → Int} (hn : 2 ≤ n)
    (hm : m < n → 0 ≤ c m) (hc : ∀ i < n, i ≠ m → 2 ≤ c i) :
    (n : Int) ≤ ∑ i ∈ Finset.range n, c i := by
  have hterm : ∀ i ∈ Finset.range n, 2 - (if i = m then 2 else 0) ≤ c i := by
    intro i hi
    by_cases him : i = m
    · rw [if_pos him, him, sub_self]
      exact hm (him ▸ Finset.mem_range.mp hi)
    · rw [if_neg him]
      exact hc i (Finset.mem_range.mp hi) him
  have hone : (∑ i ∈ Finset.range n, if i = m then (2 : Int) else 0) ≤ 2 := by
    rw [Finset.sum_ite_eq']
    split <;> norm_num
  calc (n : Int) ≤ n * 2 - ∑ i ∈ Finset.range n, (if i = m then (2 : Int) else 0) := by omega
    _ = ∑ i ∈ Finset.range n, (2 - if i = m then 2 else 0) := by
      rw [Finset.sum_sub_distrib, Finset.sum_const, Finset.card_range, nsmul_eq_mul]
    _ ≤ ∑ i ∈ Finset.range n, c i := Finset.sum_le_sum hterm

/-- After stage 3 the buffer holds the old candidates and then the new ones (R144). -/
theorem Engine.Transformed.candidate_cases {k : InstanceId} {e e2 e3 : Engine}
    (ht : e.Transformed k e2) (h : e2.selectStage k = .done e3) {i : Nat}
    (hi : i < e3.cbLen.toNat) :
    (i < e.cbLen.toNat ∧ e3.candidate k i = e.candidate k i) ∨
      ∃ (p : Nat) (hp : p < (e2.newCandidates k).length), i = e.cbLen.toNat + p ∧
        e3.candidate k i = (e2.newCandidates k)[p] := by
  obtain ⟨hroom, hgrown⟩ := Engine.selectStage_succeeds h
  have hold := e2.selectStage_candidate_old k i
  have hnew := e2.selectStage_candidate_new k hroom (i - e2.cbLen.toNat)
  rw [h, StageEnd.engine_done, ht.cbLen] at hold hnew
  rw [ht.cbLen] at hroom hgrown
  by_cases hlt : i < e.cbLen.toNat
  · exact .inl ⟨hlt, (hold hlt).trans (ht.bytes.candidate (by omega))⟩
  · rw [Nat.add_sub_cancel' (Nat.le_of_not_lt hlt)] at hnew
    exact .inr ⟨i - e.cbLen.toNat, by omega, by omega, hnew (by omega)⟩

/-- Above a positive minimum every new candidate is positive (R141). -/
theorem Engine.newCandidates_pos (k : InstanceId) (e : Engine) (hmin : 0 < e.minFreq.toInt) {p : Nat}
    (hp : p < (e.newCandidates k).length) : 0 < (e.newCandidates k)[p] := by
  obtain ⟨i, hband, hv⟩ := e.newCandidates_mem k (List.getElem_mem hp)
  obtain ⟨-, hge, -⟩ := (e.mem_inBand k i).mp hband
  rw [hv]
  omega

/-- With a positive rate the bins of a transform lie at least 4 raw units apart (R133), so new
candidate `p` is at least `4 * p`. -/
theorem Engine.Transformed.newCandidates_ge {k : InstanceId} {e e2 : Engine}
    (h : e.Transformed k e2) (hrate : 0 < e.rateOp) {p : Nat}
    (hp : p < (e2.newCandidates k).length) : ((4 * p : Nat) : Int) ≤ (e2.newCandidates k)[p] := by
  refine e2.newCandidates_ge k 4 (fun i hband => ?_) p hp
  obtain ⟨hlt, -⟩ := (e2.mem_inBand k i).mp hband
  rw [h.spectrum] at hlt
  rw [h.bins i (by omega)]
  obtain ⟨hpos, hle⟩ := supportedLength_pos h.supported
  have hmul := binRaw_mul e.rateOp _ i h.supported
  refine Int.ofNat_le.mpr (Nat.le_of_mul_le_mul_right ?_ hpos)
  rw [hmul]
  calc 4 * i * e2.frmLen.toNat ≤ 4 * i * 1024 := Nat.mul_le_mul_left _ hle
    _ = i * 1 * 4096 := by ring
    _ ≤ i * e.rateOp * 4096 := by gcongr; exact hrate

/-- The two premises of O41 under which no emission can be 0: a positive minimum and positive buffered
candidates, or a positive rate and buffered candidates of 2 or more. -/
def Engine.CandidatesSuffice (k : InstanceId) (e : Engine) : Prop :=
  (0 < e.minFreq.toInt ∧ ∀ i < e.cbLen.toNat, 0 < e.candidate k i) ∨
    (0 < e.rateOp ∧ ∀ i < e.cbLen.toNat, 2 ≤ e.candidate k i)

/-- The candidates stage 4 averages are then all positive, or at least 2 but for the first new one,
which can be the bin at 0 Hz. -/
theorem Engine.Transformed.le_candidates_sum {k : InstanceId} {e e2 e3 : Engine}
    (ht : e.Transformed k e2) (h : e2.selectStage k = .done e3) (hn : 3 < e3.cbLen.toNat)
    (hlarge : e.CandidatesSuffice k) :
    (e3.cbLen.toNat : Int) ≤ ∑ i ∈ Finset.range e3.cbLen.toNat, e3.candidate k i := by
  rcases hlarge with ⟨hmin, hcandidates⟩ | ⟨hrate, hcandidates⟩
  · have hmin2 : 0 < e2.minFreq.toInt := by rw [ht.registers]; exact hmin
    have hone : ∀ i ∈ Finset.range e3.cbLen.toNat, 1 ≤ e3.candidate k i := by
      intro i hi
      rcases ht.candidate_cases h (Finset.mem_range.mp hi) with ⟨hlt, hold⟩ | ⟨p, hp, -, hnew⟩
      · rw [hold]
        exact hcandidates i hlt
      · rw [hnew]
        exact e2.newCandidates_pos k hmin2 hp
    simpa using Finset.card_nsmul_le_sum _ _ 1 hone
  · refine natCast_le_sum_of_two_le (m := e.cbLen.toNat) (by omega) (fun hm => ?first)
      (fun i hi hne => ?others)
    case first =>
      rcases ht.candidate_cases h hm with ⟨hlt, -⟩ | ⟨p, hp, -, hnew⟩
      · exact absurd hlt (lt_irrefl _)
      · have hge := ht.newCandidates_ge hrate hp
        omega
    case others =>
      rcases ht.candidate_cases h hi with ⟨hlt, hold⟩ | ⟨p, hp, hip, hnew⟩
      · rw [hold]
        exact hcandidates i hlt
      · have hge := ht.newCandidates_ge hrate hp
        omega

/-- An estimate that is present after stage 4 is positive: it is the mean of such candidates, or the
old one. -/
theorem Engine.Transformed.estimate_pos {k : InstanceId} {e e2 e3 : Engine}
    (ht : e.Transformed k e2) (h : e2.selectStage k = .done e3)
    (hlarge : e.CandidatesSuffice k)
    (hold : e.status.feValid = true → 0 < e.fe.toInt)
    (hpresent : (e3.emitStage k).status.feValid = true) : 0 < (e3.emitStage k).fe.toInt := by
  cases hem : e3.emits with
  | true =>
    have hn := e3.emits_iff.mp hem
    rw [e3.emitStage_emit k hem]
    refine lt_of_lt_of_eq ?_ (e3.candidateMean_stored k (by omega)).symm
    exact e3.candidateMean_pos k (by omega) (ht.le_candidates_sum h hn hlarge)
  | false =>
    obtain ⟨-, -, hfe, hvalid⟩ := (ht.smoothed h).kept hem
    rw [hfe]
    exact hold (hvalid.symm.trans hpresent)

/-! ### A TICK through all five stages -/

/-- The word of a positive frequency reads back its note number, octave and index (R161 to R163). -/
theorem noteWord_reports {f : Int} (hpos : 0 < f) (hlt : f < 2 ^ 31) :
    ∃ n, IsNoteNumber f n ∧ ((noteWord (noteNumber f.toNat)).extractLsb' 16 16).toInt = n ∧
      ((noteWord (noteNumber f.toNat)).extractLsb' 8 8).toInt = Int.fdiv (n + 8) 12 ∧
      (noteWord (noteNumber f.toNat)).extractLsb' 4 4 = 0 ∧
      (((noteWord (noteNumber f.toNat)).extractLsb' 0 4).toNat : Int) = Int.fmod (n - 1) 12 := by
  have hnote := noteNumber_isNoteNumber (f := f.toNat) (by omega) (by omega)
  obtain ⟨-, -, hlo, hhi⟩ := noteNumber_spec (f := f.toNat) (by omega) (by omega)
  rw [Int.toNat_of_nonneg hpos.le] at hnote
  exact ⟨_, hnote, noteWord_readback hlo hhi⟩

/-- Settles O41: the premises exclude every end of a TICK but the last, and there the note stage says
that a present estimate is positive. -/
theorem tickCompletesAllFiveStages : Obligations.TickCompletesAllFiveStages := by
  unfold Obligations.TickCompletesAllFiveStages
  intro s k E L W C hW1 hW4 hC hL hdvd hpower hroom hlarge hold
  obtain ⟨g, hg, hcount⟩ := hpower
  have hsupported : supportedLength (L / (W * C)) = true :=
    (supportedLength_iff _).mpr ⟨g, hg, hcount⟩
  obtain ⟨hlen, hle⟩ := supportedLength_pos hsupported
  have hdecodable : decodable L W C E.frameLenOp = true :=
    decodable_of_dvd hW1 hW4 hC hL hdvd hle
  obtain ⟨T, hexec, hend⟩ := exec_tick_end s
  refine ⟨T, hexec, ?_⟩
  cases hend with
  | undecodable hfails => exact absurd (hdecodable.symm.trans hfails) (by decide)
  | empty hdecoded hempty => exact absurd (hdecoded.length.symm.trans hempty) hlen.ne'
  | unsupported hdecoded hlength =>
    rw [hdecoded.length] at hlength
    exact absurd (hsupported.symm.trans hlength) (by decide)
  | full htransformed hfull =>
    exact absurd (htransformed.buffered_of_full hfull) (Nat.not_lt.mpr hroom)
  | notPositive htransformed hselected hpresent hle =>
    exact absurd (htransformed.estimate_pos hselected hlarge hold hpresent) (Int.not_lt.mpr hle)
  | @completed e2 e3 e5 htransformed hselected hnoted =>
    have hsmoothed := htransformed.smoothed hselected
    obtain ⟨hregisters, hpresent, habsent⟩ := Engine.noteStage_succeeds hnoted
    generalize e3.emitStage s.active = e4 at hsmoothed hregisters hpresent habsent
    generalize e5.noteRes = r at hregisters hpresent habsent
    subst hregisters
    refine ⟨?registers, hsmoothed.length, ?spectrum, fun hem => ?emitted, fun hem => ?kept,
      fun hvalid => ?note, fun hvalid => ?noNote, hsmoothed.bytes⟩
    case registers =>
      rw [hsmoothed.registers]
      rfl
    case spectrum => exact hsmoothed.length ▸ hsmoothed.spectrum
    case emitted =>
      obtain ⟨hclear, hvalid⟩ := hsmoothed.emitted hem
      exact ⟨hclear, hvalid, (hpresent hvalid).1⟩
    case kept =>
      obtain ⟨hgrown, hshort, hestimate⟩ := hsmoothed.kept hem
      exact ⟨hgrown, hshort, hestimate⟩
    case note =>
      obtain ⟨hpos, hr⟩ := hpresent hvalid
      subst hr
      exact noteWord_reports hpos e4.fe.toInt_lt
    case noNote =>
      refine (habsent hvalid).trans ?_
      rw [hsmoothed.registers]

/-! ### The five commands one after another -/

/-- The engine after the commands of a list complete on it one after another, up to the first error:
`State.callSequence` without the host's writes to `CMD`. -/
def Engine.afterEach (k : InstanceId) : List Instr → Engine → Engine
  | [], e => e
  | i :: is, e =>
    if (e.after k i).status.err = 0 then Engine.afterEach k is (e.after k i) else e.after k i

theorem Engine.afterEach_go {k : InstanceId} {e : Engine} {i : Instr} (is : List Instr)
    (herr : (e.after k i).status.err = 0) :
    Engine.afterEach k (i :: is) e = Engine.afterEach k is (e.after k i) := if_pos herr

theorem Engine.afterEach_stop {k : InstanceId} {e : Engine} {i : Instr} (is : List Instr)
    (herr : (e.after k i).status.err ≠ 0) : Engine.afterEach k (i :: is) e = e.after k i :=
  if_neg herr

/-- `t` is `e` but for `CMD`. -/
def Engine.SameButCmd (e t : Engine) : Prop := t = { e with cmd := t.cmd }

/-- One call, seen from an engine `e` of which an acceptance makes what it makes of engine `k`: it
leaves what the command makes of `e`, but for the word in `CMD`. -/
theorem State.call_after {s : State} {k : InstanceId} {i : Instr} {e : Engine} (hi : i ≠ .init)
    (hidle : (s.engine k).status.busy = false)
    (haccept : ∀ w, (s.engine k).accept w = e.accept w) (hlatched : e.latched = e.operands) :
    ∃ t, s.call k i = .next t ∧ t.engine k = { e.after k i with cmd := encode i } ∧
      t.engine k.other = s.engine k.other := by
  refine ⟨_, s.call_eq k i hidle, ?same, ?other⟩
  case same =>
    rw [State.engine_setEngine_same, haccept, Engine.after_accept k e i hi hlatched]
  case other =>
    rw [State.engine_setEngine_other]
    cases k <;> rfl

/-- The host's sequence of calls is the sequence of completions: each acceptance latches the operands
that are latched already and writes `CMD`, which no command reads. -/
theorem State.callSequence_after {k : InstanceId} {i : Instr} {is : List Instr}
    (hinit : ∀ j ∈ i :: is, j ≠ .init) {s : State} {e : Engine}
    (hidle : (s.engine k).status.busy = false)
    (haccept : ∀ w, (s.engine k).accept w = e.accept w) (hlatched : e.latched = e.operands) :
    ∃ u, State.callSequence k (i :: is) s = .next u ∧
      (e.afterEach k (i :: is)).SameButCmd (u.engine k) ∧
      u.engine k.other = s.engine k.other := by
  induction is generalizing i s e with
  | nil =>
    obtain ⟨t, hcall, hengine, hother⟩ :=
      State.call_after (hinit i List.mem_cons_self) hidle haccept hlatched
    refine ⟨t, ?run, ?same, hother⟩
    case run => rw [State.callSequence, hcall, andThen_next, State.callSequence, ite_self]
    case same =>
      rw [Engine.afterEach, Engine.afterEach, ite_self, Engine.SameButCmd, hengine]
  | cons j is ih =>
    obtain ⟨hi, hrest⟩ := List.forall_mem_cons.mp hinit
    obtain ⟨t, hcall, hengine, hother⟩ := State.call_after hi hidle haccept hlatched
    have herr : (t.engine k).status.err = (e.after k i).status.err := by rw [hengine]
    by_cases h0 : (e.after k i).status.err = 0
    · obtain ⟨-, hoperands, hkept, -⟩ := e.after_frame k i hi
      obtain ⟨u, hrun, hsame, hother'⟩ := ih hrest (s := t) (e := e.after k i)
        (by rw [hengine]; exact e.after_busy k i) (fun w => by rw [hengine]; rfl)
        (by rw [hkept, hoperands, hlatched])
      rw [State.callSequence_go hcall (herr.trans h0), Engine.afterEach_go _ h0]
      exact ⟨u, hrun, hsame, hother'.trans hother⟩
    · rw [State.callSequence_stop hcall (herr.trans_ne h0), Engine.afterEach_stop _ h0]
      exact ⟨t, rfl, by rw [Engine.SameButCmd, hengine], hother⟩

/-- A completed command leaves to the next what it left of the data: no command reads the status it
reports. -/
theorem Engine.after_done (k : InstanceId) (e : Engine) (em : Bool) {i : Instr} (hi : i ≠ .init) :
    (e.done em).after k i = e.after k i := by
  obtain ⟨hcmd, hoperands, -, hnoise, hoverrun⟩ := e.after_frame k i hi
  calc (e.done em).after k i
      = (e.relabel e.cmd e.operands e.noiseThr (e.status.completed 0 0 em)).after k i := rfl
    _ = (e.after k i).retag e.cmd e.operands e.noiseThr e.status.overrun :=
      e.after_relabel k _ _ _ _ i hi
    _ = e.after k i := by
      rw [← hcmd, ← hoperands, ← hnoise, ← hoverrun]
      rfl

/-- A command that is done hands on to the next one what it has written. -/
theorem Engine.afterEach_done {k : InstanceId} {e t : Engine} {em : Bool} {i j : Instr}
    (is : List Instr) (h : e.after k i = t.done em) (hj : j ≠ .init) :
    Engine.afterEach k (i :: j :: is) e = Engine.afterEach k (j :: is) t := by
  rw [Engine.afterEach_go _ (by rw [h]; rfl), h, Engine.afterEach, t.after_done k em hj,
    Engine.afterEach]

/-- A command that raises is the last one. -/
theorem Engine.afterEach_raise {k : InstanceId} {e t : Engine} {kind : ErrorKind} {i : Instr}
    (is : List Instr) (h : e.after k i = t.raise kind 0 false) :
    Engine.afterEach k (i :: is) e = t.raise kind 0 false := by
  rw [Engine.afterEach_stop _ (by rw [h]; exact kind.code_ne_zero), h]

/-- A TICK and its five commands end in the same stage `x`: the TICK with the stage number and the
emission, the last command run as a command that emits nothing (R193). -/
theorem Engine.tickPass_afterEach (k : InstanceId) (e : Engine) :
    ∃ (x : StageEnd) (stage : BitVec 3) (em : Bool),
      e.tickPass k = { x.complete with
        status := { x.complete.status with stage := stage, emitted := em } } ∧
      e.afterEach k [.decode, .transform, .select, .emit, .noteE] = x.complete := by
  rcases e.tickPass_cases k with ⟨kind, e1, h1, hend⟩ | ⟨e1, h1, htail⟩
  · exact ⟨.raised kind e1, 1, false, hend, Engine.afterEach_raise _ (by rw [Engine.after, h1]; rfl)⟩
  rw [Engine.afterEach_done _ (by rw [Engine.after, h1]; rfl) (by decide)]
  rcases htail with ⟨kind, e2, h2, hend⟩ | ⟨e2, h2, htail⟩
  · exact ⟨.raised kind e2, 2, false, hend, Engine.afterEach_raise _ (by rw [Engine.after, h2]; rfl)⟩
  rw [Engine.afterEach_done _ (by rw [Engine.after, h2]; rfl) (by decide)]
  rcases htail with ⟨kind, e3, h3, hend⟩ | ⟨e3, h3, htail⟩
  · exact ⟨.raised kind e3, 3, false, hend, Engine.afterEach_raise _ (by rw [Engine.after, h3]; rfl)⟩
  rw [Engine.afterEach_done _ (by rw [Engine.after, h3]; rfl) (by decide),
    Engine.afterEach_done _ (by rw [Engine.after]) (by decide)]
  rcases htail with ⟨kind, e5, h5, hend⟩ | ⟨e5, h5, hend⟩
  · exact ⟨.raised kind e5, 5, e3.emits, hend,
      Engine.afterEach_raise _ (by rw [Engine.after, h5]; rfl)⟩
  · refine ⟨.done e5, 0, e3.emits, hend, ?_⟩
    rw [Engine.afterEach, Engine.afterEach, ite_self, Engine.after, h5]

/-- Settles O40: from the engine that has accepted the TICK word, the TICK's pass and the host's
sequence end in the same stage. -/
theorem tickEqualsTheFiveCommands : Obligations.TickEqualsTheFiveCommands := by
  unfold Obligations.TickEqualsTheFiveCommands
  intro s k hidle
  obtain ⟨u, hrun, hsame, hother⟩ := State.callSequence_after (i := .decode)
    (is := [.transform, .select, .emit, .noteE]) (by decide) hidle
    (e := (s.engine k).accept (encode .tick)) (fun _ => rfl) rfl
  generalize ha : (s.engine k).accept (encode .tick) = a at hsame
  have hcall := s.call_eq k .tick hidle
  rw [ha] at hcall
  obtain ⟨x, stage, em, htick, heach⟩ := a.tickPass_afterEach k
  have hcmd : x.complete.cmd = 8 := by
    have hkept := (a.after_frame k .tick (by decide)).1
    rw [Engine.after, htick, ← ha, Engine.accept_cmd, encode_eq_tableWord] at hkept
    exact hkept
  rw [heach, Engine.SameButCmd] at hsame
  refine ⟨_, u, hcall, hrun, ?_⟩
  rw [State.engine_setEngine_same, State.engine_setEngine_other, hother, hsame]
  refine ⟨?agree, ?stage, ?emitted, ?rest⟩
  case agree => rw [Engine.after, htick, ← hcmd]
  case stage => rw [x.complete_eq]; rfl
  case emitted => rw [x.complete_eq]; rfl
  case rest => cases k <;> rfl

end Sys2Proof.Machine
end

section
/-!
PROOFS. The statements of spec/60_exceptions.md: what a command that completed with an error has
changed, which host accesses stop the machine, and that an idle machine waits.
-/

namespace Sys2Proof.Machine

/-! ### What an error leaves -/

/-- `e` with the report a command left in `t`: `ERR`, `STAGE` and `EMITTED`, with `BUSY` = 0
(R201). -/
def Engine.withReport (e t : Engine) : Engine :=
  { e with
    status := { e.status with
      busy := false, err := t.status.err, stage := t.status.stage
      emitted := t.status.emitted } }

/-- An operation that has written `e` whenever it raises leaves `e` and the report of the error. -/
theorem StageEnd.complete_failed {x : StageEnd} {e t : Engine} (ht : t = x.complete)
    (hx : ∀ kind e1, x = .raised kind e1 → e1 = e) (herr : t.status.err ≠ 0) :
    t = e.withReport t := by
  subst ht
  cases x with
  | done e1 => exact absurd rfl herr
  | raised kind e1 =>
    rw [hx kind e1 rfl]
    rfl

/-- What a raise of the note computation says (R165). -/
theorem Engine.noteFor_raises {e e1 : Engine} {f : Int} {kind : ErrorKind}
    (h : e.noteFor f = .raised kind e1) : e1 = e.withNoteValid false := by
  by_cases hf : f ≤ 0
  · rw [e.noteFor_raised f hf] at h
    cases h
    rfl
  · rw [e.noteFor_done f (by omega)] at h
    cases h

/-- What a raise of the synthesis says (R171). -/
theorem Engine.synthesize_raises {e e1 : Engine} {f : Option Int} {kind : ErrorKind}
    (h : e.synthesize f = .raised kind e1) : e1 = e := by
  cases f with
  | none =>
    rw [e.synthesize_absent] at h
    cases h
    rfl
  | some f =>
    by_cases hrate : e.synthRateOp = 0
    · rw [e.synthesize_noRate f hrate] at h
      cases h
      rfl
    · rw [e.synthesize_done f hrate] at h
      cases h

/-- A SETBAND that fails has written the band (R182). -/
theorem Engine.setBand_failed {e t : Engine} {clamp : Int → Int → Int × Int}
    (ht : t = (e.setBand clamp).complete) (herr : t.status.err ≠ 0) :
    t = { e with minFreq := t.minFreq, maxFreq := t.maxFreq }.withReport t := by
  by_cases h : e.reqMinOp < e.reqMaxOp
  · rw [e.setBand_done clamp h] at ht
    exact absurd (ht ▸ rfl) herr
  · rw [e.setBand_raised clamp (by omega)] at ht
    subst ht
    rfl

/-- One case per stage says what holds at each stage, and that there is no other. -/
theorem tickStages_of_cases {j : BitVec 3} {A B C D : Prop}
    (h : (j = 1 ∧ A) ∨ (j = 2 ∧ B) ∨ (j = 3 ∧ C) ∨ (j = 5 ∧ D)) :
    (j = 1 → A) ∧ (j = 2 → B) ∧ (j = 3 → C) ∧ (j = 5 → D) ∧ j ∈ [1, 2, 3, 5] := by
  rcases h with ⟨rfl, h⟩ | ⟨rfl, h⟩ | ⟨rfl, h⟩ | ⟨rfl, h⟩ <;> simp [h]

/-- Settles O45: the operation of a stand-alone command raises before it writes anything, but NOTE,
which clears `NOTE_VALID`, and SETBAND, which stores the clamped band; `TickEnd` says where a TICK
raises and what its stages have written by then. -/
theorem failingCommandsKeepPriorState : Obligations.FailingCommandsKeepPriorState := by
  unfold Obligations.FailingCommandsKeepPriorState
  refine ⟨fun s => execIllegal_eq s, fun i s T hexec herr => ?_⟩
  have hT := exec_engine hexec
  intro k E report
  cases i with
  | decode =>
    exact StageEnd.complete_failed hT (fun _ _ h => (Engine.decodeStage_raises h).2.1) herr
  | transform =>
    exact StageEnd.complete_failed hT (fun _ _ h => (Engine.transformStage_raises h).1) herr
  | select =>
    exact StageEnd.complete_failed hT (fun _ _ h => (Engine.selectStage_raises h).2.1) herr
  | emit => exact herr (by rw [hT]; rfl)
  | noteE =>
    exact StageEnd.complete_failed hT (fun _ _ h => (Engine.noteStage_raises h).2.1) herr
  | noteF =>
    exact StageEnd.complete_failed hT (fun _ _ h => Engine.noteFor_raises h) herr
  | synthE =>
    exact StageEnd.complete_failed hT (fun _ _ h => Engine.synthesize_raises h) herr
  | synthF =>
    exact StageEnd.complete_failed hT (fun _ _ h => Engine.synthesize_raises h) herr
  | setbandMin => exact Engine.setBand_failed hT herr
  | setbandMax => exact Engine.setBand_failed hT herr
  | init => exact herr (by rw [hT]; rfl)
  | tick =>
    have hend : TickEnd k E T := hT ▸ E.tickPass_end k
    clear hT
    apply tickStages_of_cases
    cases hend with
    | completed _ _ _ => exact absurd rfl herr
    | undecodable _ => exact .inl ⟨rfl, rfl⟩
    | empty hdecoded _ =>
      exact .inr (.inl ⟨rfl, congrArg (Engine.raise · .invalidInput 2 false) hdecoded.registers,
        hdecoded.bytes⟩)
    | unsupported hdecoded _ =>
      exact .inr (.inl ⟨rfl,
        congrArg (Engine.raise · .unsupportedLength 2 false) hdecoded.registers, hdecoded.bytes⟩)
    | full htransformed _ =>
      exact .inr (.inr (.inl ⟨rfl,
        congrArg (Engine.raise · .capacityError 3 false) htransformed.registers,
        htransformed.bytes⟩))
    | @notPositive e2 e3 htransformed hselected _ _ =>
      have hsmoothed := htransformed.smoothed hselected
      exact .inr (.inr (.inr ⟨rfl,
        congrArg (fun t => (Engine.withNoteValid t false).raise .invalidInput 5 e3.emits)
          hsmoothed.registers,
        fun hem => (hsmoothed.kept hem).2.2, hsmoothed.bytes⟩))

/-! ### What stops the machine -/

/-- A step is a host access or goes on: no reset and no completion stops it (R207). -/
theorem step_cases (s : State) : (∃ t, step s = .next t) ∨ ∃ ev rest, s.schedule = ev :: rest ∧
    ((∃ width addr, ev = .read width addr ∧
        step s = hostRead width addr { s with schedule := rest }) ∨
      ∃ width addr w, ev = .write width addr w ∧
        step s = hostWrite width addr w { s with schedule := rest }) := by
  cases hs : s.schedule with
  | nil =>
    rw [step_empty hs]
    split_ifs <;> exact .inl ⟨_, rfl⟩
  | cons ev rest =>
    cases ev with
    | read width addr => exact .inr ⟨_, rest, rfl, .inl ⟨width, addr, rfl, step_read hs⟩⟩
    | write width addr w => exact .inr ⟨_, rest, rfl, .inr ⟨width, addr, w, rfl, step_write hs⟩⟩
    | hardReset lost => exact .inl ⟨_, step_reset hs⟩
    | complete k =>
      rw [step_complete hs]
      split_ifs <;> exact .inl ⟨_, rfl⟩

/-- No host read ends in a fault. -/
theorem hostRead_ne_fault (width : Nat) (addr : BitVec 20) (s : State) (f : Fault) :
    hostRead width addr s ≠ .fault f := by
  intro h
  rcases hostRead_cases width addr s with ⟨h', -⟩ | ⟨h', -⟩ | ⟨w, n, h'⟩ <;>
    rw [h'] at h <;> cases h

/-- The host reads that are refused (R73, R237). -/
theorem hostRead_refused {width : Nat} {addr : BitVec 20} {s : State} {r : Refusal}
    (h : hostRead width addr s = .refused r) :
    (r = .notAlignedWordAccess ∧ (width ≠ 32 ∨ addr.toNat % 4 ≠ 0)) ∨
    (r = .readWhileBusy ∧ width = 32 ∧ addr.toNat % 4 = 0 ∧
      ∃ k : InstanceId, (s.engine k).status.busy = true ∧
        ((∃ reg, reg ≠ .status ∧ locate addr.toNat = .register k reg) ∨
          ∃ sp off, locate addr.toNat = .data k sp off)) := by
  rcases hostRead_cases width addr s with ⟨h', hbad⟩ | ⟨h', hbusy⟩ | ⟨w, n, h'⟩ <;>
    rw [h'] at h <;> cases h
  · exact .inl ⟨rfl, hbad⟩
  · exact .inr ⟨rfl, hbusy⟩

/-- The only host writes that are refused are those that are not aligned words (R73). -/
theorem hostWrite_refused {width : Nat} {addr : BitVec 20} {w : Word} {s : State} {r : Refusal}
    (h : hostWrite width addr w s = .refused r) :
    r = .notAlignedWordAccess ∧ (width ≠ 32 ∨ addr.toNat % 4 ≠ 0) := by
  rcases hostWrite_cases width addr w s with ⟨h', hbad⟩ | ⟨-, -, ⟨h', -⟩ | ⟨k, -, h'⟩⟩
  · rw [h'] at h
    cases h
    exact ⟨rfl, hbad⟩
  · rw [h'] at h
    cases h
  · rcases h' with h' | ⟨_, h', -⟩ | ⟨h', -⟩ | ⟨_, -, -, -, h', -⟩ | ⟨h', -⟩ | ⟨h', -⟩ <;>
      rw [h'] at h <;> cases h

/-- The host writes that end in a fault: the two races of R237 and R238. -/
theorem hostWrite_fault {width : Nat} {addr : BitVec 20} {w : Word} {s : State} {f : Fault}
    (h : hostWrite width addr w s = .fault f) : width = 32 ∧ addr.toNat % 4 = 0 ∧
    ∃ k : InstanceId,
      (f = .initWriteRace ∧ (s.engine k).inFlight = some .init ∧
        ((∃ r, locate addr.toNat = .register k (.operand r)) ∨
          locate addr.toNat = .register k .noiseThr)) ∨
      (f = .rawWriteRace ∧
        ((s.engine k).inFlight = some .decode ∨ (s.engine k).inFlight = some .tick) ∧
        ∃ off, locate addr.toNat = .data k .raw off) := by
  rcases hostWrite_cases width addr w s with ⟨h', -⟩ | ⟨hw, h4, ⟨h', -⟩ | ⟨k, -, h'⟩⟩
  · rw [h'] at h
    cases h
  · rw [h'] at h
    cases h
  · refine ⟨hw, h4, k, ?_⟩
    rcases h' with h' | ⟨_, h', -⟩ | ⟨h', -⟩ | ⟨_, -, -, -, h', -⟩ | ⟨h', hrace⟩ | ⟨h', hrace⟩ <;>
      rw [h'] at h <;> cases h
    · exact .inl ⟨rfl, hrace⟩
    · exact .inr ⟨rfl, hrace⟩

theorem Engine.busy_of_inFlight {e : Engine} {i : Instr} (h : e.inFlight = some i) :
    e.status.busy = true := ((e.inFlight_eq_some i).mp h).1

/-- Settles O51: only host accesses stop the machine, and those that do are listed by
`hostWrite_fault`, `hostRead_refused` and `hostWrite_refused`. -/
theorem stopsOnlyOnHostMisuse : Obligations.StopsOnlyOnHostMisuse := by
  unfold Obligations.StopsOnlyOnHostMisuse
  refine ⟨fun s f hf => ?fault, fun s r hr => ?refusal⟩
  case fault =>
    rcases step_cases s with ⟨t, hnext⟩ | ⟨ev, rest, hs, ⟨width, addr, rfl, hread⟩ |
      ⟨width, addr, w, rfl, hwrite⟩⟩
    · rw [hnext] at hf
      cases hf
    · exact absurd (hread.symm.trans hf) (hostRead_ne_fault _ _ _ _)
    · obtain ⟨rfl, h4, k, hrace⟩ := hostWrite_fault (hwrite.symm.trans hf)
      rw [State.engine_schedule] at hrace
      refine ⟨addr, w, rest, k, hs, h4, ?_, hrace⟩
      rcases hrace with ⟨-, hflight, -⟩ | ⟨-, hflight | hflight, -⟩ <;>
        exact Engine.busy_of_inFlight hflight
  case refusal =>
    rcases step_cases s with ⟨t, hnext⟩ | ⟨ev, rest, hs, ⟨width, addr, rfl, hread⟩ |
      ⟨width, addr, w, rfl, hwrite⟩⟩
    · rw [hnext] at hr
      cases hr
    · refine ⟨_, rest, hs, ?_⟩
      rcases hostRead_refused (hread.symm.trans hr) with ⟨rfl, hbad⟩ |
        ⟨rfl, rfl, h4, k, hbusy, hloc⟩
      · exact .inl ⟨rfl, .inl ⟨width, addr, rfl, hbad⟩⟩
      · rw [State.engine_schedule] at hbusy
        exact .inr ⟨rfl, addr, k, rfl, h4, hbusy, hloc⟩
    · obtain ⟨rfl, hbad⟩ := hostWrite_refused (hwrite.symm.trans hr)
      exact ⟨_, rest, hs, .inl ⟨rfl, .inr ⟨width, addr, w, rfl, hbad⟩⟩⟩

/-! ### An idle machine -/

/-- Settles O8: with an empty schedule only a busy engine makes a step do anything. -/
theorem idleMachineWaits : Obligations.IdleMachineWaits := by
  unfold Obligations.IdleMachineWaits
  intro s hs hlive hfile
  rw [step_empty hs, hlive, hfile]
  rfl

end Sys2Proof.Machine
end

section
/-!
PROOFS. The statements of spec/70_reset_and_hazards.md: hardware reset and the first command after
it, the accesses the engine has no meaning for, what changes a byte of `RAW`, and that every command
completes.
-/

namespace Sys2Proof.Machine

/-! ### Accesses of a busy engine -/

/-- The two bits of a `STATUS` word read during `BUSY` that are defined (R237). -/
theorem Status.busyWord_getLsbD (st : Status) (free : Word) :
    (st.busyWord free).getLsbD 0 = true ∧ (st.busyWord free).getLsbD 1 = st.overrun := by
  unfold Status.busyWord
  simp only [BitVec.getLsbD_append, BitVec.getLsbD_ofBool]
  exact ⟨rfl, rfl⟩

/-- A read of another register of a busy engine (R237). -/
theorem hostRead_busyRegister (s : State) (k : InstanceId) {r : Reg} (hr : r ≠ .status)
    (hb : (s.engine k).status.busy = true) :
    hostRead 32 (k.address r.offset) s = .refused .readWhileBusy := by
  unfold hostRead
  rw [InstanceId.address_aligned k (by have := r.offset_lt; omega) r.offset_mod, locate_register]
  cases r with
  | status => exact absurd rfl hr
  | _ => simp [hb]

/-- A read of a data space of a busy engine (R237). -/
theorem hostRead_busyData (s : State) (k : InstanceId) {sp : Space} {off : Nat}
    (h : sp.holds off = true) (h4 : off % 4 = 0) (hb : (s.engine k).status.busy = true) :
    hostRead 32 (k.address off) s = .refused .readWhileBusy := by
  have hbounds := Space.holds_bounds h
  unfold hostRead
  rw [InstanceId.address_aligned k (by omega) h4, locate_data k h]
  simp [hb]

/-- A write to `RAW` while a DECODE or TICK is in flight (R238). -/
theorem hostWrite_rawRace (s : State) (k : InstanceId) {off : Nat} (w : Word)
    (h : Space.raw.holds off = true) (h4 : off % 4 = 0)
    (hf : (s.engine k).inFlight = some .decode ∨ (s.engine k).inFlight = some .tick) :
    hostWrite 32 (k.address off) w s = .fault .rawWriteRace := by
  have hbounds := Space.holds_bounds h
  unfold hostWrite
  rw [InstanceId.address_aligned k (by omega) h4, locate_data k h]
  simp [hf]

/-- The registers INIT races with: a write to one while INIT is in flight (R237). -/
theorem hostWrite_initRace (s : State) (k : InstanceId) {r : Reg} (w : Word)
    (hr : (∃ o, r = .operand o) ∨ r = .noiseThr) (hf : (s.engine k).inFlight = some .init) :
    hostWrite 32 (k.address r.offset) w s = .fault .initWriteRace := by
  unfold hostWrite
  rw [InstanceId.address_aligned k (by have := r.offset_lt; omega) r.offset_mod, locate_register]
  rcases hr with ⟨o, rfl⟩ | rfl <;> simp [hf]

/-- An access that is not an aligned word (R73). -/
theorem alignedWordAccess_eq_false {width : Nat} {addr : BitVec 20}
    (h : width ≠ 32 ∨ addr.toNat % 4 ≠ 0) : alignedWordAccess width addr = false := by
  rw [← Bool.not_eq_true, alignedWordAccess_iff]
  omega

/-- Settles O17. -/
theorem busyAndMisalignedAccesses : Obligations.BusyAndMisalignedAccesses := by
  unfold Obligations.BusyAndMisalignedAccesses
  refine ⟨fun s k hb => ?status, fun s k r hb hr => hostRead_busyRegister s k hr hb,
    fun s k sp off hb hoff h4 => hostRead_busyData s k hoff h4 hb,
    fun s k a w h4 ha hf => hostWrite_rawRace s k w (Space.holds_byte .raw ha) (by omega) hf,
    fun s k r w hf => ⟨hostWrite_initRace s k w (.inl ⟨r, rfl⟩) hf,
      hostWrite_initRace s k w (.inr rfl) hf⟩,
    fun s width addr w hbad => ?misaligned⟩
  case status =>
    obtain ⟨hbusy, hoverrun⟩ := (s.engine k).status.busyWord_getLsbD
      (Config.busyStatusBits s.freeReads)
    exact ⟨_, hostRead_busyStatus s k hb, hbusy, hoverrun, rfl, rfl⟩
  case misaligned =>
    have ha := alignedWordAccess_eq_false hbad
    exact ⟨by rw [hostRead, ha]; rfl, by rw [hostWrite, ha]; rfl⟩

/-! ### Every command -/

/-- `CMD` after a command: INIT leaves its own word, every other command leaves it alone. -/
theorem Engine.after_cmd (k : InstanceId) (e : Engine) (i : Instr) :
    (e.after k i).cmd = if i = .init then 9 else e.cmd := by
  by_cases hi : i = .init
  · rw [if_pos hi, hi, Engine.after_init]
  · rw [if_neg hi, (e.after_frame k i hi).1]

/-- Settles O44. -/
theorem everyCommandCompletes : Obligations.EveryCommandCompletes := by
  unfold Obligations.EveryCommandCompletes
  exact fun i s => ⟨_, exec_eq i s, Engine.after_busy _ _ i, Engine.after_cmd _ _ i⟩

/-! ### The bytes of `RAW` -/

/-- Only INIT of all commands writes `RAW`. -/
theorem raw_not_mem_writtenBy {i : Instr} (hi : i ≠ .init) : Space.raw ∉ writtenBy i := by
  revert hi
  cases i <;> decide

/-- A byte of `RAW` outlives the command in flight, legal or not, unless that is INIT. -/
theorem Engine.completed_rawByte (k : InstanceId) {e : Engine} {off : Nat}
    (hb : e.status.busy = true) (hi : e.inFlight ≠ some .init)
    (hoff : Space.raw.holds off = true) : (e.completed k).byteAt k off = e.byteAt k off := by
  cases hd : decodeWord e.cmd with
  | error r =>
    rw [Engine.completed_of_error k hd]
    rfl
  | ok i =>
    have hne : i ≠ .init := by
      rintro rfl
      exact hi ((e.inFlight_eq_some _).mpr ⟨hb, hd⟩)
    rw [Engine.completed_of_ok k hd]
    refine e.after_byteAt k i off hne fun sp hsp => Space.holds_other hoff ?_
    rintro rfl
    exact raw_not_mem_writtenBy hne hsp

/-- A write to `CMD` touches no byte. -/
theorem Engine.writeCmd_byteAt (k : InstanceId) (e : Engine) (w : Word) (off : Nat) :
    (e.writeCmd w).byteAt k off = e.byteAt k off := by
  cases hb : e.status.busy with
  | false =>
    rw [Engine.writeCmd_idle w hb]
    rfl
  | true =>
    rw [Engine.writeCmd_busy w hb]
    rfl

/-- Settles O48: of the changes a step can make to an engine, only a reset, INIT and a write to the
byte's own word reach a byte of `RAW`. -/
theorem rawBytesAreStable : Obligations.RawBytesAreStable := by
  unfold Obligations.RawBytesAreStable
  intro s t k off hstep hlo hhi hchanged
  have hoff : Space.raw.holds off = true := (Space.holds_iff _ _).mpr ⟨hlo, hhi⟩
  rcases step_engine_cases hstep k with he | ⟨hreset, -⟩ | ⟨hb, hcompleting, he⟩ |
    ⟨w, addr, rest, hs, hwrite⟩
  · rw [he] at hchanged
    exact absurd rfl hchanged
  · exact .inl hreset
  · by_cases hi : (s.engine k).inFlight = some .init
    · exact .inr (.inl (hcompleting.trans hi))
    · rw [he] at hchanged
      exact absurd (Engine.completed_rawByte k hb hi hoff) hchanged
  · rcases hwrite with he | ⟨r, he⟩ | he | ⟨a, -, h4, rfl, he⟩ <;> rw [he] at hchanged
    · exact absurd (Engine.writeCmd_byteAt k _ w off) hchanged
    · exact absurd rfl hchanged
    · exact absurd rfl hchanged
    · have hword : a ≤ off ∧ off < a + 4 := by
        by_contra hout
        exact hchanged (Engine.writeRaw_byteAt_outside k _ w hout)
      have ha : off / 4 * 4 = a := by omega
      exact .inr (.inr ⟨w, rest, by rw [ha]; exact hs⟩)

/-! ### Hardware reset -/

/-- Settles O7. -/
theorem hardwareResetAbandonsCommands : Obligations.HardwareResetAbandonsCommands := by
  unfold Obligations.HardwareResetAbandonsCommands
  intro s rest lost hs
  refine ⟨_, step_reset hs, rfl, fun k => ⟨(s.engine k).epochs.bumpAll, Operands.zero, ?_⟩⟩
  rw [hardwareReset_engine, State.engine_schedule]
  exact ⟨rfl, rfl, Epochs.bumpAll_ne _⟩

/-! ### The first command after reset -/

/-- An engine right after reset that has accepted the word of `i`. -/
def Engine.firstAccepted (i : Instr) : Engine :=
  (Engine.resetIn Epochs.first).accept (encode i)

/-- What holds of `i` completed on `firstAccepted` holds once the host has issued it first after
reset. -/
theorem State.reset_call (k : InstanceId) (i : Instr) {P : Engine → Prop}
    (h : P ((Engine.firstAccepted i).after k i)) :
    ∃ t, State.reset.call k i = .next t ∧ P (t.engine k) := by
  have hreset : State.reset.engine k = Engine.resetIn Epochs.first := by cases k <;> rfl
  refine ⟨_, State.reset.call_eq k i (by rw [hreset]; rfl), ?_⟩
  rw [State.engine_setEngine_same, hreset]
  exact h

/-- The reset operands describe no buffer: a width of 0 fails the checks of R121. -/
theorem Engine.firstAccepted_undecodable (i : Instr) :
    let e := Engine.firstAccepted i
    decodable e.rawLenOp e.widthOp e.channelsOp e.frameLenOp = false := rfl

/-- An empty spectrum has no candidates. -/
theorem Engine.newCandidates_empty (k : InstanceId) {e : Engine} (h : e.specLen = 0) :
    e.newCandidates k = [] := by
  apply List.eq_nil_of_length_eq_zero
  have hle := e.newCandidates_length_le k
  rw [h] at hle
  exact Nat.le_zero.mp hle

/-- A TICK whose frame does not decode ends at stage 1 (R192). -/
theorem Engine.tickPass_undecodable (k : InstanceId) (e : Engine)
    (h : decodable e.rawLenOp e.widthOp e.channelsOp e.frameLenOp = false) :
    e.tickPass k = e.raise .decodeError 1 false := by
  rw [Engine.tickPass, e.decodeStage_raised k h]

/-- A clamped band is reported as 0x40. -/
theorem BandStored.first_report {i : Instr} {lo hi : Int} {t : Engine}
    (h : BandStored lo hi 4 (Engine.firstAccepted i) t) :
    t.status.word = 0x40 ∧ t.minFreq.toInt = lo ∧ t.maxFreq.toInt = hi := by
  obtain ⟨hmin, hmax, hregisters⟩ := h
  have hword : (Status.reset.completed 4 0 false).word = 0x40 := by decide
  refine ⟨?_, hmin, hmax⟩
  rw [hregisters]
  exact hword

/-- SYNTH.F at the reset operands: 44100 samples of silence (R174 (b)). -/
theorem Engine.firstAccepted_tone (k : InstanceId) :
    let t := (Engine.firstAccepted .synthF).after k .synthF
    t.status.word = 0 ∧ t.toneLen = 44100 ∧ ∀ n < 44100, t.toneSample k n = 0 := by
  have hrate : (Engine.firstAccepted .synthF).synthRateOp = 44100 := by decide
  have hcount : (Engine.firstAccepted .synthF).synthCountOp = 44100 := by decide
  have hrate0 : (Engine.firstAccepted .synthF).synthRateOp ≠ 0 := by rw [hrate]; decide
  have hword : (Status.reset.completed 0 0 false).word = 0 := by decide
  have hsilence : ∀ n, toneValue (tuningWord 0 44100) n = 0 := fun n =>
    (synthAtSimpleFractionsOfTheRate 44100 n (by decide)).1
  refine ⟨?word, ?length, fun n hn => ?sample⟩
  case word =>
    rw [Engine.after_synthF, Engine.synthesize_commit _ _ hrate0]
    exact hword
  case length =>
    rw [Engine.after_synthF, Engine.synthesize_commit _ _ hrate0, hcount]
    rfl
  case sample =>
    rw [Engine.after_synthF, StageEnd.complete_toneSample, Engine.synthesize_toneSample k _ _ hrate0
      n (hcount.symm ▸ hn) (toneValue_bounds _ n), hrate]
    exact hsilence n

/-- Settles O10: each command on the reset registers, by the rule for what it leaves. -/
theorem firstCommandAfterReset : Obligations.FirstCommandAfterReset := by
  unfold Obligations.FirstCommandAfterReset
  intro k
  have undecodable := Engine.firstAccepted_undecodable
  refine ⟨State.reset_call k .decode (P := fun e => e.status.word = 0x10) ?decode,
    State.reset_call k .transform (P := fun e => e.status.word = 0x20) ?transform,
    State.reset_call k .select (P := fun e => e.status.word = 0 ∧ e.cbLen = 0) ?select,
    State.reset_call k .emit (P := fun e => e.status.word = 0) ?emit,
    State.reset_call k .noteE (P := fun e => e.status.word = 0) ?noteE,
    State.reset_call k .noteF (P := fun e => e.status.word = 0x20) ?noteF,
    State.reset_call k .synthE (P := fun e => e.status.word = 0x30) ?synthE,
    State.reset_call k .synthF
      (P := fun e => e.status.word = 0 ∧ e.toneLen = 44100 ∧ ∀ n < 44100, e.toneSample k n = 0)
      (Engine.firstAccepted_tone k),
    State.reset_call k .setbandMin
      (P := fun e => e.status.word = 0x40 ∧ e.minFreq.toInt = -409600 ∧ e.maxFreq.toInt = 0)
      ?setbandMin,
    State.reset_call k .setbandMax
      (P := fun e => e.status.word = 0x40 ∧ e.minFreq.toInt = 0 ∧ e.maxFreq.toInt = 409600)
      ?setbandMax,
    State.reset_call k .tick (P := fun e => e.status.word = 0x1010) ?tick, ?init⟩
  case decode =>
    rw [Engine.after_decode_raised k _ (undecodable _)]
    decide
  case transform =>
    rw [Engine.after_transform_empty k _ rfl]
    decide
  case select =>
    have hnew : (Engine.firstAccepted .select).newCandidates k = [] :=
      Engine.newCandidates_empty k rfl
    rw [Engine.after_select_done k _ (by rw [hnew]; decide), hnew]
    decide
  case emit =>
    rw [Engine.after_emit_keeping k _ (by decide)]
    decide
  case noteE =>
    rw [Engine.after_noteE_absent k _ rfl]
    decide
  case noteF =>
    rw [Engine.after_noteF k, Engine.noteFor_invalid _ (by decide)]
    decide
  case synthE =>
    rw [Engine.after_synthE_absent k _ rfl]
    decide
  case setbandMin => exact (Engine.after_setbandMin_conflict k _ (by decide)).first_report
  case setbandMax => exact (Engine.after_setbandMax_conflict k _ (by decide)).first_report
  case tick =>
    rw [Engine.after, Engine.tickPass_undecodable k _ (undecodable _)]
    decide
  case init =>
    obtain ⟨t, hcall, hreset⟩ := State.reset_call k .init
      (P := fun e => e = { Engine.resetIn e.epochs with cmd := 9, latched := e.latched })
      (by rw [Engine.after_init]; rfl)
    exact ⟨t, _, _, hcall, hreset⟩

end Sys2Proof.Machine
end
